-- ==== Sys2Proof/Word.lean ====
section
/-! DEFINITION. The three bit-vector widths of the block (R6, R21): bytes and codewords, 16-bit sample
patterns and data registers, 32-bit register-port words and header fields. -/

namespace Sys2Proof

/-- A byte of a stream or a buffer, and an 8-bit codeword (R6 `CODE_BITS`). -/
abbrev Byte := BitVec 8

/-- A 16-bit two's-complement sample pattern, and the contents of `DIN` and `DOUT` (R6). -/
abbrev Sample := BitVec 16

/-- A 32-bit word of the register port, and a 32-bit header field (R21, R32). -/
abbrev Word := BitVec 32

end Sys2Proof
end

