-- ==== Sys2Proof/Config.lean ====
section
/-! DEFINITION. The free value of the model: what the spec leaves open and no proof may see. The open
PARAMETER `MAX_PAYLOAD_BYTES` (R6, D35) is a field of State (log entry 2), and the host's free DRAWS are
queued in State as plain data (log entry 3). -/

namespace Sys2Proof

/-- How far the `k`-th `ReadExact` that answers `ShortRead` moves the source cursor. R55: "p afterwards:
unspecified"; 93 I1 allows every cursor from `p` to `|SRC|`. The model takes this value modulo the number
of positions allowed (`Machine.shortReadCursor`), so it ranges over all of them. It has no body: no proof
can know a value of it (log entry 4). -/
opaque Config.shortReadAdvance : Nat → Nat

end Sys2Proof
end

