-- ==== Sys2Proof/Machine/Bytes.lean ====
section
/-! DEFINITION. Byte order, decided once (R51: little-endian everywhere), and slices of byte sequences
(R7, R9). Every multi-byte value the block reads or writes goes through `leBytes` and `leValue`. -/

namespace Sys2Proof.Machine

/-- The `n` little-endian bytes of `v` modulo `256^n` (R9 `bytes16`, `bytes32`; R53 `(v >> 8j) mod 256`). -/
def leBytes : Nat → Nat → List Byte
  | 0, _ => []
  | n + 1, v => BitVec.ofNat 8 v :: leBytes n (v / 256)

/-- The unsigned little-endian value of a byte sequence (R53, R9 `LE16`, `LE32`). -/
def leValue : List Byte → Nat
  | [] => 0
  | b :: bs => b.toNat + 256 * leValue bs

/-- `B[off .. off+n)` (R7). -/
def slice (B : List Byte) (off n : Nat) : List Byte := (B.drop off).take n

/-- `LE16(B, off)` as a 16-bit field (R9). -/
def le16 (B : List Byte) (off : Nat) : BitVec 16 := BitVec.ofNat 16 (leValue (slice B off 2))

/-- `LE32(B, off)` as a 32-bit field (R9). -/
def le32 (B : List Byte) (off : Nat) : Word := BitVec.ofNat 32 (leValue (slice B off 4))

/-- `bytes16(v)` (R9). -/
def bytes16 (v : BitVec 16) : List Byte := leBytes 2 v.toNat

/-- `bytes32(v)` (R9). -/
def bytes32 (v : Word) : List Byte := leBytes 4 v.toNat

end Sys2Proof.Machine
end

