-- ==== Sys2Proof/Syntax.lean ====
section
/-! DEFINITION. The command set: one constructor per row of spec/opcode_table.json (R71). A command carries
no immediate and no register field; its operands are the registers `DIN` and `LEN` and the byte source (R70),
so no constructor has an argument. -/

namespace Sys2Proof

/-- The eleven commands of R71. -/
inductive Instr where
  /-- `ALAW_ENC`, code 0x10 (R111). -/
  | alawEnc
  /-- `ULAW_ENC`, code 0x11 (R112). -/
  | ulawEnc
  /-- `ALAW_DEC`, code 0x12 (R113). -/
  | alawDec
  /-- `ULAW_DEC`, code 0x13 (R114). -/
  | ulawDec
  /-- `CODEC_ALAW_ENC`, code 0x20 (R147). -/
  | codecAlawEnc
  /-- `CODEC_ULAW_ENC`, code 0x21 (R148). -/
  | codecUlawEnc
  /-- `CODEC_ALAW_DEC`, code 0x22 (R149). -/
  | codecAlawDec
  /-- `CODEC_ULAW_DEC`, code 0x23 (R150). -/
  | codecUlawDec
  /-- `CONV_PCM_ALAW`, code 0x30 (R210). -/
  | convPcmAlaw
  /-- `CONV_PCM_ULAW`, code 0x31 (R211). -/
  | convPcmUlaw
  /-- `CONV_G711_PCM`, code 0x32 (R212). -/
  | convG711Pcm
  deriving DecidableEq, Repr

end Sys2Proof
end

