-- ==== Sys2Proof/Machine/Types.lean ====
section
/-! DEFINITION. The names and records the state is made of: laws and directions, sequencer states, error
kinds, registers, host actions and answers, and the two header records. -/

namespace Sys2Proof.Machine

/-- The companding law (R11): `A` is A-law, `U` is µ-law. -/
inductive Law where
  | A
  | U
  deriving DecidableEq, Repr

/-- The direction of a transform (R72): encode is linear16 to codeword, decode is codeword to linear16. -/
inductive Dir where
  | enc
  | dec
  deriving DecidableEq, Repr

/-- The kind `K` of a conversion (R200). -/
inductive ConvKind where
  | l2c (law : Law)
  | c2l
  deriving DecidableEq, Repr

/-- The sequencer states of R24, in code order. -/
inductive SeqState where
  | idle
  | headerRead
  | payloadRead
  | headerDerived
  | payloadTransformed
  | written
  | done
  | failed
  deriving DecidableEq, Repr

/-- The six error kinds of R241. `None` (code 0) is the absence of one; code 7 is never produced (R25), so
no constructor stands for it. -/
inductive ErrKind where
  | badMagic
  | truncatedHeader
  | shortRead
  | writeFailure
  | malformedPayload
  | unsupportedEncoding
  deriving DecidableEq, Repr

/-- The five registers of the register port (R21). -/
inductive Reg where
  | cmd
  | status
  | din
  | dout
  | len
  deriving DecidableEq, Repr

/-- The host's answer to one `WriteAll` (R56): `ok`, or `WriteFailure` after `flushed` bytes of the request
reached the sink. A number past the request's length stands for the whole request. -/
inductive WriteAnswer where
  | ok
  | writeFailure (flushed : Nat)
  deriving DecidableEq, Repr

/-- One action of a host program (R75), with the two host liberties R283 names besides register accesses
(the answers of `WriteAll`, and reset), the host's answering of `ReadExact` (R253), and the interleaving the
spec leaves free. -/
inductive HostAction where
  /-- `WR`: write a 32-bit word at a byte offset of the register port. `CMD <mnemonic>` is this action at
  offset 0x00. -/
  | write (offset : Nat) (value : Word)
  /-- `RD`: read the word at a byte offset of the register port. -/
  | read (offset : Nat)
  /-- `WAIT`: poll `STATUS` until `BUSY = 0`. -/
  | wait
  /-- The host makes no access while the sequencer takes one step: how a program fixes an interleaving. -/
  | letStep
  /-- `SRC`: append bytes to the byte source. -/
  | source (bytes : List Byte)
  /-- The host positions the byte source's cursor (R55, R248); a position past the end is the end. -/
  | seek (cursor : Nat)
  /-- The host fixes its answer to a coming `WriteAll`; answers are used in order. -/
  | answer (a : WriteAnswer)
  /-- From now on the host withholds its answers to `ReadExact` (`held`), or gives them again (R253, R283). -/
  | holdReads (held : Bool)
  /-- `SINK?`: the host inspects the sink. -/
  | inspectSink
  /-- Reset, a host action available at any time (R270). -/
  | reset
  deriving DecidableEq, Repr

/-- The LinearHeader record (R32). Tags are byte sequences (R51), the other fields unsigned integers of the
stated width. -/
structure LinearHeader where
  riffTag       : List Byte
  fileSize      : Word
  waveFmtTag    : List Byte
  fmtSize       : Word
  formatTag     : BitVec 16
  channels      : BitVec 16
  sampleRate    : Word
  byteRate      : Word
  frameBytes    : BitVec 16
  bitsPerSample : BitVec 16
  dataTag       : List Byte
  dataLen       : Word
  deriving DecidableEq, Repr

/-- The CompandedHeader record (R33). `trailer` is a field of the record only, never on the wire (R82). -/
structure CompandedHeader where
  riffTag       : List Byte
  fileSize      : Word
  waveFmtTag    : List Byte
  fmtSize       : Word
  formatTag     : BitVec 16
  channels      : BitVec 16
  sampleRate    : Word
  byteRate      : Word
  blockAlign    : BitVec 16
  bitsPerSample : BitVec 16
  cbSize        : BitVec 16
  factTag       : List Byte
  factSizeLo    : BitVec 16
  factSizeHi    : BitVec 16
  sampleLenLo   : BitVec 16
  sampleLenHi   : BitVec 16
  dataTag       : List Byte
  dataLenLo     : BitVec 16
  dataLenHi     : BitVec 16
  trailer       : BitVec 16
  deriving DecidableEq, Repr

end Sys2Proof.Machine
end

