-- ==== Sys2Proof/Decode.lean ====
section
/-! DEFINITION. The command word (R70 to R73): the decoder, by the exact 8-bit match of the table of R71, and
after it the encoder, from the group and variant fields of R72. -/

namespace Sys2Proof

open Sys2Proof.Machine

/-- A row of the command table: a code matches when its bits under `mask` are `pattern`. -/
structure OpcodeRow where
  mask    : Byte
  pattern : Byte
  instr   : Instr
  deriving DecidableEq, Repr

/-- The table of R71. Every row has mask 0xFF (R72). -/
def opcodeTable : List OpcodeRow :=
  [⟨0xFF, 0x10, .alawEnc⟩, ⟨0xFF, 0x11, .ulawEnc⟩, ⟨0xFF, 0x12, .alawDec⟩, ⟨0xFF, 0x13, .ulawDec⟩,
   ⟨0xFF, 0x20, .codecAlawEnc⟩, ⟨0xFF, 0x21, .codecUlawEnc⟩, ⟨0xFF, 0x22, .codecAlawDec⟩,
   ⟨0xFF, 0x23, .codecUlawDec⟩,
   ⟨0xFF, 0x30, .convPcmAlaw⟩, ⟨0xFF, 0x31, .convPcmUlaw⟩, ⟨0xFF, 0x32, .convG711Pcm⟩]

/-- Why a byte sequence holds no command. -/
inductive DecodeError where
  /-- One of the 245 reserved codes (R73). -/
  | reservedCode (c : Byte)
  /-- No byte at all. -/
  | noCode
  deriving DecidableEq, Repr

/-- The command of an 8-bit code (R71), or the reserved code it is (R73). -/
def decode (c : Byte) : Except DecodeError Instr :=
  match opcodeTable.find? (fun r => c &&& r.mask == r.pattern) with
  | some r => .ok r.instr
  | none => .error (.reservedCode c)

/-- Decoding of any byte sequence: a command is one byte (R70), and the rest is handed back. -/
def decodeBytes : List Byte → Except DecodeError (Instr × List Byte)
  | [] => .error .noCode
  | c :: rest =>
    match decode c with
    | .ok i => .ok (i, rest)
    | .error e => .error e

/-- The `LAW` bit of R72: 0 is A-law, 1 is µ-law. -/
def lawBit : Law → BitVec 1
  | .A => 0
  | .U => 1

/-- The `DIR` bit of R72: 0 is encode, 1 is decode. -/
def dirBit : Dir → BitVec 1
  | .enc => 0
  | .dec => 1

/-- A code of group 1 or 2 (R72): `GRP`, two zero bits `V[3:2]`, `DIR = V[1]`, `LAW = V[0]`. -/
def lawCode (grp : BitVec 4) (dir : Dir) (law : Law) : Byte :=
  ((grp ++ (0 : BitVec 2)) ++ dirBit dir) ++ lawBit law

/-- A code of group 3 (R72): `SEL = V`. -/
def convCode (sel : BitVec 4) : Byte := (3 : BitVec 4) ++ sel

/-- The code of a command, from its fields (R72). -/
def encode : Instr → Byte
  | .alawEnc => lawCode 1 .enc .A
  | .ulawEnc => lawCode 1 .enc .U
  | .alawDec => lawCode 1 .dec .A
  | .ulawDec => lawCode 1 .dec .U
  | .codecAlawEnc => lawCode 2 .enc .A
  | .codecUlawEnc => lawCode 2 .enc .U
  | .codecAlawDec => lawCode 2 .dec .A
  | .codecUlawDec => lawCode 2 .dec .U
  | .convPcmAlaw => convCode 0
  | .convPcmUlaw => convCode 1
  | .convG711Pcm => convCode 2

/-- The bytes of a command: its one code (R70). -/
def encodeBytes (i : Instr) : List Byte := [encode i]

/-- The command the decoder reads from a table word of `nbits` bits, bit 0 the least significant bit of the
first byte. -/
def decodeTableWord (nbits w : Nat) : Option Instr :=
  match decodeBytes (leBytes (nbits / 8) w) with
  | .ok (i, _) => some i
  | .error _ => none

end Sys2Proof
end

