-- ==== Sys2Proof/Machine/CodecTables.lean ====
section
/-! DEFINITION. The four transforms (R100 to R106) and the four lookup-table ROMs they define (R34). A sample
is taken as an exact integer, computed with no width, and narrowed at the end (R8). -/

namespace Sys2Proof.Machine

/-- `CLIP`, the encoder magnitude clamp (R6). -/
def clip : Nat := 32635

/-- `ULAW_BIAS16`, the µ-law bias in 16-bit units: 33 × 4 (R6, 90 C3). -/
def ulawBias16 : Nat := 132

/-- `ALAW_MASK` (R6). -/
def alawMask : Nat := 0x55

/-- The number of binary digits of `m`, given at least that many rounds. -/
def bitlenAux : Nat → Nat → Nat
  | 0, _ => 0
  | fuel + 1, m => if m = 0 then 0 else bitlenAux fuel (m / 2) + 1

/-- `bitlen(m)` (R8): the number of bits of `m` in binary, 0 for 0. -/
def bitlen (m : Nat) : Nat := bitlenAux m m

/-- A-law encode (R103). -/
def alawEncode (x : Int) : Byte :=
  let sbit : Nat := if 0 ≤ x then 0x80 else 0x00
  let m : Nat := min x.natAbs clip
  let u7 : Nat :=
    if 256 ≤ m then
      let e := bitlen (m >>> 8)
      let q := (m >>> (e + 3)) &&& 0x0F
      (e <<< 4) ||| q
    else m >>> 4
  BitVec.ofNat 8 (u7 ^^^ (sbit ^^^ alawMask))

/-- µ-law encode (R104). -/
def ulawEncode (x : Int) : Byte :=
  let sbit : Nat := if x < 0 then 0x80 else 0x00
  let m : Nat := min x.natAbs clip + ulawBias16
  let e := bitlen (m >>> 7) - 1
  let q := (m >>> (e + 3)) &&& 0x0F
  BitVec.ofNat 8 (255 - (sbit ||| (e <<< 4) ||| q))

/-- Field `s` of an unmasked codeword (R76). -/
def codeSign (u : Byte) : Bool := u.getLsbD 7

/-- Field `e`, the segment, of an unmasked codeword (R76). -/
def codeSegment (u : Byte) : Nat := (u.extractLsb' 4 3).toNat

/-- Field `q`, the mantissa, of an unmasked codeword (R76). -/
def codeMantissa (u : Byte) : Nat := (u.extractLsb' 0 4).toNat

/-- A-law decode (R105). -/
def alawDecode (c : Byte) : Int :=
  let u := c ^^^ BitVec.ofNat 8 alawMask
  let e := codeSegment u
  let q := codeMantissa u
  let t : Nat := if e = 0 then (q <<< 4) + 8 else ((q <<< 4) + 0x108) <<< (e - 1)
  if codeSign u then (t : Int) else -(t : Int)

/-- µ-law decode (R106). `~c` on a codeword is `255 − c` (R8). -/
def ulawDecode (c : Byte) : Int :=
  let u := ~~~c
  let e := codeSegment u
  let q := codeMantissa u
  let t : Nat := ((q <<< 3) + ulawBias16) <<< e
  if codeSign u then (ulawBias16 : Int) - t else (t : Int) - ulawBias16

/-- ROM `ENC_A` (R34): `ENC_A[i] = alaw_encode(sext_16(i))`. -/
def encA (i : Sample) : Byte := alawEncode i.toInt

/-- ROM `ENC_U` (R34): `ENC_U[i] = ulaw_encode(sext_16(i))`. -/
def encU (i : Sample) : Byte := ulawEncode i.toInt

/-- ROM `DEC_A` (R34): `DEC_A[c] = u16(alaw_decode(c))`. -/
def decA (c : Byte) : Sample := BitVec.ofInt 16 (alawDecode c)

/-- ROM `DEC_U` (R34): `DEC_U[c] = u16(ulaw_decode(c))`. -/
def decU (c : Byte) : Sample := BitVec.ofInt 16 (ulawDecode c)

/-- The encode ROM of a law. -/
def encRom : Law → Sample → Byte
  | .A => encA
  | .U => encU

/-- The decode ROM of a law. -/
def decRom : Law → Byte → Sample
  | .A => decA
  | .U => decU

end Sys2Proof.Machine
end

