-- ==== Sys2Proof/Machine/State.lean ====
section
/-! DEFINITION. The state of one block with its host side, as plain data; the state at power-on (R35, R273);
and the reasons a step can stop. -/

namespace Sys2Proof.Machine

/-- Everything the spec gives the machine: the register port (R21), the sequencer's internal state (R31), the
host side the sequencer talks to (R55, R56, R75) and the refusal mark (R252), with the model's own fields
last. -/
structure State where
  /-- `STATE`, the sequencer's program counter (R24). -/
  seqState : SeqState
  /-- `ERR` (R25); `none` is code 0. -/
  err : Option ErrKind
  /-- `ACMD`, the last accepted command code; read as `CMD` (R22, R31). -/
  acmd : Byte
  /-- `PENDING` (R31). -/
  pending : Bool
  /-- `DIN` (R27). -/
  din : Sample
  /-- `DOUT` (R28). -/
  dout : Sample
  /-- `LEN` (R29). -/
  len : Word
  /-- `LAW` (R31). -/
  law : Option Law
  /-- `SRC_LIN` (R31). -/
  srcLin : Option LinearHeader
  /-- `SRC_CMP` (R31). -/
  srcCmp : Option CompandedHeader
  /-- `DST_LIN` (R31). -/
  dstLin : Option LinearHeader
  /-- `DST_CMP` (R31). -/
  dstCmp : Option CompandedHeader
  /-- `PLEN`, 0 to 2^32 − 1 (R31; `MachineInv.plen_lt`). -/
  plen : Nat
  /-- `IN_BUF` (R31). -/
  inBuf : List Byte
  /-- `OUT_BUF` (R31). -/
  outBuf : List Byte
  /-- `SRC`, the bytes of the byte source (R55). -/
  source : List Byte
  /-- The source cursor `p` (R55). -/
  cursor : Nat
  /-- The host is not answering `ReadExact` requests (R253, R283; 93 I12). -/
  sourceHeld : Bool
  /-- `SINK`, the bytes of the byte sink (R56). -/
  sink : List Byte
  /-- The host's answers to the coming `WriteAll` requests, in order (R56). -/
  answers : List WriteAnswer
  /-- The host program still to run (R75). -/
  script : List HostAction
  /-- The words the host's register reads returned, oldest first (R21). -/
  reads : List Word
  /-- The refusal mark (R252). -/
  refusalMark : Bool
  /-- `MAX_PAYLOAD_BYTES` (R6, R58): constant, never written by a step. -/
  maxPayloadBytes : Fin 4294967296
  /-- The model's own: how many short-read cursors have been drawn (log entry 4). -/
  freeDraws : Nat
  deriving DecidableEq, Repr

/-- The reasons a step is stuck. Both are raised by a command's meaning in a state no run reaches (`MachineInv`
excludes them), where the spec gives the sequencer no step at all. Safe. -/
inductive Fault where
  /-- Raised by a meaning: the command has no step in this `STATE` (R110, R146, R200). Safe. -/
  | noSuchStep
  /-- Raised by a conversion's meaning: the record or law an earlier step sets (R203, R204) is absent. Safe. -/
  | missingRecord
  deriving DecidableEq, Repr

/-- The reasons a step has no meaning. -/
inductive Refusal where
  /-- Raised by exec's arm of a command without a meaning yet. Safe. -/
  | notModelled (mnemonic : String)
  /-- Raised by `step`: `BUSY = 1` with a reserved code in `ACMD`, which acceptance excludes (R22). Safe. -/
  | reservedCommand (code : Byte)
  deriving DecidableEq, Repr

/-- The state at power-on (R35, R273): every item of block state zero, none or empty, the refusal mark clear,
the sink empty, the cursor 0. The source's bytes and the host program are the host's to choose, and are
empty here (log entry 5); the host answers its reads here (log entry 7); the parameter's value here is a DESIGN CHOICE no statement rests on (log entry 2),
and so is the draw counter's (log entry 4). -/
def State.reset : State where
  seqState := .idle
  err := none
  acmd := 0
  pending := false
  din := 0
  dout := 0
  len := 0
  law := none
  srcLin := none
  srcCmp := none
  dstLin := none
  dstCmp := none
  plen := 0
  inBuf := []
  outBuf := []
  source := []
  cursor := 0
  sourceHeld := false
  sink := []
  answers := []
  script := []
  reads := []
  refusalMark := false
  maxPayloadBytes := 4294967295
  freeDraws := 0

end Sys2Proof.Machine
end

