-- ==== Sys2Proof/Machine/Flags.lean ====
section
/-! DEFINITION. The status register: the encodings of `STATE` and `ERR`, `BUSY`, and the word `STATUS` reads
as (R23 to R26). Nothing stores STATUS: it is computed from the state. -/

namespace Sys2Proof.Machine

/-- The code of a sequencer state (R24). -/
def SeqState.code : SeqState → BitVec 3
  | .idle => 0
  | .headerRead => 1
  | .payloadRead => 2
  | .headerDerived => 3
  | .payloadTransformed => 4
  | .written => 5
  | .done => 6
  | .failed => 7

/-- `STATE ∈ {HeaderRead, PayloadRead, HeaderDerived, PayloadTransformed, Written}` (R26). -/
def SeqState.running : SeqState → Bool
  | .headerRead | .payloadRead | .headerDerived | .payloadTransformed | .written => true
  | .idle | .done | .failed => false

/-- The code of an error kind (R25). -/
def ErrKind.code : ErrKind → BitVec 3
  | .badMagic => 1
  | .truncatedHeader => 2
  | .shortRead => 3
  | .writeFailure => 4
  | .malformedPayload => 5
  | .unsupportedEncoding => 6

/-- The contents of the `ERR` field (R25): 0 is `None`. -/
def errCode : Option ErrKind → BitVec 3
  | none => 0
  | some e => e.code

/-- `BUSY` (R26). -/
def State.busy (s : State) : Bool := s.pending || s.seqState.running

/-- The word a read of `STATUS` returns (R23): bits 31:7 zero, `ERR` in 6:4, `BUSY` in 3, `STATE` in 2:0. -/
def State.statusWord (s : State) : Word :=
  (((0 : BitVec 25) ++ errCode s.err) ++ BitVec.ofBool s.busy) ++ s.seqState.code

end Sys2Proof.Machine
end

