-- ==== Sys2Proof/Machine/Operands.lean ====
section
/-! DEFINITION. Operand assembly for the commands (R74), and the registers as the port shows them: the offset
map, the access rights and the word each register reads as (R21). -/

namespace Sys2Proof.Machine

/-- The sample operand of an encode LUT command: the pattern `DIN[15:0]`, which indexes the encode ROM (R74,
R111). -/
def State.sampleOperand (s : State) : Sample := s.din

/-- The codeword operand of a decode LUT command: `DIN[7:0]`; `DIN[15:8]` is ignored (R74). -/
def State.codeOperand (s : State) : Byte := s.din.setWidth 8

/-- The byte count of a buffer command: `zext_32(LEN)` (R74). -/
def State.lenOperand (s : State) : Nat := s.len.toNat

/-- The register at a byte offset of the port (R21); every other offset has none. -/
def Reg.ofOffset : Nat → Option Reg
  | 0x00 => some .cmd
  | 0x04 => some .status
  | 0x08 => some .din
  | 0x0C => some .dout
  | 0x10 => some .len
  | _ => none

/-- The registers the host may write (R21). -/
def Reg.writable : Reg → Bool
  | .cmd | .din | .len => true
  | .status | .dout => false

/-- The word a read of a register returns: its value zero-extended to 32 bits (R21). -/
def State.regWord (s : State) : Reg → Word
  | .cmd => s.acmd.setWidth 32
  | .status => s.statusWord
  | .din => s.din.setWidth 32
  | .dout => s.dout.setWidth 32
  | .len => s.len

end Sys2Proof.Machine
end

