-- ==== Sys2Proof/WellFormed.lean ====
section
/-! DEFINITION. Well-formedness. A command carries no operand field (R70), so every `Instr` is well formed.
What a program may get wrong is a host action (R75): the checks are those R252 (a) and (c) refuse in every
state. -/

namespace Sys2Proof

open Sys2Proof.Machine

/-- Every command is well formed: it has no field that could be out of range (R70). -/
def Instr.wellFormed : Instr → Bool
  | .alawEnc | .ulawEnc | .alawDec | .ulawDec => true
  | .codecAlawEnc | .codecUlawEnc | .codecAlawDec | .codecUlawDec => true
  | .convPcmAlaw | .convPcmUlaw | .convG711Pcm => true

/-- A byte is the code of a command (R71), not a reserved one (R73). -/
def commandCode (c : Byte) : Bool :=
  match decode c with
  | .ok _ => true
  | .error _ => false

/-- A host action the block does not refuse in an idle state: a read at one of the five offsets, a write to a
writable one, and to `CMD` only a command's code (R21, R22, R252). -/
def Machine.HostAction.wellFormed : HostAction → Bool
  | .write off v =>
    match Reg.ofOffset off with
    | some .cmd => commandCode (v.setWidth 8)
    | some r => r.writable
    | none => false
  | .read off => (Reg.ofOffset off).isSome
  | .wait | .letStep | .source _ | .seek _ | .answer _ | .holdReads _ | .inspectSink | .reset => true

end Sys2Proof
end

