-- ==== Sys2Proof/Machine/Ops.lean ====
section
/-! DEFINITION. The operations the commands share: the failure entry and the ways out of it, refusal, the
byte source and sink, the internal buffers, the register port, reset. -/

namespace Sys2Proof.Machine

/-! ### Failure, refusal, acceptance, reset -/

/-- `raise E`, the failure entry (R246): the block's one exception entry. -/
def State.raise (s : State) (e : ErrKind) : State :=
  { s with err := some e, seqState := .failed }

/-- `refuse` (R252): no architectural state changes and the refusal mark is set. -/
def State.refuse (s : State) : State := { s with refusalMark := true }

/-- Acceptance of the command code `c` (R22, R31). With `State.resetBlock` it is one of the two ways out of
`Failed` (R248). -/
def State.accept (s : State) (c : Byte) : State :=
  { s with
    acmd := c, err := none, seqState := .idle, pending := true
    law := none, srcLin := none, srcCmp := none, dstLin := none, dstCmp := none
    plen := 0, inBuf := [], outBuf := [] }

/-- Reset (R270): every item of block state takes its reset value; the host side, the refusal mark (R271),
the parameter and the draw counter stay. -/
def State.resetBlock (s : State) : State :=
  { State.reset with
    source := s.source, cursor := s.cursor, sourceHeld := s.sourceHeld, sink := s.sink, answers := s.answers
    script := s.script, reads := s.reads
    refusalMark := s.refusalMark, maxPayloadBytes := s.maxPayloadBytes, freeDraws := s.freeDraws }

/-! ### The internal buffers -/

/-- The widths `MemRead` and `MemWrite` take, and the bounds of an access (R53). -/
def memAccessOk (B : List Byte) (off n : Nat) : Bool := (n == 1 || n == 2) && decide (off + n ≤ B.length)

/-- `MemRead(B[off], n)` (R53); `none` is an access the rule does not allow. -/
def memRead (B : List Byte) (off n : Nat) : Option Nat :=
  if memAccessOk B off n then some (leValue (slice B off n)) else none

/-- `MemWrite(B[off], n, v)` (R53), as the buffer after it; `none` is an access the rule does not allow. -/
def memWrite (B : List Byte) (off n v : Nat) : Option (List Byte) :=
  if memAccessOk B off n then some (B.take off ++ leBytes n v ++ B.drop (off + n)) else none

/-! ### The byte source and the byte sink -/

/-- The answer to a `ReadExact`, with the state after it; `waiting` when the host has not answered (R253,
R283). -/
inductive ReadResult where
  | bytes (r : List Byte) (s : State)
  | shortRead (s : State)
  | waiting
  deriving DecidableEq, Repr

/-- The cursor after a `ReadExact` that answered `ShortRead`: any of `p` to `|SRC|` (R55, 93 I1), taken from
the free value. -/
def shortReadCursor (draw p total : Nat) : Nat :=
  if total ≤ p then p else p + Config.shortReadAdvance draw % (total - p + 1)

/-- `ReadExact(n)` (R55): an answer, if the host gives one (R253). -/
def readExact (n : Nat) (s : State) : ReadResult :=
  if s.sourceHeld then .waiting
  else if s.cursor + n ≤ s.source.length then
    .bytes (slice s.source s.cursor n) { s with cursor := s.cursor + n }
  else
    .shortRead
      { s with
        cursor := shortReadCursor s.freeDraws s.cursor s.source.length
        freeDraws := s.freeDraws + 1 }

/-- The answer to a `WriteAll`, with the state after it; `waiting` when the host has not answered (R283). -/
inductive WriteResult where
  | ok (s : State)
  | writeFailure (s : State)
  | waiting
  deriving DecidableEq, Repr

/-- `WriteAll(bs)` (R56): the host's next answer decides, and on a failure says how long a prefix of `bs`
reached the sink. -/
def writeAll (bs : List Byte) (s : State) : WriteResult :=
  match s.answers with
  | [] => .waiting
  | .ok :: rest => .ok { s with answers := rest, sink := s.sink ++ bs }
  | .writeFailure k :: rest => .writeFailure { s with answers := rest, sink := s.sink ++ bs.take k }

/-! ### The register port -/

/-- A host read at a byte offset (R21): the word goes to the host, the block is unchanged (R57); an offset
without a register is refused (R252 c). -/
def State.portRead (s : State) (off : Nat) : State :=
  match Reg.ofOffset off with
  | some r => { s with reads := s.reads ++ [s.regWord r] }
  | none => s.refuse

/-- A host write to `CMD` (R22): accepted when the block is not busy and the code is a command's. -/
def State.writeCmd (s : State) (v : Word) : State :=
  if s.busy then s.refuse
  else
    match decode (v.setWidth 8) with
    | .ok _ => s.accept (v.setWidth 8)
    | .error _ => s.refuse

/-- A host write to `DIN` (R27): the low 16 bits, refused while busy (R281). -/
def State.writeDin (s : State) (v : Word) : State :=
  if s.busy then s.refuse else { s with din := v.setWidth 16 }

/-- A host write to `LEN` (R29): refused while busy (R281). -/
def State.writeLen (s : State) (v : Word) : State :=
  if s.busy then s.refuse else { s with len := v }

/-- A host write at a byte offset (R21): read-only registers and other offsets are refused (R252 c). -/
def State.portWrite (s : State) (off : Nat) (v : Word) : State :=
  match Reg.ofOffset off with
  | some .cmd => s.writeCmd v
  | some .din => s.writeDin v
  | some .len => s.writeLen v
  | some .status | some .dout => s.refuse
  | none => s.refuse

/-! ### Command outcomes -/

/-- The outcome of a step in a command. -/
abbrev StepOutcome := Host.Outcome State Fault Refusal

end Sys2Proof.Machine
end

