-- ==== Sys2Proof/Machine/SampleCodec.lean ====
section
/-! DEFINITION. The Sample Codec (R140 to R143): one transform mapped over a byte buffer, element by element
through `MemRead` and `MemWrite`. -/

namespace Sys2Proof.Machine

/-- The result of `sample_codec`: the output buffer, the failure of R140, or the out-of-bounds access R252 (e)
refuses, which no call reaches. -/
inductive CodecResult where
  | output (O : List Byte)
  | malformedPayload
  | outOfBounds
  deriving DecidableEq, Repr

/-- The loop of R140 over elements `k` to `k + n − 1`: element `k` of width `wIn` is read, transformed and
written as element `k` of width `wOut`. `none` is an access out of bounds. -/
def codecLoop (wIn wOut : Nat) (f : Nat → Nat) (B : List Byte) : Nat → Nat → List Byte → Option (List Byte)
  | 0, _, O => some O
  | n + 1, k, O =>
    match memRead B (wIn * k) wIn with
    | none => none
    | some v =>
      match memWrite O (wOut * k) wOut (f v) with
      | none => none
      | some O' => codecLoop wIn wOut f B n (k + 1) O'

/-- The encode of one element: a 16-bit little-endian sample to its codeword (R140). -/
def encElement (law : Law) (v : Nat) : Nat := (encRom law (BitVec.ofNat 16 v)).toNat

/-- The decode of one element: a codeword to the 16-bit pattern of its sample (R140). -/
def decElement (law : Law) (v : Nat) : Nat := (decRom law (BitVec.ofNat 8 v)).toNat

/-- A finished loop as a codec result. -/
def CodecResult.ofLoop : Option (List Byte) → CodecResult
  | some O => .output O
  | none => .outOfBounds

/-- `sample_codec(law, dir, B)` (R140). -/
def sampleCodec (law : Law) (dir : Dir) (B : List Byte) : CodecResult :=
  match dir with
  | .enc =>
    if B.length % 2 ≠ 0 then .malformedPayload
    else
      let N := B.length / 2
      .ofLoop (codecLoop 2 1 (encElement law) B N 0 (List.replicate N 0))
  | .dec =>
    let N := B.length
    .ofLoop (codecLoop 1 2 (decElement law) B N 0 (List.replicate (2 * N) 0))

end Sys2Proof.Machine
end

