-- ==== Sys2Proof/Machine/Stages.lean ====
section
/-! DEFINITION. The sequencer steps that the buffer commands (R146) and the conversions (R203 to R206)
share. -/

namespace Sys2Proof.Machine

/-- The payload read (R146 step Idle, R204): `ReadExact(PLEN)` into `IN_BUF`. With no answer yet no step is
taken (R253, R283). `s` is the state the step began in and `s'` the state it has reached. -/
def readPayload (n : Nat) (s s' : State) : StepOutcome :=
  match readExact n s' with
  | .bytes r t => .next { t with inBuf := r, seqState := .payloadRead }
  | .shortRead t => .next (t.raise .shortRead)
  | .waiting => .next s

/-- The Sample Codec step (R146 step PayloadRead, R206 step HeaderDerived). -/
def transformStep (law : Law) (dir : Dir) (s : State) : StepOutcome :=
  match sampleCodec law dir s.inBuf with
  | .output O => .next { s with outBuf := O, seqState := .payloadTransformed }
  | .malformedPayload => .next (s.raise .malformedPayload)
  | .outOfBounds => .next s.refuse

/-- A `WriteAll` of `bs` that ends a step: on `ok` the step's next state is entered, on `WriteFailure` the
error is raised, and with no answer yet no step is taken (R56, R283). `s` is the state the step began in and
`s'` the state it has reached. -/
def emit (bs : List Byte) (onOk : SeqState) (s s' : State) : StepOutcome :=
  match writeAll bs s' with
  | .ok t => .next { t with seqState := onOk }
  | .writeFailure t => .next (t.raise .writeFailure)
  | .waiting => .next s

/-- The payload write (R146 and R206, step PayloadTransformed). -/
def emitPayload (s : State) : StepOutcome := emit s.outBuf .written s s

/-- Completion (R146 and R206, step Written). At the end of a run 93 I11 lets the internal records and buffers be
any value (R286); that they keep what the earlier steps left is the model's choice (DESIGN CHOICE, log entry
16). -/
def finishStep (s : State) : StepOutcome := .next { s with seqState := .done }

end Sys2Proof.Machine
end

