-- ==== Sys2Proof/Machine/BufferCommands.lean ====
section
/-! DEFINITION. The buffer commands 0x20 to 0x23 (R146 to R150). -/

namespace Sys2Proof.Machine

/-- The first step of a buffer command (R146 step Idle): parity, then capacity, then the read. A refusal
or a read without an answer takes no part of the step. -/
def bufferFirstStep (law : Law) (dir : Dir) (s : State) : StepOutcome :=
  let n := s.lenOperand
  let s' := { s with pending := false, law := some law, plen := n }
  if dir = .enc ∧ n % 2 ≠ 0 then .next (s'.raise .malformedPayload)
  else if s.maxPayloadBytes.val < n then .next s.refuse
  else readPayload n s s'

/-- The steps of a buffer command (R146). It never enters `HeaderRead` or `HeaderDerived`. -/
def bufferCommand (law : Law) (dir : Dir) (s : State) : StepOutcome :=
  match s.seqState with
  | .idle => if s.pending then bufferFirstStep law dir s else .fault .noSuchStep
  | .payloadRead => transformStep law dir s
  | .payloadTransformed => emitPayload s
  | .written => finishStep s
  | .headerRead | .headerDerived | .done | .failed => .fault .noSuchStep

/-- `CODEC_ALAW_ENC` (R147). -/
def execCodecAlawEnc (s : State) : StepOutcome := bufferCommand .A .enc s

/-- `CODEC_ULAW_ENC` (R148). -/
def execCodecUlawEnc (s : State) : StepOutcome := bufferCommand .U .enc s

/-- `CODEC_ALAW_DEC` (R149). -/
def execCodecAlawDec (s : State) : StepOutcome := bufferCommand .A .dec s

/-- `CODEC_ULAW_DEC` (R150). -/
def execCodecUlawDec (s : State) : StepOutcome := bufferCommand .U .dec s

end Sys2Proof.Machine
end

