-- ==== Sys2Proof/Machine/HeaderModel.lean ====
section
/-! DEFINITION. The Header Model (R160 to R173): parsing, validation, derivation and serialization of the two
header records, as pure functions. -/

namespace Sys2Proof.Machine

/-! ### Sizes, tags and format tags (R6, R79, R83) -/

/-- `LIN_HDR_BYTES`. -/
def linHdrBytes : Nat := 44

/-- `CMP_HDR_BYTES`. -/
def cmpHdrBytes : Nat := 58

/-- `FMT_PCM`. -/
def fmtPcm : BitVec 16 := 1

/-- `FMT_ALAW` and `FMT_ULAW`. -/
def fmtOfLaw : Law → BitVec 16
  | .A => 6
  | .U => 7

/-- `ascii("RIFF")`. -/
def tagRiff : List Byte := [0x52, 0x49, 0x46, 0x46]

/-- `ascii("WAVEfmt ")`. -/
def tagWaveFmt : List Byte := [0x57, 0x41, 0x56, 0x45, 0x66, 0x6D, 0x74, 0x20]

/-- `ascii("fact")`. -/
def tagFact : List Byte := [0x66, 0x61, 0x63, 0x74]

/-- `ascii("data")`. -/
def tagData : List Byte := [0x64, 0x61, 0x74, 0x61]

/-- The record's `trailer` value (R82). -/
def trailerValue : BitVec 16 := 0xFFFF

/-- `2^32 − 1`, the largest value of a 32-bit field. -/
def maxField32 : Nat := 4294967295

/-! ### Parsing -/

/-- The record a 44-byte sequence holds, before the tag check (R162, layout R80). -/
def linFields (H : List Byte) : LinearHeader where
  riffTag := slice H 0 4
  fileSize := le32 H 4
  waveFmtTag := slice H 8 8
  fmtSize := le32 H 16
  formatTag := le16 H 20
  channels := le16 H 22
  sampleRate := le32 H 24
  byteRate := le32 H 28
  frameBytes := le16 H 32
  bitsPerSample := le16 H 34
  dataTag := slice H 36 4
  dataLen := le32 H 40

/-- The tags a LinearHeader must carry (R163). -/
def LinearHeader.tagsOk (h : LinearHeader) : Bool :=
  h.riffTag == tagRiff && h.waveFmtTag == tagWaveFmt && h.dataTag == tagData

/-- `parse_lin` (R162). -/
def parseLin (H : List Byte) : Except ErrKind LinearHeader :=
  if (linFields H).tagsOk then .ok (linFields H) else .error .badMagic

/-- The record a 58-byte sequence holds, before the tag check (R164, layout R81). -/
def cmpFields (H : List Byte) : CompandedHeader where
  riffTag := slice H 0 4
  fileSize := le32 H 4
  waveFmtTag := slice H 8 8
  fmtSize := le32 H 16
  formatTag := le16 H 20
  channels := le16 H 22
  sampleRate := le32 H 24
  byteRate := le32 H 28
  blockAlign := le16 H 32
  bitsPerSample := le16 H 34
  cbSize := le16 H 36
  factTag := slice H 38 4
  factSizeLo := le16 H 42
  factSizeHi := le16 H 44
  sampleLenLo := le16 H 46
  sampleLenHi := le16 H 48
  dataTag := slice H 50 4
  dataLenLo := le16 H 54
  dataLenHi := le16 H 56
  trailer := trailerValue

/-- The tags a CompandedHeader must carry (R163). -/
def CompandedHeader.tagsOk (h : CompandedHeader) : Bool :=
  h.riffTag == tagRiff && h.waveFmtTag == tagWaveFmt && h.factTag == tagFact && h.dataTag == tagData

/-- `parse_cmp` (R164). -/
def parseCmp (H : List Byte) : Except ErrKind CompandedHeader :=
  if (cmpFields H).tagsOk then .ok (cmpFields H) else .error .badMagic

/-! ### Validation -/

/-- The value of a length split into a low and a high half (R52). -/
def splitLength (lo hi : BitVec 16) : Nat := lo.toNat + 65536 * hi.toNat

/-- The declared payload length `M` of a companded header (R166). -/
def CompandedHeader.payloadLength (h : CompandedHeader) : Nat := splitLength h.dataLenLo h.dataLenHi

/-- The sample length of a companded header's fact chunk (R166). -/
def CompandedHeader.sampleLength (h : CompandedHeader) : Nat := splitLength h.sampleLenLo h.sampleLenHi

/-- `validate_lin` (R165): the payload length `L`, or the first check that fails. -/
def validateLin (h : LinearHeader) : Except ErrKind Nat :=
  if h.formatTag ≠ fmtPcm then .error .unsupportedEncoding
  else if h.frameBytes = 0 then .error .unsupportedEncoding
  else if h.dataLen.toNat % 2 ≠ 0 then .error .malformedPayload
  else .ok h.dataLen.toNat

/-- The law of a companded format tag (R166, R167). -/
def lawOfFmt (tag : BitVec 16) : Option Law :=
  if tag = fmtOfLaw .A then some .A
  else if tag = fmtOfLaw .U then some .U
  else none

/-- `validate_cmp` (R166): the law and the payload length `M`, or the first check that fails. -/
def validateCmp (h : CompandedHeader) : Except ErrKind (Law × Nat) :=
  match lawOfFmt h.formatTag with
  | none => .error .unsupportedEncoding
  | some law =>
    if h.fileSize.toNat ≠ cmpHdrBytes + h.payloadLength then .error .malformedPayload
    else if h.sampleLength ≠ h.payloadLength then .error .malformedPayload
    else if maxField32 < linHdrBytes + 2 * h.payloadLength then .error .malformedPayload
    else .ok (law, h.payloadLength)

/-! ### Derivation -/

/-- `derive_l2c` (R168, R169, R170). -/
def deriveL2c (h : LinearHeader) (law : Law) : CompandedHeader :=
  let M := h.dataLen.toNat / 2
  { riffTag := tagRiff
    fileSize := BitVec.ofNat 32 (cmpHdrBytes + M)
    waveFmtTag := tagWaveFmt
    fmtSize := 18
    formatTag := fmtOfLaw law
    channels := h.channels
    sampleRate := h.sampleRate
    byteRate := BitVec.ofNat 32 (h.byteRate.toNat / h.frameBytes.toNat)
    blockAlign := 1
    bitsPerSample := 8
    cbSize := 0
    factTag := tagFact
    factSizeLo := 4
    factSizeHi := 0
    sampleLenLo := BitVec.ofNat 16 M
    sampleLenHi := BitVec.ofNat 16 (M / 65536)
    dataTag := tagData
    dataLenLo := BitVec.ofNat 16 M
    dataLenHi := BitVec.ofNat 16 (M / 65536)
    trailer := trailerValue }

/-- `derive_c2l` (R171). -/
def deriveC2l (h : CompandedHeader) : LinearHeader :=
  let M := h.payloadLength
  { riffTag := tagRiff
    fileSize := BitVec.ofNat 32 (linHdrBytes + 2 * M)
    waveFmtTag := tagWaveFmt
    fmtSize := 16
    formatTag := fmtPcm
    channels := h.channels
    sampleRate := h.sampleRate
    byteRate := BitVec.ofNat 32 (2 * h.byteRate.toNat)
    frameBytes := 2
    bitsPerSample := 16
    dataTag := tagData
    dataLen := BitVec.ofNat 32 (2 * M) }

/-! ### Serialization -/

/-- `ser_lin` (R172). -/
def serLin (k : LinearHeader) : List Byte :=
  k.riffTag ++ bytes32 k.fileSize ++ k.waveFmtTag ++ bytes32 k.fmtSize ++ bytes16 k.formatTag ++
  bytes16 k.channels ++ bytes32 k.sampleRate ++ bytes32 k.byteRate ++ bytes16 k.frameBytes ++
  bytes16 k.bitsPerSample ++ k.dataTag ++ bytes32 k.dataLen

/-- `ser_cmp` (R173): the trailer is not emitted (R82). -/
def serCmp (g : CompandedHeader) : List Byte :=
  g.riffTag ++ bytes32 g.fileSize ++ g.waveFmtTag ++ bytes32 g.fmtSize ++ bytes16 g.formatTag ++
  bytes16 g.channels ++ bytes32 g.sampleRate ++ bytes32 g.byteRate ++ bytes16 g.blockAlign ++
  bytes16 g.bitsPerSample ++ bytes16 g.cbSize ++ g.factTag ++ bytes16 g.factSizeLo ++
  bytes16 g.factSizeHi ++ bytes16 g.sampleLenLo ++ bytes16 g.sampleLenHi ++ g.dataTag ++
  bytes16 g.dataLenLo ++ bytes16 g.dataLenHi

end Sys2Proof.Machine
end

