-- ==== Sys2Proof/Machine/ConvCommands.lean ====
section
/-! DEFINITION. The conversions 0x30 to 0x32 (R200 to R212). -/

namespace Sys2Proof.Machine

/-- The step leaving `Idle` (R203): the header is read, parsed and tag-checked. A short header read raises
`TruncatedHeader` (R161); with no answer yet no step is taken (R253, R283). -/
def convReadHeader (kind : ConvKind) (s : State) : StepOutcome :=
  match kind with
  | .l2c law =>
    match readExact linHdrBytes { s with pending := false, law := some law } with
    | .waiting => .next s
    | .shortRead s' => .next (s'.raise .truncatedHeader)
    | .bytes r s' =>
      match parseLin r with
      | .error e => .next (s'.raise e)
      | .ok h => .next { s' with srcLin := some h, seqState := .headerRead }
  | .c2l =>
    match readExact cmpHdrBytes { s with pending := false } with
    | .waiting => .next s
    | .shortRead s' => .next (s'.raise .truncatedHeader)
    | .bytes r s' =>
      match parseCmp r with
      | .error e => .next (s'.raise e)
      | .ok h => .next { s' with srcCmp := some h, seqState := .headerRead }

/-- The end of the step leaving `HeaderRead` (R204): capacity (R58), then the payload read. A refusal takes no
part of the step (R252). -/
def convPayload (law : Option Law) (n : Nat) (s : State) : StepOutcome :=
  if s.maxPayloadBytes.val < n then .next s.refuse
  else readPayload n s { s with law := law, plen := n }

/-- The step leaving `HeaderRead` (R204): validation, then the payload. -/
def convReadPayload (kind : ConvKind) (s : State) : StepOutcome :=
  match kind with
  | .l2c _ =>
    match s.srcLin with
    | none => .fault .missingRecord
    | some h =>
      match validateLin h with
      | .error e => .next (s.raise e)
      | .ok L => convPayload s.law L s
  | .c2l =>
    match s.srcCmp with
    | none => .fault .missingRecord
    | some h =>
      match validateCmp h with
      | .error e => .next (s.raise e)
      | .ok (law, M) => convPayload (some law) M s

/-- The step leaving `PayloadRead` (R205): the destination header is derived and emitted. -/
def convEmitHeader (kind : ConvKind) (s : State) : StepOutcome :=
  match kind with
  | .l2c _ =>
    match s.srcLin, s.law with
    | some h, some law =>
      let g := deriveL2c h law
      emit (serCmp g) .headerDerived s { s with dstCmp := some g }
    | _, _ => .fault .missingRecord
  | .c2l =>
    match s.srcCmp with
    | some h =>
      let k := deriveC2l h
      emit (serLin k) .headerDerived s { s with dstLin := some k }
    | none => .fault .missingRecord

/-- The direction of a conversion's codec step (R206). -/
def ConvKind.dir : ConvKind → Dir
  | .l2c _ => .enc
  | .c2l => .dec

/-- The step leaving `HeaderDerived` (R206). -/
def convTransform (kind : ConvKind) (s : State) : StepOutcome :=
  match s.law with
  | some law => transformStep law kind.dir s
  | none => .fault .missingRecord

/-- The steps of a conversion, one per state (R200). -/
def convCommand (kind : ConvKind) (s : State) : StepOutcome :=
  match s.seqState with
  | .idle => if s.pending then convReadHeader kind s else .fault .noSuchStep
  | .headerRead => convReadPayload kind s
  | .payloadRead => convEmitHeader kind s
  | .headerDerived => convTransform kind s
  | .payloadTransformed => emitPayload s
  | .written => finishStep s
  | .done | .failed => .fault .noSuchStep

/-- `CONV_PCM_ALAW` (R210). -/
def execConvPcmAlaw (s : State) : StepOutcome := convCommand (.l2c .A) s

/-- `CONV_PCM_ULAW` (R211). -/
def execConvPcmUlaw (s : State) : StepOutcome := convCommand (.l2c .U) s

/-- `CONV_G711_PCM` (R212). -/
def execConvG711Pcm (s : State) : StepOutcome := convCommand .c2l s

end Sys2Proof.Machine
end

