-- ==== Sys2Proof/Machine/LutCommands.lean ====
section
/-! DEFINITION. The LUT commands 0x10 to 0x13 (R110 to R114). -/

namespace Sys2Proof.Machine

/-- The one step of a LUT command (R110): `DOUT` takes the result and the command is done. At the end of a run 93
I11 lets the internal records and buffers be any value (R286); that they stay as acceptance left them is the
model's choice (DESIGN CHOICE, log entry 16). -/
def lutStep (result : Sample) (s : State) : StepOutcome :=
  if s.seqState = .idle ∧ s.pending = true then
    .next { s with pending := false, dout := result, seqState := .done }
  else .fault .noSuchStep

/-- `ALAW_ENC` (R111). -/
def execAlawEnc (s : State) : StepOutcome := lutStep ((encA s.sampleOperand).setWidth 16) s

/-- `ULAW_ENC` (R112). -/
def execUlawEnc (s : State) : StepOutcome := lutStep ((encU s.sampleOperand).setWidth 16) s

/-- `ALAW_DEC` (R113). -/
def execAlawDec (s : State) : StepOutcome := lutStep (decA s.codeOperand) s

/-- `ULAW_DEC` (R114). -/
def execUlawDec (s : State) : StepOutcome := lutStep (decU s.codeOperand) s

end Sys2Proof.Machine
end

