-- ==== Sys2Proof/Machine/Dispatch.lean ====
section
/-! DEFINITION. One sequencer step of a command: each command calls its own meaning. -/

namespace Sys2Proof.Machine

/-- The next sequencer step of command `i` in state `s` (R6 `STEP`, R20). -/
def exec (i : Instr) (s : State) : Host.Outcome State Fault Refusal :=
  match i with
  -- LUT commands
  | .alawEnc => Sys2Proof.Machine.execAlawEnc s
  | .ulawEnc => Sys2Proof.Machine.execUlawEnc s
  | .alawDec => Sys2Proof.Machine.execAlawDec s
  | .ulawDec => Sys2Proof.Machine.execUlawDec s
  -- buffer commands
  | .codecAlawEnc => Sys2Proof.Machine.execCodecAlawEnc s
  | .codecUlawEnc => Sys2Proof.Machine.execCodecUlawEnc s
  | .codecAlawDec => Sys2Proof.Machine.execCodecAlawDec s
  | .codecUlawDec => Sys2Proof.Machine.execCodecUlawDec s
  -- conversions
  | .convPcmAlaw => Sys2Proof.Machine.execConvPcmAlaw s
  | .convPcmUlaw => Sys2Proof.Machine.execConvPcmUlaw s
  | .convG711Pcm => Sys2Proof.Machine.execConvG711Pcm s

end Sys2Proof.Machine
end

