-- ==== Sys2Proof/Machine/Sequencer.lean ====
section
/-! DEFINITION. Who moves, and how: the sequencer's move (R20, R24) and the host's (R75, R283). The host
program in State says which of the two moves next, so every interleaving the spec allows is some program. -/

namespace Sys2Proof.Machine

/-- One step of the command in `ACMD`. A reserved code there is excluded by acceptance (R22). -/
def sequencerStep (s : State) : StepOutcome :=
  match decode s.acmd with
  | .ok i => exec i s
  | .error _ => .refused (.reservedCommand s.acmd)

/-- The sequencer's turn: a step while `BUSY = 1`, nothing otherwise (R26). -/
def sequencerTurn (s : State) : StepOutcome :=
  if s.busy then sequencerStep s else .next s

/-- The host takes action `a`; `s` is the state with `a` removed from the program. `WAIT` keeps polling, and
so stays in the program, while `BUSY = 1` (R75); a poll has no side effect (R57), and meanwhile the sequencer
steps. -/
def hostAction (a : HostAction) (s : State) : StepOutcome :=
  match a with
  | .write off v => .next (s.portWrite off v)
  | .read off => .next (s.portRead off)
  | .wait => if s.busy then sequencerStep { s with script := .wait :: s.script } else .next s
  | .letStep => sequencerTurn s
  | .source bytes => .next { s with source := s.source ++ bytes }
  | .seek p => .next { s with cursor := min p s.source.length }
  | .answer w => .next { s with answers := s.answers ++ [w] }
  | .holdReads held => .next { s with sourceHeld := held }
  | .inspectSink => .next s
  | .reset => .next s.resetBlock

/-- One move of the model: the host's next action, or the sequencer's turn when the program is over. A refused
request is no move of the block, so the run goes on with the mark set (R252); no claim may use it (log entry
1). -/
def nextMove (s : State) : StepOutcome :=
  match s.script with
  | [] => sequencerTurn s
  | a :: rest => hostAction a { s with script := rest }

/-- `s` with the command code `c` accepted (R22) and the very next move the sequencer's: the host program, if
any, first lets the sequencer step. -/
def State.loadCommand (s : State) (c : Byte) : State :=
  { s.accept c with
    script :=
      match s.script with
      | [] => []
      | a :: rest => .letStep :: a :: rest }

end Sys2Proof.Machine
end

