-- ==== Sys2Proof/Machine/Step.lean ====
section
/-! DEFINITION. The step of the model, and the state in which the next step runs a given command. -/

namespace Sys2Proof.Machine

/-- One step: one sequencer transition or one host action (R6 `STEP`, D30). -/
def step (s : State) : Host.Outcome State Fault Refusal := nextMove s

/-- `s` with a command word placed where the sequencer takes its next command from: the block fetches
nothing (R63), so this stands for the acceptance of the code written to `CMD[7:0]` (R22). -/
def State.withFetchWord (s : State) (_nbits w : Nat) : State := s.loadCommand (BitVec.ofNat 8 w)

end Sys2Proof.Machine
end

