-- ==== Sys2Proof/Safety.lean ====
section
/-! DEFINITION. The terms claims are made in: what class a command is of, what a later step of a command needs
from the earlier ones, the invariant of the state, and what a run's end lets a claim read (R286). -/

namespace Sys2Proof.Machine

/-- The class of a command, with the fields its code gives it (R72, R200). -/
inductive CommandClass where
  | lut
  | buffer (law : Law) (dir : Dir)
  | conv (kind : ConvKind)
  deriving DecidableEq, Repr

/-- The class of each command (R71). -/
def commandClass : Instr → CommandClass
  | .alawEnc | .ulawEnc | .alawDec | .ulawDec => .lut
  | .codecAlawEnc => .buffer .A .enc
  | .codecUlawEnc => .buffer .U .enc
  | .codecAlawDec => .buffer .A .dec
  | .codecUlawDec => .buffer .U .dec
  | .convPcmAlaw => .conv (.l2c .A)
  | .convPcmUlaw => .conv (.l2c .U)
  | .convG711Pcm => .conv .c2l

/-- The output length of the Sample Codec for an input of `n` bytes (R142). -/
def codecLength : Dir → Nat → Nat
  | .enc, n => n / 2
  | .dec, n => 2 * n

/-- `IN_BUF` holds a whole payload of `PLEN` bytes, which `dir` can split into elements (R54, R202). -/
def PayloadStaged (dir : Dir) (s : State) : Prop :=
  s.inBuf.length = s.plen ∧ (dir = .enc → s.plen % 2 = 0)

/-- The source header of a conversion has been read, and its tags checked (R203). -/
def HeaderStaged : ConvKind → State → Prop
  | .l2c law, s => s.law = some law ∧ ∃ h, s.srcLin = some h ∧ h.tagsOk = true
  | .c2l, s => ∃ h, s.srcCmp = some h ∧ h.tagsOk = true

/-- The source header of a conversion has been validated, with `PLEN` its payload length (R204). -/
def Validated : ConvKind → State → Prop
  | .l2c law, s => s.law = some law ∧ ∃ h, s.srcLin = some h ∧ validateLin h = .ok s.plen
  | .c2l, s => ∃ h law, s.srcCmp = some h ∧ s.law = some law ∧ validateCmp h = .ok (law, s.plen)

/-- What a busy block holds for the next step of a command of a class: the state is on the command's path
(R110, R146, R200) and the earlier steps have left what the next needs. -/
def Staged : CommandClass → State → Prop
  | .lut, s => s.seqState = .idle
  | .buffer law dir, s =>
    match s.seqState with
    | .idle | .written => True
    | .payloadRead => s.law = some law ∧ PayloadStaged dir s
    | .payloadTransformed => s.outBuf.length = codecLength dir s.plen
    | .headerRead | .headerDerived | .done | .failed => False
  | .conv kind, s =>
    match s.seqState with
    | .idle | .written => True
    | .headerRead => HeaderStaged kind s
    | .payloadRead | .headerDerived => Validated kind s ∧ PayloadStaged kind.dir s
    | .payloadTransformed => s.outBuf.length = codecLength kind.dir s.plen
    | .done | .failed => False

/-- The invariant every step keeps. -/
structure MachineInv (s : State) : Prop where
  /-- The cursor stays within the byte source (R55). -/
  cursor_le : s.cursor ≤ s.source.length
  /-- `PLEN` is a 32-bit length (R31). -/
  plen_lt : s.plen < 4294967296
  /-- `IN_BUF` never holds more than `MAX_PAYLOAD_BYTES` bytes (R31, R58). -/
  inBuf_le : s.inBuf.length ≤ s.maxPayloadBytes.val
  /-- `ERR` is 0 unless `STATE = Failed`, and `Failed` carries an error (R23, R240). -/
  err_failed : s.err.isSome = true ↔ s.seqState = .failed
  /-- `PENDING` is set only before the first step (R31). -/
  pending_idle : s.pending = true → s.seqState = .idle
  /-- A busy block runs a command of R71 and is on that command's path. -/
  running : s.busy = true → ∃ i, decode s.acmd = .ok i ∧ Staged (commandClass i) s

/-- A run a claim may speak of: its refusal mark is clear (R252). -/
def State.claimable (s : State) : Bool := !s.refusalMark

/-- A run has ended: the host program is over and the block is not busy (R286). -/
def State.ended (s : State) : Bool := s.script.isEmpty && !s.busy

/-- All that may be said of the end of a run (R286): nothing internal is in it. -/
structure EndState where
  status      : Word
  din         : Sample
  dout        : Sample
  len         : Word
  acmd        : Byte
  sink        : List Byte
  cursor      : Nat
  refusalMark : Bool
  deriving DecidableEq, Repr

/-- The end state of a run (R286). -/
def State.endState (s : State) : EndState where
  status := s.statusWord
  din := s.din
  dout := s.dout
  len := s.len
  acmd := s.acmd
  sink := s.sink
  cursor := s.cursor
  refusalMark := s.refusalMark

end Sys2Proof.Machine
end

