-- ==== Sys2Proof/Certificates/Slice0/Obligations.lean ====
section
/-! DEFINITION. The statements for the provers, each a rule of the spec or what follows from several. -/

open Sys2Proof Sys2Proof.Machine

/-! ### Terms the statements share -/

/-- A command is accepted and its first step has not been taken (R26, R31). -/
def Statements.AtStart (s : State) : Prop := s.seqState = .idle ∧ s.pending = true

/-- The byte source holds at least `n` more bytes (R55). -/
def Statements.SourceHas (n : Nat) (s : State) : Prop := s.cursor + n ≤ s.source.length

/-- A sample is a 16-bit two's-complement value (R100). -/
def Statements.IsSample (x : Int) : Prop := -32768 ≤ x ∧ x ≤ 32767

/-- The encode transform of a law (R103, R104). -/
def Statements.encodeOf : Law → Int → Byte
  | .A => alawEncode
  | .U => ulawEncode

/-- The decode transform of a law (R105, R106). -/
def Statements.decodeOf : Law → Byte → Int
  | .A => alawDecode
  | .U => ulawDecode

/-- The quantization step of a codeword (R109 f): 16 in A-law segments 0 and 1, `16·2^(e−1)` above;
`8·2^e` for µ-law. -/
def Statements.quantStep : Law → Byte → Nat
  | .A, c =>
    let e := codeSegment (c ^^^ 0x55)
    if e ≤ 1 then 16 else 16 * 2 ^ (e - 1)
  | .U, c => 8 * 2 ^ codeSegment (~~~c)

/-- The state after a run of the block alone, with the sequencer having every turn. -/
def Statements.runsTo (k : Nat) (s t : State) : Prop := Host.Core.run Sys2Proof.core k s = .next t

/-- The sequencer has every turn of a run in which it runs command `i`: the refusal mark is clear, the host
program is over and `i` is in `ACMD`. -/
def Statements.SequencerAlone (i : Instr) (s : State) : Prop :=
  s.refusalMark = false ∧ s.script = [] ∧ decode s.acmd = .ok i

/-- The most sequencer steps a command of a class takes (R285). -/
def Statements.stepBound : CommandClass → Nat
  | .lut => 1
  | .buffer _ _ => 4
  | .conv _ => 6

/-- A step ended in the failure entry with error `e` (R246), and what every failure leaves alone: the registers,
the source's bytes and the rest of the host side but the cursor, the sink and its answers. Nothing is said of
the internal records (93 I11). -/
def Statements.FailsWith (e : ErrKind) (s t : State) : Prop :=
  t.seqState = .failed ∧ t.err = some e ∧ t.acmd = s.acmd ∧ t.din = s.din ∧ t.dout = s.dout ∧ t.len = s.len ∧
  t.source = s.source ∧ t.sourceHeld = s.sourceHeld ∧ t.script = s.script ∧ t.reads = s.reads ∧
  t.refusalMark = s.refusalMark ∧ t.maxPayloadBytes = s.maxPayloadBytes

/-- Command `i` is the one the block is running, in a state that meets the invariant. -/
def Statements.Running (i : Instr) (s : State) : Prop :=
  MachineInv s ∧ s.busy = true ∧ decode s.acmd = .ok i

/-- A host access the block refuses (R252 a, b, c). -/
def Statements.RefusedRequest (s : State) : HostAction → Prop
  | .write off v =>
    off ∉ [0x00, 0x08, 0x10] ∨ s.busy = true ∨ (off = 0x00 ∧ ∀ i, decode (v.setWidth 8) ≠ .ok i)
  | .read off => off ∉ [0x00, 0x04, 0x08, 0x0C, 0x10]
  | .wait | .letStep | .source _ | .seek _ | .answer _ | .holdReads _ | .inspectSink | .reset => False

/-- The next move is the sequencer's, in a busy block: the host program is over, or the host waits or lets the
sequencer step. -/
def Statements.SequencerMoves (s : State) : Prop :=
  s.busy = true ∧ (s.script = [] ∨ s.script.head? = some .wait ∨ s.script.head? = some .letStep)

/-- Command `i` is at the step that reads its payload, of `n` bytes, and the checks before the capacity check have
passed (R146, R204, R247). -/
def Statements.PayloadDue (i : Instr) (s : State) (n : Nat) : Prop :=
  (∃ law dir, commandClass i = .buffer law dir ∧ s.seqState = .idle ∧ n = s.len.toNat ∧
    (dir = .enc → n % 2 = 0)) ∨
  (∃ law h, commandClass i = .conv (.l2c law) ∧ s.seqState = .headerRead ∧ s.srcLin = some h ∧
    validateLin h = .ok n) ∨
  (∃ h law, commandClass i = .conv .c2l ∧ s.seqState = .headerRead ∧ s.srcCmp = some h ∧
    validateCmp h = .ok (law, n))

/-- Command `i` is at the step that reads its payload, and the payload's length exceeds `MAX_PAYLOAD_BYTES`
(R252 d, R58). -/
def Statements.BeyondCapacity (i : Instr) (s : State) : Prop :=
  ∃ n, PayloadDue i s n ∧ s.maxPayloadBytes.val < n

/-- The next step of command `i` makes a `ReadExact` request: of a conversion's header, or of a payload within
`MAX_PAYLOAD_BYTES` (R57, R203, R204, R146). -/
def Statements.RequestsRead (i : Instr) (s : State) : Prop :=
  (∃ kind, commandClass i = .conv kind ∧ s.seqState = .idle) ∨
  (∃ n, PayloadDue i s n ∧ n ≤ s.maxPayloadBytes.val)

/-- The next step of command `i` makes a `WriteAll` request: of a conversion's header, or of a payload (R57, R205,
R206, R146). -/
def Statements.RequestsWrite (i : Instr) (s : State) : Prop :=
  (∃ kind, commandClass i = .conv kind ∧ s.seqState = .payloadRead) ∨
  (commandClass i ≠ .lut ∧ s.seqState = .payloadTransformed)

/-- The sequencer waits for the host: the request of the next step has no answer (R253, R283). -/
def Statements.AwaitsHost (i : Instr) (s : State) : Prop :=
  (RequestsRead i s ∧ s.sourceHeld = true) ∨ (RequestsWrite i s ∧ s.answers = [])

open Statements

/-! ### Reset and the state's invariant -/

/-- R35: every reset value of the table, what the port then reads, and the ROM contents, which are not reset
state. -/
def Obligations.ResetStateHasEveryResetValue : Prop :=
  State.reset.seqState = .idle ∧ State.reset.err = none ∧ State.reset.busy = false ∧
  State.reset.acmd = 0x00 ∧ State.reset.pending = false ∧ State.reset.din = 0x0000 ∧
  State.reset.dout = 0x0000 ∧ State.reset.len = 0x00000000 ∧ State.reset.law = none ∧
  State.reset.srcLin = none ∧ State.reset.srcCmp = none ∧ State.reset.dstLin = none ∧
  State.reset.dstCmp = none ∧ State.reset.plen = 0 ∧ State.reset.inBuf = [] ∧ State.reset.outBuf = [] ∧
  (∀ r, State.reset.regWord r = 0) ∧
  (∀ i, encA i = alawEncode i.toInt) ∧ (∀ i, encU i = ulawEncode i.toInt) ∧
  (∀ c, decA c = BitVec.ofInt 16 (alawDecode c)) ∧ (∀ c, decU c = BitVec.ofInt 16 (ulawDecode c))

/-- The invariant holds at reset. -/
def Obligations.ResetSatisfiesInvariant : Prop := MachineInv State.reset

/-- Every step from a state that meets the invariant, reached by a run or not, keeps it. -/
def Obligations.EveryStepKeepsInvariant : Prop :=
  ∀ s t, MachineInv s → step s = .next t → MachineInv t

/-- The host action reset, at any time (while busy, and with the refusal mark set, too), sets every item of block
state (R270, R272), and leaves the source, its cursor, the sink and the refusal mark as they were (R271). That the
queue of planned answers survives it (log entry 3, DESIGN CHOICE), that the withholding of reads and the words
read do (log entry 7, DESIGN CHOICE), and that the rest of the host program stays (log entry 6, DESIGN CHOICE), is
the model's choice, not R271's. -/
def Obligations.HostResetSetsTheBlockAndNothingElse : Prop :=
  ∀ s rest, s.script = .reset :: rest →
    ∃ t, step s = .next t ∧
      t.seqState = .idle ∧ t.err = none ∧ t.acmd = 0 ∧ t.pending = false ∧ t.din = 0 ∧ t.dout = 0 ∧
      t.len = 0 ∧ t.law = none ∧ t.srcLin = none ∧ t.srcCmp = none ∧ t.dstLin = none ∧ t.dstCmp = none ∧
      t.plen = 0 ∧ t.inBuf = [] ∧ t.outBuf = [] ∧ t.busy = false ∧
      t.source = s.source ∧ t.cursor = s.cursor ∧ t.sourceHeld = s.sourceHeld ∧ t.sink = s.sink ∧
      t.answers = s.answers ∧ t.script = rest ∧ t.reads = s.reads ∧ t.refusalMark = s.refusalMark ∧
      t.maxPayloadBytes = s.maxPayloadBytes

/-! ### The register port -/

/-- R23: the fields of `STATUS`, `ERR` 0 unless `Failed`, and no write. -/
def Obligations.StatusFields : Prop :=
  (∀ s : State,
    s.statusWord.extractLsb' 0 3 = s.seqState.code ∧
    s.statusWord.getLsbD 3 = s.busy ∧
    s.statusWord.extractLsb' 4 3 = errCode s.err ∧
    (∀ k, 7 ≤ k → s.statusWord.getLsbD k = false)) ∧
  (∀ s, MachineInv s → s.seqState ≠ .failed → s.statusWord.extractLsb' 4 3 = 0) ∧
  (∀ (s : State) v, s.portWrite 0x04 v = { s with refusalMark := true })

/-- R26: `BUSY`. -/
def Obligations.BusyDefinition : Prop :=
  (∀ s : State, s.busy = true ↔
    s.pending = true ∨ s.seqState = .headerRead ∨ s.seqState = .payloadRead ∨ s.seqState = .headerDerived ∨
      s.seqState = .payloadTransformed ∨ s.seqState = .written) ∧
  (∀ s : State, s.seqState = .idle → s.pending = false → s.busy = false) ∧
  (∀ s, MachineInv s → s.seqState = .done ∨ s.seqState = .failed → s.busy = false)

/-- R25: the error codes; 7 is never produced. The state codes of R24 stand beside them. -/
def Obligations.StateAndErrorCodes : Prop :=
  errCode none = 0 ∧ errCode (some .badMagic) = 1 ∧ errCode (some .truncatedHeader) = 2 ∧
  errCode (some .shortRead) = 3 ∧ errCode (some .writeFailure) = 4 ∧
  errCode (some .malformedPayload) = 5 ∧ errCode (some .unsupportedEncoding) = 6 ∧
  (∀ e, errCode e ≠ 7) ∧
  SeqState.code .idle = 0 ∧ SeqState.code .headerRead = 1 ∧ SeqState.code .payloadRead = 2 ∧
  SeqState.code .headerDerived = 3 ∧ SeqState.code .payloadTransformed = 4 ∧ SeqState.code .written = 5 ∧
  SeqState.code .done = 6 ∧ SeqState.code .failed = 7

/-- R21, R57, R282: a register read at any time hands the host the register's word, zero-extended, and leaves
the block as it was; at any other offset it is refused. -/
def Obligations.RegisterReads : Prop :=
  ∀ s off rest, s.refusalMark = false → s.script = .read off :: rest →
    (off = 0x00 → step s = .next { s with script := rest, reads := s.reads ++ [s.acmd.setWidth 32] }) ∧
    (off = 0x04 → step s = .next { s with script := rest, reads := s.reads ++ [s.statusWord] }) ∧
    (off = 0x08 → step s = .next { s with script := rest, reads := s.reads ++ [s.din.setWidth 32] }) ∧
    (off = 0x0C → step s = .next { s with script := rest, reads := s.reads ++ [s.dout.setWidth 32] }) ∧
    (off = 0x10 → step s = .next { s with script := rest, reads := s.reads ++ [s.len] }) ∧
    (off ∉ [0x00, 0x04, 0x08, 0x0C, 0x10] →
      step s = .next { s with script := rest, refusalMark := true })

/-- R22: a `CMD` write is accepted exactly when the block is not busy and the code is one of the eleven; the
next step of the block is then the command's first; a refused write changes no state; a read returns the
code, 0 after reset. -/
def Obligations.CommandAcceptance : Prop :=
  (∀ s v rest i, s.refusalMark = false → s.script = .write 0x00 v :: rest →
    s.busy = false → decode (v.setWidth 8) = .ok i →
    ∃ t, step s = .next t ∧
      t = { s with
        acmd := v.setWidth 8, err := none, seqState := .idle, pending := true, law := none
        srcLin := none, srcCmp := none, dstLin := none, dstCmp := none, plen := 0
        inBuf := [], outBuf := [], script := rest } ∧
      sequencerTurn t = exec i t) ∧
  (∀ s v rest, s.refusalMark = false → s.script = .write 0x00 v :: rest →
    s.busy = true ∨ (∀ i, decode (v.setWidth 8) ≠ .ok i) →
    step s = .next { s with script := rest, refusalMark := true } ∧
    ({ s with script := rest, refusalMark := true } : State).statusWord = s.statusWord) ∧
  (∀ (s : State) v v', v.setWidth 8 = v'.setWidth 8 → s.portWrite 0x00 v = s.portWrite 0x00 v') ∧
  (∀ s : State, s.regWord .cmd = s.acmd.setWidth 32) ∧ State.reset.regWord .cmd = 0x00

/-- R31: nothing of a previous command survives an acceptance but the registers `DIN`, `DOUT`, `LEN` and the
host side: two quiet states that agree on those take the same step when a command is accepted. -/
def Obligations.AcceptanceForgetsThePreviousCommand : Prop :=
  ∀ (s₁ s₂ : State) v rest i, decode (v.setWidth 8) = .ok i →
    s₁.busy = false → s₂.busy = false → s₁.script = .write 0x00 v :: rest → s₂.script = s₁.script →
    s₁.refusalMark = s₂.refusalMark → s₁.din = s₂.din → s₁.dout = s₂.dout → s₁.len = s₂.len →
    s₁.source = s₂.source → s₁.cursor = s₂.cursor → s₁.sourceHeld = s₂.sourceHeld → s₁.sink = s₂.sink →
    s₁.answers = s₂.answers → s₁.reads = s₂.reads → s₁.maxPayloadBytes = s₂.maxPayloadBytes →
    s₁.freeDraws = s₂.freeDraws →
    step s₁ = step s₂

/-- R21, R27, R29, R281: a write to `DIN` keeps the low 16 bits and a write to `LEN` the whole word, and
nothing else changes; while busy both are refused. R252 (c): a write to `STATUS`, to `DOUT` or to an offset
outside the five is refused in every state. A refused write changes nothing but the refusal mark. -/
def Obligations.OtherRegisterWrites : Prop :=
  (∀ s v rest, s.refusalMark = false →
    (s.script = .write 0x08 v :: rest → s.busy = false →
      step s = .next { s with script := rest, din := v.setWidth 16 }) ∧
    (s.script = .write 0x10 v :: rest → s.busy = false →
      step s = .next { s with script := rest, len := v }) ∧
    (s.script = .write 0x08 v :: rest ∨ s.script = .write 0x10 v :: rest → s.busy = true →
      step s = .next { s with script := rest, refusalMark := true })) ∧
  (∀ s off v rest, s.refusalMark = false → s.script = .write off v :: rest → off ∉ [0x00, 0x08, 0x10] →
    step s = .next { s with script := rest, refusalMark := true })

/-! ### Decoding -/

/-- R71: the eleven codes, and no other, are commands. -/
def Obligations.CommandCodes : Prop :=
  decode 0x10 = .ok .alawEnc ∧ decode 0x11 = .ok .ulawEnc ∧ decode 0x12 = .ok .alawDec ∧
  decode 0x13 = .ok .ulawDec ∧ decode 0x20 = .ok .codecAlawEnc ∧ decode 0x21 = .ok .codecUlawEnc ∧
  decode 0x22 = .ok .codecAlawDec ∧ decode 0x23 = .ok .codecUlawDec ∧ decode 0x30 = .ok .convPcmAlaw ∧
  decode 0x31 = .ok .convPcmUlaw ∧ decode 0x32 = .ok .convG711Pcm ∧
  (∀ c i, decode c = .ok i →
    c ∈ [0x10, 0x11, 0x12, 0x13, 0x20, 0x21, 0x22, 0x23, 0x30, 0x31, (0x32 : Byte)])

/-- R70, R71, R72: every command's code decodes to it, no other code does, and the code's fields are the
command's: `GRP` its group, `LAW` and `DIR` in groups 1 and 2 with `V[3:2] = 0`, `SEL` in group 3. -/
def Obligations.CodeFieldsAgreeWithTheTable : Prop :=
  (∀ c i, decode c = .ok i ↔ c = encode i) ∧
  (∀ i rest, decodeBytes (encodeBytes i ++ rest) = .ok (i, rest)) ∧
  (∀ i law dir, commandClass i = .buffer law dir →
    (encode i).extractLsb' 4 4 = 2 ∧ (encode i).extractLsb' 2 2 = 0 ∧
    ((encode i).getLsbD 1 = true ↔ dir = .dec) ∧ ((encode i).getLsbD 0 = true ↔ law = .U)) ∧
  (∀ i, commandClass i = .lut → (encode i).extractLsb' 4 4 = 1 ∧ (encode i).extractLsb' 2 2 = 0 ∧
    ((encode i).getLsbD 1 = true ↔ i = .alawDec ∨ i = .ulawDec) ∧
    ((encode i).getLsbD 0 = true ↔ i = .ulawEnc ∨ i = .ulawDec)) ∧
  (∀ i kind, commandClass i = .conv kind → (encode i).extractLsb' 4 4 = 3 ∧
    (kind = .l2c .A ↔ (encode i).extractLsb' 0 4 = 0) ∧ (kind = .l2c .U ↔ (encode i).extractLsb' 0 4 = 1) ∧
    (kind = .c2l ↔ (encode i).extractLsb' 0 4 = 2))

/-- R73: 245 codes are reserved, among them the ranges the rule lists, and a `CMD` write of one is refused: no
state changes, `STATUS` keeps its value, and the refusal mark is set. -/
def Obligations.ReservedCodesAreRefused : Prop :=
  ((List.range 256).filter (fun n => !commandCode (BitVec.ofNat 8 n))).length = 245 ∧
  (∀ n, n ≤ 0x0F ∨ (0x14 ≤ n ∧ n ≤ 0x1F) ∨ (0x24 ≤ n ∧ n ≤ 0x2F) ∨ (0x33 ≤ n ∧ n ≤ 0x3F) ∨
    (0x40 ≤ n ∧ n ≤ 0xFF) → commandCode (BitVec.ofNat 8 n) = false) ∧
  (∀ s v rest, s.refusalMark = false → s.script = .write 0x00 v :: rest →
    commandCode (v.setWidth 8) = false →
    ∃ t, step s = .next t ∧ t = { s with script := rest, refusalMark := true } ∧ t.statusWord = s.statusWord)

/-- A step of a busy block that has the turn is `exec` of the command in `ACMD`. Who has the turn is the model's
choice (log entry 6, DESIGN CHOICE), not a rule's: the sequencer has it when no host action is left, when the
host program says `letStep`, and while the host waits, in which case `WAIT` stays in the program. A quiet block
that has the turn changes nothing, the internal records included (log entry 16, DESIGN CHOICE). -/
def Obligations.StepRunsTheAcceptedCommand : Prop :=
  (∀ s i, s.refusalMark = false → s.busy = true → decode s.acmd = .ok i →
    (s.script = [] → step s = exec i s) ∧
    (∀ rest, s.script = .letStep :: rest → step s = exec i { s with script := rest }) ∧
    (∀ rest, s.script = .wait :: rest → step s = exec i s)) ∧
  (∀ s, s.refusalMark = false → s.busy = false →
    (s.script = [] → step s = .next s) ∧
    (∀ rest, s.script = .letStep :: rest ∨ s.script = .wait :: rest → step s = .next { s with script := rest }))

/-- A command word placed by `withFetchWord` is what the very next step runs, from its first step, on the
registers and host side the state had. -/
def Obligations.FetchedCommandIsTheNextStep : Prop :=
  ∀ (s : State) i, ∃ t, t = s.accept (encode i) ∧
    step (s.withFetchWord 8 (encode i).toNat) = exec i t ∧ AtStart t

/-! ### The four transforms -/

/-- R109 (d): A-law is exact on codewords, hence idempotent on samples. -/
def Obligations.AlawIsExactOnCodewords : Prop :=
  (∀ c, alawEncode (alawDecode c) = c) ∧
  (∀ x, IsSample x → alawEncode (alawDecode (alawEncode x)) = alawEncode x)

/-- R109 (e): µ-law is exact on every codeword but 0x7F, hence idempotent on every sample but −3, −2, −1, where
it is not. -/
def Obligations.UlawIsExactOnCodewordsButOne : Prop :=
  (∀ c, c ≠ 0x7F → ulawEncode (ulawDecode c) = c) ∧ ulawEncode (ulawDecode 0x7F) = 0xFF ∧
  (∀ x, IsSample x →
    (ulawEncode (ulawDecode (ulawEncode x)) = ulawEncode x ↔ ¬ (-3 ≤ x ∧ x ≤ -1)))

/-- R109 (c): odd symmetry of both laws. -/
def Obligations.TransformsAreOdd : Prop :=
  ∀ law, (∀ x : Int, 1 ≤ x → x ≤ 32767 → encodeOf law (-x) = encodeOf law x ^^^ 0x80) ∧
    (∀ c, decodeOf law (c ^^^ 0x80) = -decodeOf law c)

/-- R109 (b): each encoder is monotone after decoding. -/
def Obligations.EncodersAreMonotoneAfterDecoding : Prop :=
  ∀ law x y, IsSample x → IsSample y → x ≤ y →
    decodeOf law (encodeOf law x) ≤ decodeOf law (encodeOf law y)

/-- R109 (a): for each codeword the samples that encode to it form one non-empty interval. -/
def Obligations.EachCodewordIsOneInterval : Prop :=
  ∀ law c, ∃ lo hi : Int, -32768 ≤ lo ∧ lo ≤ hi ∧ hi ≤ 32767 ∧
    ∀ x, IsSample x → (encodeOf law x = c ↔ lo ≤ x ∧ x ≤ hi)

/-- R109 (f): the quantization error, at most half a step up to the clamp, 512 at most there; above it at most
512 for A-law and 644 for µ-law, reached at −32768. -/
def Obligations.QuantizationError : Prop :=
  (∀ law x, -32635 ≤ x → x ≤ 32635 →
    2 * (decodeOf law (encodeOf law x) - x).natAbs ≤ quantStep law (encodeOf law x) ∧
    (decodeOf law (encodeOf law x) - x).natAbs ≤ 512) ∧
  (∀ x, IsSample x → (alawDecode (alawEncode x) - x).natAbs ≤ 512) ∧
  (∀ x, IsSample x → (ulawDecode (ulawEncode x) - x).natAbs ≤ 644) ∧
  (alawDecode (alawEncode (-32768)) - (-32768)).natAbs = 512 ∧
  (ulawDecode (ulawEncode (-32768)) - (-32768)).natAbs = 644

/-- R103, R104, R109 (g): the clamp makes every magnitude of 32635 or more one codeword a side, so that the most
negative sample neither overflows nor wraps. R34, R100: the decoders' ranges, so that no entry of a decode ROM
loses a bit: an entry read back as a 16-bit two's-complement number is the decoder's value. -/
def Obligations.ClampedExtremes : Prop :=
  (∀ law x, IsSample x → 32635 ≤ x → encodeOf law x = encodeOf law 32635) ∧
  (∀ law x, IsSample x → x ≤ -32635 → encodeOf law x = encodeOf law (-32635)) ∧
  alawEncode 32767 = 0xAA ∧ alawDecode 0xAA = 32256 ∧ alawEncode (-32768) = 0x2A ∧ alawDecode 0x2A = -32256 ∧
  ulawEncode 32767 = 0x80 ∧ ulawDecode 0x80 = 32124 ∧ ulawEncode (-32768) = 0x00 ∧ ulawDecode 0x00 = -32124 ∧
  (∀ c, -32256 ≤ alawDecode c ∧ alawDecode c ≤ 32256 ∧ (decA c).toInt = alawDecode c) ∧
  (∀ c, -32124 ≤ ulawDecode c ∧ ulawDecode c ≤ 32124 ∧ (decU c).toInt = ulawDecode c)

/-- R103, R104: the segment is the position of the leading bit, the "Equivalently" of R103 (`floor(log2 m) − 7`),
and never leaves 1 to 7 (A-law, `m ≥ 256`) or 0 to 7 (µ-law, after the bias). -/
def Obligations.SegmentIsTheLeadingBit : Prop :=
  (∀ m, 256 ≤ m → m ≤ 32635 →
    bitlen (m >>> 8) + 7 = Nat.log2 m ∧ 1 ≤ bitlen (m >>> 8) ∧ bitlen (m >>> 8) ≤ 7) ∧
  (∀ m, m ≤ 32635 → bitlen ((m + 132) >>> 7) = Nat.log2 (m + 132) - 6 ∧
    1 ≤ bitlen ((m + 132) >>> 7) ∧ bitlen ((m + 132) >>> 7) ≤ 8)

/-! ### LUT commands -/

/-- R111, R112: `ALAW_ENC` and `ULAW_ENC`, with the corner cases the rules list. That the internal records and
buffers, too, are as before where the run ends in `Done` is the model's choice (log entry 16, DESIGN CHOICE). -/
def Obligations.LutEncodeResults : Prop :=
  (∀ s, AtStart s → exec .alawEnc s = .next
    { s with pending := false, dout := (alawEncode s.din.toInt).setWidth 16, seqState := .done }) ∧
  (∀ s, AtStart s → exec .ulawEnc s = .next
    { s with pending := false, dout := (ulawEncode s.din.toInt).setWidth 16, seqState := .done }) ∧
  (∀ i s t, i = .alawEnc ∨ i = .ulawEnc → exec i s = .next t → t.dout.extractLsb' 8 8 = 0) ∧
  encode .alawEnc = 0x10 ∧ encode .ulawEnc = 0x11 ∧
  encA 0x8000 = 0x2A ∧ encA 0x7FFF = 0xAA ∧ encA 0x0000 = 0xD5 ∧ encA 0xFFFF = 0x55 ∧ encA 0x03E8 = 0xFA ∧
  encU 0x8000 = 0x00 ∧ encU 0x7FFF = 0x80 ∧ encU 0x0000 = 0xFF ∧ encU 0xFFFF = 0x7F ∧ encU 0x03E8 = 0xCE

/-- R113, R114: `ALAW_DEC` and `ULAW_DEC`, with the corner cases the rules list; `DIN[15:8]` is ignored. That the
internal records and buffers, too, are as before where the run ends in `Done` is the model's choice (log entry
16, DESIGN CHOICE). -/
def Obligations.LutDecodeResults : Prop :=
  (∀ s, AtStart s → exec .alawDec s = .next
    { s with pending := false, dout := BitVec.ofInt 16 (alawDecode (s.din.setWidth 8)), seqState := .done }) ∧
  (∀ s, AtStart s → exec .ulawDec s = .next
    { s with pending := false, dout := BitVec.ofInt 16 (ulawDecode (s.din.setWidth 8)), seqState := .done }) ∧
  encode .alawDec = 0x12 ∧ encode .ulawDec = 0x13 ∧
  decA 0x00 = 0xEA80 ∧ decA 0xFF = 0x0350 ∧ decA 0xAA = 0x7E00 ∧ decA 0x2A = 0x8200 ∧
  decA ((0xAB55 : Sample).setWidth 8) = 0xFFF8 ∧ decA 0xFA = 0x03F0 ∧
  decU 0x00 = 0x8284 ∧ decU 0x80 = 0x7D7C ∧ decU 0xFF = 0x0000 ∧ decU 0x7F = 0x0000 ∧ decU 0xCE = 0x03DC

/-- R110: a LUT command is accepted and takes exactly one step to `Done`: no byte is read or written, and it
cannot fail. The frame: nothing but `DOUT`, `PENDING` and `STATE` changes. That the internal records and buffers
stay as acceptance left them where the run ends in `Done` is the model's choice (log entry 16, DESIGN CHOICE:
R286 and 93 I11 leave them open), and so is that `letStep` gives the sequencer its step (log entry 6). -/
def Obligations.LutCommandTakesOneStep : Prop :=
  (∀ i s rest, commandClass i = .lut → s.refusalMark = false → s.busy = false →
    s.script = .write 0x00 ((encode i).setWidth 32) :: .letStep :: rest →
    ∃ r, runsTo 2 s
      { s.accept (encode i) with pending := false, dout := r, seqState := .done, script := rest }) ∧
  (∀ i s t, commandClass i = .lut → exec i s = .next t →
    AtStart s ∧ t = { s with pending := false, dout := t.dout, seqState := .done })

/-! ### Buffers and the Sample Codec -/

/-- R53: what `MemRead` and `MemWrite` do within bounds, and that no other access has a meaning. -/
def Obligations.BufferAccess : Prop :=
  (∀ (B : List Byte) off, off + 1 ≤ B.length → memRead B off 1 = some (B.getD off 0).toNat) ∧
  (∀ (B : List Byte) off, off + 2 ≤ B.length →
    memRead B off 2 = some ((B.getD off 0).toNat + 256 * (B.getD (off + 1) 0).toNat)) ∧
  (∀ (B : List Byte) off n v, n = 1 ∨ n = 2 → off + n ≤ B.length →
    ∃ B', memWrite B off n v = some B' ∧ B'.length = B.length ∧
      (∀ j, j < n → B'[off + j]? = some (BitVec.ofNat 8 (v >>> (8 * j)))) ∧
      (∀ a, a < off ∨ off + n ≤ a → B'[a]? = B[a]?)) ∧
  (∀ (B : List Byte) off n v, ¬ ((n = 1 ∨ n = 2) ∧ off + n ≤ B.length) →
    memRead B off n = none ∧ memWrite B off n v = none)

/-- R140, R142: the Sample Codec. Encoding an even number of bytes gives one codeword for each little-endian
sample, an odd number fails with `MalformedPayload`, and decoding gives one little-endian sample for each
codeword and never fails. Each output element depends on its own input element and the law alone (R141). -/
def Obligations.SampleCodecIsElementwise : Prop :=
  (∀ law B, B.length % 2 = 0 →
    ∃ O, sampleCodec law .enc B = .output O ∧ O.length = B.length / 2 ∧
      ∀ k, k < B.length / 2 → ∃ v, memRead B (2 * k) 2 = some v ∧
        memRead O k 1 = some (encodeOf law (BitVec.ofNat 16 v).toInt).toNat) ∧
  (∀ law B, B.length % 2 ≠ 0 → sampleCodec law .enc B = .malformedPayload) ∧
  (∀ law B, ∃ O, sampleCodec law .dec B = .output O ∧ O.length = 2 * B.length ∧
    ∀ k, k < B.length → ∃ c, memRead B k 1 = some c ∧
      memRead O (2 * k) 2 = some (BitVec.ofInt 16 (decodeOf law (BitVec.ofNat 8 c))).toNat)

/-! ### Buffer commands -/

/-- R146 step Idle: `CODEC_ALAW_ENC`, `CODEC_ULAW_ENC`, `CODEC_ALAW_DEC` and `CODEC_ULAW_DEC` read their payload:
the length is a whole number of elements, within `MAX_PAYLOAD_BYTES`, and in the source, and the host answers its
reads. -/
def Obligations.BufferCommandsReadTheirPayload : Prop :=
  ∀ i law dir s, commandClass i = .buffer law dir → AtStart s →
    (dir = .enc → s.len.toNat % 2 = 0) → s.len.toNat ≤ s.maxPayloadBytes.val → s.sourceHeld = false →
    SourceHas s.len.toNat s →
    exec i s = .next
      { s with
        pending := false, law := some law, plen := s.len.toNat
        cursor := s.cursor + s.len.toNat
        inBuf := (s.source.drop s.cursor).take s.len.toNat
        seqState := .payloadRead }

/-- R146 step Idle, R252 (d), R58: what stops a buffer command's first step, in the order of R247: an odd length
of an encode, then a length beyond `MAX_PAYLOAD_BYTES`, which takes no part of the step (`STATUS` stays as it
was), then a host that does not answer the read, for which the sequencer waits (R253, R283), then a short
source, whose cursor ends anywhere from where it was to the source's end. -/
def Obligations.BufferFirstStepFailures : Prop :=
  ∀ i law dir s, commandClass i = .buffer law dir → AtStart s →
    (dir = .enc → s.len.toNat % 2 = 1 →
      ∃ t, exec i s = .next t ∧ FailsWith .malformedPayload s t ∧ t.busy = false ∧
        t.cursor = s.cursor ∧ t.sink = s.sink ∧ t.answers = s.answers) ∧
    ((dir = .enc → s.len.toNat % 2 = 0) → s.maxPayloadBytes.val < s.len.toNat →
      exec i s = .next { s with refusalMark := true } ∧
        ({ s with refusalMark := true } : State).statusWord = s.statusWord) ∧
    ((dir = .enc → s.len.toNat % 2 = 0) → s.len.toNat ≤ s.maxPayloadBytes.val → s.sourceHeld = true →
      exec i s = .next s) ∧
    ((dir = .enc → s.len.toNat % 2 = 0) → s.len.toNat ≤ s.maxPayloadBytes.val → s.sourceHeld = false →
      ¬ SourceHas s.len.toNat s →
      ∃ t, exec i s = .next t ∧ FailsWith .shortRead s t ∧ t.busy = false ∧ s.cursor ≤ t.cursor ∧
        (s.cursor ≤ s.source.length → t.cursor ≤ s.source.length) ∧ t.sink = s.sink ∧ t.answers = s.answers)

/-- R146 step PayloadRead and R206 step HeaderDerived: the buffer commands `CODEC_ALAW_ENC`, `CODEC_ULAW_ENC`,
`CODEC_ALAW_DEC` and `CODEC_ULAW_DEC`, and the conversions `CONV_PCM_ALAW`, `CONV_PCM_ULAW` and `CONV_G711_PCM`,
transform `IN_BUF` into `OUT_BUF`; on a payload of a whole number of elements the step cannot fail (R202). -/
def Obligations.PayloadTransformation : Prop :=
  (∀ i law dir s, commandClass i = .buffer law dir → s.seqState = .payloadRead →
    (dir = .enc → s.inBuf.length % 2 = 0) →
    ∃ O, sampleCodec law dir s.inBuf = .output O ∧
      exec i s = .next { s with outBuf := O, seqState := .payloadTransformed }) ∧
  (∀ i kind s law, commandClass i = .conv kind → s.seqState = .headerDerived → s.law = some law →
    (kind.dir = .enc → s.inBuf.length % 2 = 0) →
    ∃ O, sampleCodec law kind.dir s.inBuf = .output O ∧
      exec i s = .next { s with outBuf := O, seqState := .payloadTransformed })

/-- R146 and R206, the last two steps of the seven commands that write a payload: `CODEC_ALAW_ENC`,
`CODEC_ULAW_ENC`, `CODEC_ALAW_DEC`, `CODEC_ULAW_DEC`, `CONV_PCM_ALAW`, `CONV_PCM_ULAW`, `CONV_G711_PCM`. The
host's answer decides the write (R56): `ok` appends the whole payload, `WriteFailure` a prefix of the host's
choice and fails the command, and without an answer the sequencer waits (R283). Then the command is done; that
the internal records and buffers stay where the run ends there is the model's choice (log entry 16, DESIGN
CHOICE). -/
def Obligations.PayloadWriteAndCompletion : Prop :=
  ∀ i s, commandClass i ≠ .lut →
    (∀ rest, s.seqState = .payloadTransformed → s.answers = .ok :: rest →
      exec i s = .next { s with answers := rest, sink := s.sink ++ s.outBuf, seqState := .written }) ∧
    (∀ k rest, s.seqState = .payloadTransformed → s.answers = .writeFailure k :: rest →
      ∃ t, exec i s = .next t ∧ FailsWith .writeFailure s t ∧ t.cursor = s.cursor ∧
        t.sink = s.sink ++ s.outBuf.take k ∧ t.answers = rest) ∧
    (s.seqState = .payloadTransformed → s.answers = [] → exec i s = .next s) ∧
    (s.seqState = .written → exec i s = .next { s with seqState := .done })

/-- R146 to R150: a whole buffer command, run by the sequencer alone from its first step with its payload in the
source, its read answered and the write answered `ok`, is done after four steps, having read `LEN` bytes and
appended the transformed payload to the sink. -/
def Obligations.BufferCommandEndToEnd : Prop :=
  ∀ i law dir s rest, commandClass i = .buffer law dir → SequencerAlone i s → AtStart s →
    (dir = .enc → s.len.toNat % 2 = 0) → s.len.toNat ≤ s.maxPayloadBytes.val → SourceHas s.len.toNat s →
    s.sourceHeld = false → s.answers = .ok :: rest →
    ∃ t O, sampleCodec law dir ((s.source.drop s.cursor).take s.len.toNat) = .output O ∧
      O.length = codecLength dir s.len.toNat ∧
      runsTo 4 s t ∧ t.seqState = .done ∧ t.err = s.err ∧ t.busy = false ∧
      t.sink = s.sink ++ O ∧ t.cursor = s.cursor + s.len.toNat ∧ t.source = s.source ∧ t.answers = rest ∧
      t.acmd = s.acmd ∧ t.din = s.din ∧ t.dout = s.dout ∧ t.len = s.len ∧ t.refusalMark = false

/-! ### The header model -/

/-- R160 to R164, R172, R173, R82: the linear header's 44-byte image and its record determine each other, and
so do the companded header's 58-byte image and its record but for the trailer, which is in no image and is
0xFFFF in every parsed record. -/
def Obligations.HeaderImagesRoundTrip : Prop :=
  (∀ h : LinearHeader, h.tagsOk = true → (serLin h).length = 44 ∧ parseLin (serLin h) = .ok h) ∧
  (∀ H h, H.length = 44 → parseLin H = .ok h → serLin h = H) ∧
  (∀ h : CompandedHeader, h.tagsOk = true →
    (serCmp h).length = 58 ∧ parseCmp (serCmp h) = .ok { h with trailer := 0xFFFF }) ∧
  (∀ H h, H.length = 58 → parseCmp H = .ok h → h.trailer = 0xFFFF ∧ serCmp h = H)

/-- R83, R163, R242: a parse fails exactly when a tag's bytes differ from their ASCII values, and then with
`BadMagic`, whatever the other fields hold. -/
def Obligations.ParseFailsOnlyOnTags : Prop :=
  (∀ H, (∃ h, parseLin H = .ok h) ↔
    (slice H 0 4 = [0x52, 0x49, 0x46, 0x46] ∧ slice H 8 8 = [0x57, 0x41, 0x56, 0x45, 0x66, 0x6D, 0x74, 0x20] ∧
      slice H 36 4 = [0x64, 0x61, 0x74, 0x61])) ∧
  (∀ H, (∃ h, parseCmp H = .ok h) ↔
    (slice H 0 4 = [0x52, 0x49, 0x46, 0x46] ∧ slice H 8 8 = [0x57, 0x41, 0x56, 0x45, 0x66, 0x6D, 0x74, 0x20] ∧
      slice H 38 4 = [0x66, 0x61, 0x63, 0x74] ∧ slice H 50 4 = [0x64, 0x61, 0x74, 0x61])) ∧
  (∀ H e, parseLin H = .error e ∨ parseCmp H = .error e → e = .badMagic)

/-- R165: `validate_lin`, its checks in order; no other field matters. -/
def Obligations.LinearValidation : Prop :=
  ∀ h : LinearHeader,
    (h.formatTag ≠ 1 → validateLin h = .error .unsupportedEncoding) ∧
    (h.formatTag = 1 → h.frameBytes = 0 → validateLin h = .error .unsupportedEncoding) ∧
    (h.formatTag = 1 → h.frameBytes ≠ 0 → h.dataLen.toNat % 2 ≠ 0 →
      validateLin h = .error .malformedPayload) ∧
    (h.formatTag = 1 → h.frameBytes ≠ 0 → h.dataLen.toNat % 2 = 0 → validateLin h = .ok h.dataLen.toNat)

/-- R166, R167: `validate_cmp`, its checks in order; the format tag alone picks the law. -/
def Obligations.CompandedValidation : Prop :=
  ∀ (h : CompandedHeader) (M : Nat), M = h.dataLenLo.toNat + 65536 * h.dataLenHi.toNat →
    (h.formatTag ≠ 6 → h.formatTag ≠ 7 → validateCmp h = .error .unsupportedEncoding) ∧
    (h.formatTag = 6 ∨ h.formatTag = 7 →
      (h.fileSize.toNat ≠ 58 + M ∨ h.sampleLenLo.toNat + 65536 * h.sampleLenHi.toNat ≠ M ∨
        44 + 2 * M > 2 ^ 32 - 1) → validateCmp h = .error .malformedPayload) ∧
    (h.fileSize.toNat = 58 + M → h.sampleLenLo.toNat + 65536 * h.sampleLenHi.toNat = M →
      44 + 2 * M ≤ 2 ^ 32 - 1 →
      (h.formatTag = 6 → validateCmp h = .ok (.A, M)) ∧ (h.formatTag = 7 → validateCmp h = .ok (.U, M)))

/-- R168, R169, R170: the derived companded header, each field as an exact number where the rule gives one. -/
def Obligations.CompandedDerivation : Prop :=
  ∀ (h : LinearHeader) law L, validateLin h = .ok L →
    (deriveL2c h law).riffTag = tagRiff ∧ (deriveL2c h law).waveFmtTag = tagWaveFmt ∧
    (deriveL2c h law).factTag = tagFact ∧ (deriveL2c h law).dataTag = tagData ∧
    (deriveL2c h law).fileSize.toNat = 58 + L / 2 ∧ (deriveL2c h law).fmtSize = 18 ∧
    (law = .A → (deriveL2c h law).formatTag = 6) ∧ (law = .U → (deriveL2c h law).formatTag = 7) ∧
    (deriveL2c h law).channels = h.channels ∧ (deriveL2c h law).sampleRate = h.sampleRate ∧
    (deriveL2c h law).byteRate.toNat = h.byteRate.toNat / h.frameBytes.toNat ∧
    (deriveL2c h law).blockAlign = 1 ∧ (deriveL2c h law).bitsPerSample = 8 ∧ (deriveL2c h law).cbSize = 0 ∧
    (deriveL2c h law).factSizeLo = 4 ∧ (deriveL2c h law).factSizeHi = 0 ∧
    (deriveL2c h law).sampleLenLo.toNat + 65536 * (deriveL2c h law).sampleLenHi.toNat = L / 2 ∧
    (deriveL2c h law).dataLenLo.toNat + 65536 * (deriveL2c h law).dataLenHi.toNat = L / 2 ∧
    (deriveL2c h law).dataLenHi.toNat ≤ 0x7FFF ∧ (deriveL2c h law).trailer = 0xFFFF

/-- R171: the derived linear header, each field as an exact number where the rule gives one; only the byte rate
wraps. -/
def Obligations.LinearDerivation : Prop :=
  ∀ (h : CompandedHeader) law M, validateCmp h = .ok (law, M) →
    (deriveC2l h).riffTag = tagRiff ∧ (deriveC2l h).waveFmtTag = tagWaveFmt ∧ (deriveC2l h).dataTag = tagData ∧
    (deriveC2l h).fileSize.toNat = 44 + 2 * M ∧ (deriveC2l h).fmtSize = 16 ∧ (deriveC2l h).formatTag = 1 ∧
    (deriveC2l h).channels = h.channels ∧ (deriveC2l h).sampleRate = h.sampleRate ∧
    (deriveC2l h).byteRate.toNat = 2 * h.byteRate.toNat % 2 ^ 32 ∧
    (deriveC2l h).frameBytes = 2 ∧ (deriveC2l h).bitsPerSample = 16 ∧ (deriveC2l h).dataLen.toNat = 2 * M

/-- R174 (d): the byte-rate invariant of the source header carries over to the derived one. -/
def Obligations.DerivedByteRates : Prop :=
  (∀ (h : LinearHeader) law L, validateLin h = .ok L →
    h.byteRate.toNat = h.sampleRate.toNat * h.frameBytes.toNat →
    (deriveL2c h law).byteRate = h.sampleRate ∧
    (deriveL2c h law).byteRate.toNat = (deriveL2c h law).sampleRate.toNat * (deriveL2c h law).blockAlign.toNat) ∧
  (∀ (h : CompandedHeader), h.byteRate = h.sampleRate → h.sampleRate.toNat < 2 ^ 31 →
    (deriveC2l h).byteRate.toNat = h.sampleRate.toNat * 2 ∧
    (deriveC2l h).byteRate.toNat = (deriveC2l h).sampleRate.toNat * (deriveC2l h).frameBytes.toNat)

/-- R174 (e), with the condition its sentence leaves out (log entry 9): a derived linear header validates with its
length, and a derived companded header validates exactly when the linear image of its payload would fit 32
bits again. -/
def Obligations.DerivedHeadersValidate : Prop :=
  (∀ (h : LinearHeader) law L, validateLin h = .ok L →
    (validateCmp (deriveL2c h law) = .ok (law, L / 2) ↔ 44 + L ≤ 2 ^ 32 - 1)) ∧
  (∀ (h : CompandedHeader) law M, validateCmp h = .ok (law, M) → validateLin (deriveC2l h) = .ok (2 * M))

/-! ### Conversions -/

/-- R203, R161, the step leaving `Idle`. `CONV_PCM_ALAW` and `CONV_PCM_ULAW` read 44 bytes and
`CONV_G711_PCM` 58; they enter `HeaderRead` with the parsed record, or fail with `BadMagic`, or, on a short
source, with `TruncatedHeader`; a read the host does not answer is waited for (R253, R283). -/
def Obligations.ConversionsReadTheirHeader : Prop :=
  (∀ i law s, commandClass i = .conv (.l2c law) → AtStart s →
    (s.sourceHeld = true → exec i s = .next s) ∧
    (∀ h, s.sourceHeld = false → SourceHas 44 s → parseLin ((s.source.drop s.cursor).take 44) = .ok h →
      exec i s = .next
        { s with
          pending := false, law := some law, cursor := s.cursor + 44, srcLin := some h
          seqState := .headerRead }) ∧
    (s.sourceHeld = false → SourceHas 44 s → parseLin ((s.source.drop s.cursor).take 44) = .error .badMagic →
      ∃ t, exec i s = .next t ∧ FailsWith .badMagic s t ∧ t.busy = false ∧ t.cursor = s.cursor + 44 ∧
        t.sink = s.sink ∧ t.answers = s.answers) ∧
    (s.sourceHeld = false → ¬ SourceHas 44 s →
      ∃ t, exec i s = .next t ∧ FailsWith .truncatedHeader s t ∧ t.busy = false ∧ s.cursor ≤ t.cursor ∧
        t.sink = s.sink ∧ t.answers = s.answers)) ∧
  (∀ s, AtStart s →
    (s.sourceHeld = true → exec .convG711Pcm s = .next s) ∧
    (∀ h, s.sourceHeld = false → SourceHas 58 s → parseCmp ((s.source.drop s.cursor).take 58) = .ok h →
      exec .convG711Pcm s = .next
        { s with
          pending := false, cursor := s.cursor + 58, srcCmp := some h, seqState := .headerRead }) ∧
    (s.sourceHeld = false → SourceHas 58 s → parseCmp ((s.source.drop s.cursor).take 58) = .error .badMagic →
      ∃ t, exec .convG711Pcm s = .next t ∧ FailsWith .badMagic s t ∧ t.busy = false ∧
        t.cursor = s.cursor + 58 ∧ t.sink = s.sink ∧ t.answers = s.answers) ∧
    (s.sourceHeld = false → ¬ SourceHas 58 s →
      ∃ t, exec .convG711Pcm s = .next t ∧ FailsWith .truncatedHeader s t ∧ t.busy = false ∧
        s.cursor ≤ t.cursor ∧ t.sink = s.sink ∧ t.answers = s.answers))

/-- R204, the step leaving `HeaderRead`, its checks in the order of R247: validation, capacity, payload.
`CONV_PCM_ALAW` and `CONV_PCM_ULAW` take the length from a linear header; `CONV_G711_PCM` takes the length and,
from the format tag, the law (R167) from a companded one. A payload read the host does not answer is waited for
(R253, R283). -/
def Obligations.ConversionsReadTheirPayload : Prop :=
  (∀ i law s h, commandClass i = .conv (.l2c law) → s.seqState = .headerRead → s.srcLin = some h →
    (∀ e, validateLin h = .error e →
      ∃ t, exec i s = .next t ∧ FailsWith e s t ∧ t.cursor = s.cursor ∧ t.sink = s.sink ∧
        t.answers = s.answers) ∧
    (∀ L, validateLin h = .ok L → s.maxPayloadBytes.val < L → exec i s = .next { s with refusalMark := true }) ∧
    (∀ L, validateLin h = .ok L → L ≤ s.maxPayloadBytes.val → s.sourceHeld = true → exec i s = .next s) ∧
    (∀ L, validateLin h = .ok L → L ≤ s.maxPayloadBytes.val → s.sourceHeld = false → ¬ SourceHas L s →
      ∃ t, exec i s = .next t ∧ FailsWith .shortRead s t ∧ s.cursor ≤ t.cursor ∧ t.sink = s.sink ∧
        t.answers = s.answers) ∧
    (∀ L, validateLin h = .ok L → L ≤ s.maxPayloadBytes.val → s.sourceHeld = false → SourceHas L s →
      exec i s = .next
        { s with
          plen := L, cursor := s.cursor + L, inBuf := (s.source.drop s.cursor).take L
          seqState := .payloadRead })) ∧
  (∀ s h, s.seqState = .headerRead → s.srcCmp = some h →
    (∀ e, validateCmp h = .error e →
      ∃ t, exec .convG711Pcm s = .next t ∧ FailsWith e s t ∧ t.cursor = s.cursor ∧ t.sink = s.sink ∧
        t.answers = s.answers) ∧
    (∀ law M, validateCmp h = .ok (law, M) → s.maxPayloadBytes.val < M →
      exec .convG711Pcm s = .next { s with refusalMark := true }) ∧
    (∀ law M, validateCmp h = .ok (law, M) → M ≤ s.maxPayloadBytes.val → s.sourceHeld = true →
      exec .convG711Pcm s = .next s) ∧
    (∀ law M, validateCmp h = .ok (law, M) → M ≤ s.maxPayloadBytes.val → s.sourceHeld = false →
      ¬ SourceHas M s →
      ∃ t, exec .convG711Pcm s = .next t ∧ FailsWith .shortRead s t ∧ s.cursor ≤ t.cursor ∧
        t.sink = s.sink ∧ t.answers = s.answers) ∧
    (∀ law M, validateCmp h = .ok (law, M) → M ≤ s.maxPayloadBytes.val → s.sourceHeld = false →
      SourceHas M s →
      exec .convG711Pcm s = .next
        { s with
          law := some law, plen := M, cursor := s.cursor + M, inBuf := (s.source.drop s.cursor).take M
          seqState := .payloadRead }))

/-- R205 for all three conversions: the destination header is derived and its image handed to the sink; a failing
write leaves a prefix of the image there; with no answer yet the sequencer waits. -/
def Obligations.ConversionsEmitTheirHeader : Prop :=
  (∀ i law s h, commandClass i = .conv (.l2c law) → s.seqState = .payloadRead → s.srcLin = some h →
    s.law = some law →
    (∀ rest, s.answers = .ok :: rest →
      exec i s = .next
        { s with
          dstCmp := some (deriveL2c h law), answers := rest, sink := s.sink ++ serCmp (deriveL2c h law)
          seqState := .headerDerived }) ∧
    (∀ k rest, s.answers = .writeFailure k :: rest →
      ∃ t, exec i s = .next t ∧ FailsWith .writeFailure s t ∧ t.cursor = s.cursor ∧
        t.sink = s.sink ++ (serCmp (deriveL2c h law)).take k ∧ t.answers = rest) ∧
    (s.answers = [] → exec i s = .next s)) ∧
  (∀ s h, s.seqState = .payloadRead → s.srcCmp = some h →
    (∀ rest, s.answers = .ok :: rest →
      exec .convG711Pcm s = .next
        { s with
          dstLin := some (deriveC2l h), answers := rest, sink := s.sink ++ serLin (deriveC2l h)
          seqState := .headerDerived }) ∧
    (∀ k rest, s.answers = .writeFailure k :: rest →
      ∃ t, exec .convG711Pcm s = .next t ∧ FailsWith .writeFailure s t ∧ t.cursor = s.cursor ∧
        t.sink = s.sink ++ (serLin (deriveC2l h)).take k ∧ t.answers = rest) ∧
    (s.answers = [] → exec .convG711Pcm s = .next s))

/-- R200, R207, R210, R211: a whole PCM to G.711 conversion of a valid source with payload length `L`, run by the
sequencer alone with its reads answered and both writes answered `ok`, is done after six steps; it appends exactly
the image of the derived header and the `L/2` codewords, `58 + L/2` bytes, which the header's `fileSize` says. -/
def Obligations.PcmConversionEndToEnd : Prop :=
  ∀ i law s h L rest, commandClass i = .conv (.l2c law) → SequencerAlone i s → AtStart s →
    parseLin ((s.source.drop s.cursor).take 44) = .ok h → validateLin h = .ok L →
    L ≤ s.maxPayloadBytes.val → SourceHas (44 + L) s → s.sourceHeld = false → s.answers = .ok :: .ok :: rest →
    ∃ t O, sampleCodec law .enc ((s.source.drop (s.cursor + 44)).take L) = .output O ∧ O.length = L / 2 ∧
      runsTo 6 s t ∧ t.seqState = .done ∧ t.err = s.err ∧ t.busy = false ∧
      t.sink = s.sink ++ serCmp (deriveL2c h law) ++ O ∧ t.sink.length = s.sink.length + 58 + L / 2 ∧
      (deriveL2c h law).fileSize.toNat = 58 + L / 2 ∧
      t.cursor = s.cursor + 44 + L ∧ t.source = s.source ∧ t.answers = rest ∧
      t.acmd = s.acmd ∧ t.din = s.din ∧ t.dout = s.dout ∧ t.len = s.len ∧ t.refusalMark = false

/-- R200, R207, R212: a whole G.711 to PCM conversion of a valid source with payload length `M`, of the law its
format tag gives, with its reads answered and both writes answered `ok`, is done after six steps; it appends
exactly the image of the derived header and the `M` decoded samples, `44 + 2M` bytes, which the header's
`fileSize` says. -/
def Obligations.G711ConversionEndToEnd : Prop :=
  ∀ s h law M rest, SequencerAlone .convG711Pcm s → AtStart s →
    parseCmp ((s.source.drop s.cursor).take 58) = .ok h → validateCmp h = .ok (law, M) →
    M ≤ s.maxPayloadBytes.val → SourceHas (58 + M) s → s.sourceHeld = false → s.answers = .ok :: .ok :: rest →
    ∃ t O, sampleCodec law .dec ((s.source.drop (s.cursor + 58)).take M) = .output O ∧ O.length = 2 * M ∧
      runsTo 6 s t ∧ t.seqState = .done ∧ t.err = s.err ∧ t.busy = false ∧
      t.sink = s.sink ++ serLin (deriveC2l h) ++ O ∧ t.sink.length = s.sink.length + 44 + 2 * M ∧
      (deriveC2l h).fileSize.toNat = 44 + 2 * M ∧
      t.cursor = s.cursor + 58 + M ∧ t.source = s.source ∧ t.answers = rest ∧
      t.acmd = s.acmd ∧ t.din = s.din ∧ t.dout = s.dout ∧ t.len = s.len ∧ t.refusalMark = false

/-- R201: in a conversion the cursor moves only in the steps leaving `Idle` and `HeaderRead`, and the sink grows
only in the steps leaving `PayloadRead` and `PayloadTransformed`, which come later; an error raised in the
first two leaves the sink untouched. -/
def Obligations.ConversionsReadBeforeTheyWrite : Prop :=
  ∀ i kind s t, commandClass i = .conv kind → exec i s = .next t →
    (t.cursor ≠ s.cursor → s.seqState = .idle ∨ s.seqState = .headerRead) ∧
    (t.sink ≠ s.sink → s.seqState = .payloadRead ∨ s.seqState = .payloadTransformed) ∧
    (s.seqState = .idle ∨ s.seqState = .headerRead → t.sink = s.sink)

/-- R208: which errors the running conversion's step raises, the source bytes it consumes and the sink bytes it
appends, by the state it leaves. -/
def Obligations.ConversionFailureTable : Prop :=
  ∀ i kind s t e, commandClass i = .conv kind → Running i s → exec i s = .next t → t.err = some e →
    (s.seqState = .idle → t.sink = s.sink ∧
      (e = .truncatedHeader ∨
        (e = .badMagic ∧ t.cursor = s.cursor + (if kind = .c2l then 58 else 44)))) ∧
    (s.seqState = .headerRead → t.sink = s.sink ∧
      (((e = .unsupportedEncoding ∨ e = .malformedPayload) ∧ t.cursor = s.cursor) ∨ e = .shortRead)) ∧
    (s.seqState = .payloadRead → e = .writeFailure ∧ t.cursor = s.cursor ∧
      (∀ h law, kind = .l2c law → s.srcLin = some h →
        ∃ k, t.sink = s.sink ++ (serCmp (deriveL2c h law)).take k) ∧
      (∀ h, kind = .c2l → s.srcCmp = some h → ∃ k, t.sink = s.sink ++ (serLin (deriveC2l h)).take k)) ∧
    s.seqState ≠ .headerDerived ∧
    (s.seqState = .payloadTransformed → e = .writeFailure ∧ t.cursor = s.cursor ∧
      ∃ k, t.sink = s.sink ++ s.outBuf.take k) ∧
    s.seqState ≠ .written

/-! ### Rules over the whole machine -/

/-- R246: the failure entry: `ERR` and `STATE` change and nothing else; `STATUS` then reads `(code << 4) | 7`; no
further step of the command is taken; the next acceptance clears the internal records. And every failure of a
command, from a state that meets the invariant, is this entry: `PENDING` is 0. -/
def Obligations.FailureEntry : Prop :=
  (∀ (s : State) e, s.raise e = { s with err := some e, seqState := .failed }) ∧
  (∀ (s : State) e, s.pending = false →
    (s.raise e).statusWord = (e.code.setWidth 32 <<< 4) ||| 7 ∧ (s.raise e).busy = false ∧
    sequencerTurn (s.raise e) = .next (s.raise e)) ∧
  (∀ (s : State) e c, (s.raise e).accept c = s.accept c) ∧
  (∀ i s t, Running i s → exec i s = .next t → t.seqState = .failed →
    t.pending = false ∧ ∃ e, FailsWith e s t)

/-- R244: `MalformedPayload` is raised in exactly the five cases of the rule. -/
def Obligations.MalformedPayloadCases : Prop :=
  ∀ i s, Running i s →
    ((∃ t, exec i s = .next t ∧ t.err = some .malformedPayload) ↔
      (∃ law, commandClass i = .buffer law .enc ∧ s.seqState = .idle ∧ s.len.toNat % 2 = 1) ∨
      (∃ law h, commandClass i = .conv (.l2c law) ∧ s.seqState = .headerRead ∧ s.srcLin = some h ∧
        h.formatTag = 1 ∧ h.frameBytes ≠ 0 ∧ h.dataLen.toNat % 2 = 1) ∨
      (∃ h, commandClass i = .conv .c2l ∧ s.seqState = .headerRead ∧ s.srcCmp = some h ∧
        (h.formatTag = 6 ∨ h.formatTag = 7) ∧
        (h.fileSize.toNat ≠ 58 + h.payloadLength ∨ h.sampleLength ≠ h.payloadLength ∨
          44 + 2 * h.payloadLength > 2 ^ 32 - 1)))

/-- R245: `UnsupportedEncoding` is raised in exactly the three cases of the rule. -/
def Obligations.UnsupportedEncodingCases : Prop :=
  ∀ i s, Running i s →
    ((∃ t, exec i s = .next t ∧ t.err = some .unsupportedEncoding) ↔
      (∃ law h, commandClass i = .conv (.l2c law) ∧ s.seqState = .headerRead ∧ s.srcLin = some h ∧
        (h.formatTag ≠ 1 ∨ h.frameBytes = 0)) ∨
      (∃ h, commandClass i = .conv .c2l ∧ s.seqState = .headerRead ∧ s.srcCmp = some h ∧
        h.formatTag ≠ 6 ∧ h.formatTag ≠ 7))

/-- R27, R28, R29, R31, D20: the frame of every command on the register port and the host side: no command
writes `DIN`, `LEN` or `ACMD`, only a LUT command writes `DOUT`, none touches the source's bytes, the host
program, the host's reads or the parameter, and none moves the source cursor back or past the source's end. -/
def Obligations.CommandsKeepTheRegisters : Prop :=
  ∀ i s t, exec i s = .next t →
    t.din = s.din ∧ t.len = s.len ∧ t.acmd = s.acmd ∧ (commandClass i ≠ .lut → t.dout = s.dout) ∧
    t.source = s.source ∧ t.sourceHeld = s.sourceHeld ∧ t.script = s.script ∧ t.reads = s.reads ∧
    t.maxPayloadBytes = s.maxPayloadBytes ∧
    (s.refusalMark = true → t.refusalMark = true) ∧
    s.cursor ≤ t.cursor ∧ (s.cursor ≤ s.source.length → t.cursor ≤ t.source.length)

/-- R24: a command never moves `STATE` backward. -/
def Obligations.StateNeverMovesBackward : Prop :=
  ∀ i s t, exec i s = .next t → s.seqState.code.toNat ≤ t.seqState.code.toNat

/-- R208, R271: no step, of the block or of the host, ever retracts or rewrites a byte of the sink. -/
def Obligations.SinkOnlyGrows : Prop :=
  ∀ s t, s.refusalMark = false → step s = .next t → s.sink <+: t.sink

/-- R281: while the block is busy no step but a reset changes `DIN`, `LEN` or `ACMD`. -/
def Obligations.OperandsAreStableWhileBusy : Prop :=
  ∀ s t, s.refusalMark = false → s.busy = true → s.script.head? ≠ some .reset → step s = .next t →
    t.din = s.din ∧ t.len = s.len ∧ t.acmd = s.acmd

/-- From a state that meets the invariant every step answers a next state: none is stuck and none is refused.
That a refused request, too, is answered with a next state, the mark set, is the model's choice (log entry
1). -/
def Obligations.NoReachableStepStops : Prop := ∀ s, MachineInv s → ∃ t, step s = .next t

/-- R252: the requests (a) to (d) set the refusal mark and nothing else does; once set it stays set, reset
included. Case (e), a buffer access out of bounds, is reached by no step. -/
def Obligations.RefusalsAreExactlyTheListed : Prop :=
  (∀ s t, step s = .next t → s.refusalMark = true → t.refusalMark = true) ∧
  (∀ s t, MachineInv s → s.refusalMark = false → step s = .next t →
    (t.refusalMark = true ↔
      (∃ a rest, s.script = a :: rest ∧ RefusedRequest s a) ∨
      (SequencerMoves s ∧ ∃ i, decode s.acmd = .ok i ∧ BeyondCapacity i s)))

/-- R285: every accepted command reaches `Done` or `Failed` within its bound of sequencer steps (1 for a LUT
command, 4 for a buffer command, 6 for a conversion), if the host answers its requests and no refusal occurs. -/
def Obligations.EveryCommandEndsWithinItsBound : Prop :=
  ∀ i s, MachineInv s → SequencerAlone i s → AtStart s → s.sourceHeld = false → 2 ≤ s.answers.length →
    ∃ k t, k ≤ stepBound (commandClass i) ∧ runsTo k s t ∧
      (t.seqState = .done ∨ t.seqState = .failed ∨ (t.refusalMark = true ∧ t.busy = true))

/-- R253, R283 (93 I12): a request the host does not answer is no refusal: the sequencer waits and takes no step, and
with no host action left `BUSY` stays 1 for ever. No other action of the host ends the wait: none but an answer
(`answer`, `holdReads`) or a reset. How a host withholds an answer is the model's choice (log entries 3 and
7). -/
def Obligations.UnansweredRequestsWait : Prop :=
  ∀ i s, Running i s → AwaitsHost i s → s.refusalMark = false →
    exec i s = .next s ∧ s.statusWord.getLsbD 3 = true ∧
    (s.script = [] → ∀ k, runsTo k s s) ∧
    ((∀ a, s.script.head? = some a →
        a ≠ .reset ∧ (∀ w, a ≠ .answer w) ∧ (∀ held, a ≠ .holdReads held)) →
      ∃ t, step s = .next t ∧ Running i t ∧ AwaitsHost i t ∧ t.statusWord = s.statusWord)
end

