-- ==== Sys2Proof/Laws/Bytes.lean ====
section
/-! SUPPORT. Little-endian bytes and values are inverse to each other, and slices of a concatenation. -/

namespace Sys2Proof.Machine

@[simp] theorem leBytes_length (n v : Nat) : (leBytes n v).length = n := by
  induction n generalizing v with
  | zero => rfl
  | succ n ih => simp [leBytes, ih]

theorem leValue_lt (bs : List Byte) : leValue bs < 256 ^ bs.length := by
  induction bs with
  | nil => simp [leValue]
  | cons b bs ih =>
    have hb := b.isLt
    simp only [leValue, List.length_cons, Nat.pow_succ]
    omega

/-- Reading back the bytes of a value gives it modulo the width. -/
theorem leValue_leBytes (n v : Nat) : leValue (leBytes n v) = v % 256 ^ n := by
  induction n generalizing v with
  | zero => simp [leBytes, leValue, Nat.mod_one]
  | succ n ih =>
    have h := Nat.mod_mul (a := 256) (b := 256 ^ n) (x := v)
    have e : 256 ^ (n + 1) = 256 * 256 ^ n := Nat.pow_succ'
    rw [leBytes, leValue, ih, BitVec.toNat_ofNat, e]
    exact h.symm

/-- The bytes of a byte sequence's value are the sequence. -/
theorem leBytes_leValue (bs : List Byte) : leBytes bs.length (leValue bs) = bs := by
  induction bs with
  | nil => rfl
  | cons b bs ih =>
    have hb := b.isLt
    have h1 : (b.toNat + 256 * leValue bs) / 256 = leValue bs := by omega
    have h2 : BitVec.ofNat 8 (b.toNat + 256 * leValue bs) = b := by
      apply BitVec.eq_of_toNat_eq
      simp only [BitVec.toNat_ofNat]
      omega
    simp only [List.length_cons, leBytes, leValue, h1, h2, ih]

@[simp] theorem bytes16_length (v : BitVec 16) : (bytes16 v).length = 2 := leBytes_length 2 _

@[simp] theorem bytes32_length (v : Word) : (bytes32 v).length = 4 := leBytes_length 4 _

theorem ofNat_leValue_bytes16 (v : BitVec 16) : BitVec.ofNat 16 (leValue (bytes16 v)) = v := by
  apply BitVec.eq_of_toNat_eq
  have := v.isLt
  simp only [bytes16, leValue_leBytes, BitVec.toNat_ofNat]
  omega

theorem ofNat_leValue_bytes32 (v : Word) : BitVec.ofNat 32 (leValue (bytes32 v)) = v := by
  apply BitVec.eq_of_toNat_eq
  have := v.isLt
  simp only [bytes32, leValue_leBytes, BitVec.toNat_ofNat]
  omega

theorem bytes16_ofNat_leValue (bs : List Byte) (h : bs.length = 2) :
    bytes16 (BitVec.ofNat 16 (leValue bs)) = bs := by
  have hl := leValue_lt bs
  rw [h] at hl
  have : (BitVec.ofNat 16 (leValue bs)).toNat = leValue bs := by
    rw [BitVec.toNat_ofNat]
    exact Nat.mod_eq_of_lt hl
  have hb := leBytes_leValue bs
  rw [h] at hb
  rw [bytes16, this, hb]

theorem bytes32_ofNat_leValue (bs : List Byte) (h : bs.length = 4) :
    bytes32 (BitVec.ofNat 32 (leValue bs)) = bs := by
  have hl := leValue_lt bs
  rw [h] at hl
  have : (BitVec.ofNat 32 (leValue bs)).toNat = leValue bs := by
    rw [BitVec.toNat_ofNat]
    exact Nat.mod_eq_of_lt hl
  have hb := leBytes_leValue bs
  rw [h] at hb
  rw [bytes32, this, hb]

/-! ### Slices -/

/-- A slice within bounds has the length asked for. -/
theorem slice_length (B : List Byte) (off n : Nat) (h : off + n ≤ B.length) :
    (slice B off n).length = n := by
  simp only [slice, List.length_take, List.length_drop]
  omega

/-- A slice of a concatenation past its first part is a slice of the second. -/
theorem slice_append_right (A B : List Byte) (off n : Nat) :
    slice (A ++ B) (A.length + off) n = slice B off n := by
  have h : A.drop (A.length + off) = [] := List.drop_eq_nil_of_le (Nat.le_add_right _ _)
  simp [slice, List.drop_append, h]

/-- The slice that is a concatenation's first part. -/
theorem slice_append_left (A B : List Byte) : slice (A ++ B) 0 A.length = A := by
  simp [slice]

/-- Adjacent slices join. -/
theorem slice_append_slice (B : List Byte) (off m n : Nat) :
    slice B off m ++ slice B (off + m) n = slice B off (m + n) := by
  simp only [slice, List.take_add, List.drop_drop]

/-- Slicing everything. -/
theorem slice_all (B : List Byte) : slice B 0 B.length = B := by
  simp [slice]

end Sys2Proof.Machine
end

