-- ==== Sys2Proof/Laws/State.lean ====
section
/-! SUPPORT. What each named update of the state does to each field. -/

namespace Sys2Proof.Machine

/-! ### `State.raise`: the failure entry (R246) -/

@[simp] theorem State.raise_seqState (s : State) (e : ErrKind) : (s.raise e).seqState = .failed := rfl
@[simp] theorem State.raise_err (s : State) (e : ErrKind) : (s.raise e).err = some e := rfl
@[simp] theorem State.raise_acmd (s : State) (e : ErrKind) : (s.raise e).acmd = s.acmd := rfl
@[simp] theorem State.raise_pending (s : State) (e : ErrKind) : (s.raise e).pending = s.pending := rfl
@[simp] theorem State.raise_din (s : State) (e : ErrKind) : (s.raise e).din = s.din := rfl
@[simp] theorem State.raise_dout (s : State) (e : ErrKind) : (s.raise e).dout = s.dout := rfl
@[simp] theorem State.raise_len (s : State) (e : ErrKind) : (s.raise e).len = s.len := rfl
@[simp] theorem State.raise_law (s : State) (e : ErrKind) : (s.raise e).law = s.law := rfl
@[simp] theorem State.raise_srcLin (s : State) (e : ErrKind) : (s.raise e).srcLin = s.srcLin := rfl
@[simp] theorem State.raise_srcCmp (s : State) (e : ErrKind) : (s.raise e).srcCmp = s.srcCmp := rfl
@[simp] theorem State.raise_dstLin (s : State) (e : ErrKind) : (s.raise e).dstLin = s.dstLin := rfl
@[simp] theorem State.raise_dstCmp (s : State) (e : ErrKind) : (s.raise e).dstCmp = s.dstCmp := rfl
@[simp] theorem State.raise_plen (s : State) (e : ErrKind) : (s.raise e).plen = s.plen := rfl
@[simp] theorem State.raise_inBuf (s : State) (e : ErrKind) : (s.raise e).inBuf = s.inBuf := rfl
@[simp] theorem State.raise_outBuf (s : State) (e : ErrKind) : (s.raise e).outBuf = s.outBuf := rfl
@[simp] theorem State.raise_source (s : State) (e : ErrKind) : (s.raise e).source = s.source := rfl
@[simp] theorem State.raise_cursor (s : State) (e : ErrKind) : (s.raise e).cursor = s.cursor := rfl
@[simp] theorem State.raise_sourceHeld (s : State) (e : ErrKind) : (s.raise e).sourceHeld = s.sourceHeld := rfl
@[simp] theorem State.raise_sink (s : State) (e : ErrKind) : (s.raise e).sink = s.sink := rfl
@[simp] theorem State.raise_answers (s : State) (e : ErrKind) : (s.raise e).answers = s.answers := rfl
@[simp] theorem State.raise_script (s : State) (e : ErrKind) : (s.raise e).script = s.script := rfl
@[simp] theorem State.raise_reads (s : State) (e : ErrKind) : (s.raise e).reads = s.reads := rfl
@[simp] theorem State.raise_refusalMark (s : State) (e : ErrKind) : (s.raise e).refusalMark = s.refusalMark := rfl
@[simp] theorem State.raise_maxPayloadBytes (s : State) (e : ErrKind) : (s.raise e).maxPayloadBytes = s.maxPayloadBytes := rfl
@[simp] theorem State.raise_freeDraws (s : State) (e : ErrKind) : (s.raise e).freeDraws = s.freeDraws := rfl

/-! ### `State.refuse`: refusal (R252) -/

@[simp] theorem State.refuse_seqState (s : State) : (s.refuse).seqState = s.seqState := rfl
@[simp] theorem State.refuse_err (s : State) : (s.refuse).err = s.err := rfl
@[simp] theorem State.refuse_acmd (s : State) : (s.refuse).acmd = s.acmd := rfl
@[simp] theorem State.refuse_pending (s : State) : (s.refuse).pending = s.pending := rfl
@[simp] theorem State.refuse_din (s : State) : (s.refuse).din = s.din := rfl
@[simp] theorem State.refuse_dout (s : State) : (s.refuse).dout = s.dout := rfl
@[simp] theorem State.refuse_len (s : State) : (s.refuse).len = s.len := rfl
@[simp] theorem State.refuse_law (s : State) : (s.refuse).law = s.law := rfl
@[simp] theorem State.refuse_srcLin (s : State) : (s.refuse).srcLin = s.srcLin := rfl
@[simp] theorem State.refuse_srcCmp (s : State) : (s.refuse).srcCmp = s.srcCmp := rfl
@[simp] theorem State.refuse_dstLin (s : State) : (s.refuse).dstLin = s.dstLin := rfl
@[simp] theorem State.refuse_dstCmp (s : State) : (s.refuse).dstCmp = s.dstCmp := rfl
@[simp] theorem State.refuse_plen (s : State) : (s.refuse).plen = s.plen := rfl
@[simp] theorem State.refuse_inBuf (s : State) : (s.refuse).inBuf = s.inBuf := rfl
@[simp] theorem State.refuse_outBuf (s : State) : (s.refuse).outBuf = s.outBuf := rfl
@[simp] theorem State.refuse_source (s : State) : (s.refuse).source = s.source := rfl
@[simp] theorem State.refuse_cursor (s : State) : (s.refuse).cursor = s.cursor := rfl
@[simp] theorem State.refuse_sourceHeld (s : State) : (s.refuse).sourceHeld = s.sourceHeld := rfl
@[simp] theorem State.refuse_sink (s : State) : (s.refuse).sink = s.sink := rfl
@[simp] theorem State.refuse_answers (s : State) : (s.refuse).answers = s.answers := rfl
@[simp] theorem State.refuse_script (s : State) : (s.refuse).script = s.script := rfl
@[simp] theorem State.refuse_reads (s : State) : (s.refuse).reads = s.reads := rfl
@[simp] theorem State.refuse_refusalMark (s : State) : (s.refuse).refusalMark = true := rfl
@[simp] theorem State.refuse_maxPayloadBytes (s : State) : (s.refuse).maxPayloadBytes = s.maxPayloadBytes := rfl
@[simp] theorem State.refuse_freeDraws (s : State) : (s.refuse).freeDraws = s.freeDraws := rfl

/-! ### `State.accept`: acceptance (R22, R31) -/

@[simp] theorem State.accept_seqState (s : State) (c : Byte) : (s.accept c).seqState = .idle := rfl
@[simp] theorem State.accept_err (s : State) (c : Byte) : (s.accept c).err = none := rfl
@[simp] theorem State.accept_acmd (s : State) (c : Byte) : (s.accept c).acmd = c := rfl
@[simp] theorem State.accept_pending (s : State) (c : Byte) : (s.accept c).pending = true := rfl
@[simp] theorem State.accept_din (s : State) (c : Byte) : (s.accept c).din = s.din := rfl
@[simp] theorem State.accept_dout (s : State) (c : Byte) : (s.accept c).dout = s.dout := rfl
@[simp] theorem State.accept_len (s : State) (c : Byte) : (s.accept c).len = s.len := rfl
@[simp] theorem State.accept_law (s : State) (c : Byte) : (s.accept c).law = none := rfl
@[simp] theorem State.accept_srcLin (s : State) (c : Byte) : (s.accept c).srcLin = none := rfl
@[simp] theorem State.accept_srcCmp (s : State) (c : Byte) : (s.accept c).srcCmp = none := rfl
@[simp] theorem State.accept_dstLin (s : State) (c : Byte) : (s.accept c).dstLin = none := rfl
@[simp] theorem State.accept_dstCmp (s : State) (c : Byte) : (s.accept c).dstCmp = none := rfl
@[simp] theorem State.accept_plen (s : State) (c : Byte) : (s.accept c).plen = 0 := rfl
@[simp] theorem State.accept_inBuf (s : State) (c : Byte) : (s.accept c).inBuf = [] := rfl
@[simp] theorem State.accept_outBuf (s : State) (c : Byte) : (s.accept c).outBuf = [] := rfl
@[simp] theorem State.accept_source (s : State) (c : Byte) : (s.accept c).source = s.source := rfl
@[simp] theorem State.accept_cursor (s : State) (c : Byte) : (s.accept c).cursor = s.cursor := rfl
@[simp] theorem State.accept_sourceHeld (s : State) (c : Byte) : (s.accept c).sourceHeld = s.sourceHeld := rfl
@[simp] theorem State.accept_sink (s : State) (c : Byte) : (s.accept c).sink = s.sink := rfl
@[simp] theorem State.accept_answers (s : State) (c : Byte) : (s.accept c).answers = s.answers := rfl
@[simp] theorem State.accept_script (s : State) (c : Byte) : (s.accept c).script = s.script := rfl
@[simp] theorem State.accept_reads (s : State) (c : Byte) : (s.accept c).reads = s.reads := rfl
@[simp] theorem State.accept_refusalMark (s : State) (c : Byte) : (s.accept c).refusalMark = s.refusalMark := rfl
@[simp] theorem State.accept_maxPayloadBytes (s : State) (c : Byte) : (s.accept c).maxPayloadBytes = s.maxPayloadBytes := rfl
@[simp] theorem State.accept_freeDraws (s : State) (c : Byte) : (s.accept c).freeDraws = s.freeDraws := rfl

/-! ### `State.resetBlock`: reset (R270) -/

@[simp] theorem State.resetBlock_seqState (s : State) : (s.resetBlock).seqState = .idle := rfl
@[simp] theorem State.resetBlock_err (s : State) : (s.resetBlock).err = none := rfl
@[simp] theorem State.resetBlock_acmd (s : State) : (s.resetBlock).acmd = 0 := rfl
@[simp] theorem State.resetBlock_pending (s : State) : (s.resetBlock).pending = false := rfl
@[simp] theorem State.resetBlock_din (s : State) : (s.resetBlock).din = 0 := rfl
@[simp] theorem State.resetBlock_dout (s : State) : (s.resetBlock).dout = 0 := rfl
@[simp] theorem State.resetBlock_len (s : State) : (s.resetBlock).len = 0 := rfl
@[simp] theorem State.resetBlock_law (s : State) : (s.resetBlock).law = none := rfl
@[simp] theorem State.resetBlock_srcLin (s : State) : (s.resetBlock).srcLin = none := rfl
@[simp] theorem State.resetBlock_srcCmp (s : State) : (s.resetBlock).srcCmp = none := rfl
@[simp] theorem State.resetBlock_dstLin (s : State) : (s.resetBlock).dstLin = none := rfl
@[simp] theorem State.resetBlock_dstCmp (s : State) : (s.resetBlock).dstCmp = none := rfl
@[simp] theorem State.resetBlock_plen (s : State) : (s.resetBlock).plen = 0 := rfl
@[simp] theorem State.resetBlock_inBuf (s : State) : (s.resetBlock).inBuf = [] := rfl
@[simp] theorem State.resetBlock_outBuf (s : State) : (s.resetBlock).outBuf = [] := rfl
@[simp] theorem State.resetBlock_source (s : State) : (s.resetBlock).source = s.source := rfl
@[simp] theorem State.resetBlock_cursor (s : State) : (s.resetBlock).cursor = s.cursor := rfl
@[simp] theorem State.resetBlock_sourceHeld (s : State) : (s.resetBlock).sourceHeld = s.sourceHeld := rfl
@[simp] theorem State.resetBlock_sink (s : State) : (s.resetBlock).sink = s.sink := rfl
@[simp] theorem State.resetBlock_answers (s : State) : (s.resetBlock).answers = s.answers := rfl
@[simp] theorem State.resetBlock_script (s : State) : (s.resetBlock).script = s.script := rfl
@[simp] theorem State.resetBlock_reads (s : State) : (s.resetBlock).reads = s.reads := rfl
@[simp] theorem State.resetBlock_refusalMark (s : State) : (s.resetBlock).refusalMark = s.refusalMark := rfl
@[simp] theorem State.resetBlock_maxPayloadBytes (s : State) : (s.resetBlock).maxPayloadBytes = s.maxPayloadBytes := rfl
@[simp] theorem State.resetBlock_freeDraws (s : State) : (s.resetBlock).freeDraws = s.freeDraws := rfl

/-! ### `BUSY` after each update -/

@[simp] theorem State.raise_busy (s : State) (e : ErrKind) : (s.raise e).busy = s.pending := by
  simp [State.busy, SeqState.running]
@[simp] theorem State.refuse_busy (s : State) : s.refuse.busy = s.busy := rfl
@[simp] theorem State.accept_busy (s : State) (c : Byte) : (s.accept c).busy = true := rfl
@[simp] theorem State.withScript_busy (s : State) (r : List HostAction) :
    ({ s with script := r } : State).busy = s.busy := rfl
@[simp] theorem State.resetBlock_busy (s : State) : s.resetBlock.busy = false := rfl

end Sys2Proof.Machine
end

