-- ==== Sys2Proof/Laws/Ops.lean ====
section
/-! SUPPORT. Everything each shared operation can do, said once. -/

namespace Sys2Proof.Machine

/-! ### The byte source -/

/-- The cursor after a short read stays between the old cursor and the end of the source (R55, 93 I1). -/
theorem shortReadCursor_le (draw p total : Nat) (h : p ≤ total) : shortReadCursor draw p total ≤ total := by
  unfold shortReadCursor
  split
  · exact h
  · have := Nat.mod_lt (Config.shortReadAdvance draw) (show 0 < total - p + 1 by omega)
    omega

theorem le_shortReadCursor (draw p total : Nat) : p ≤ shortReadCursor draw p total := by
  unfold shortReadCursor
  split <;> omega

/-- `ReadExact(n)` that the host does not answer (R253). -/
theorem readExact_held {n : Nat} {s : State} (hh : s.sourceHeld = true) : readExact n s = .waiting := by
  simp [readExact, hh]

/-- `ReadExact(n)` with enough bytes left. -/
theorem readExact_enough {n : Nat} {s : State} (hh : s.sourceHeld = false)
    (h : s.cursor + n ≤ s.source.length) :
    readExact n s = .bytes (slice s.source s.cursor n) { s with cursor := s.cursor + n } := by
  simp [readExact, hh, h]

/-- `ReadExact(n)` with too few bytes left. -/
theorem readExact_short {n : Nat} {s : State} (hh : s.sourceHeld = false)
    (h : ¬ s.cursor + n ≤ s.source.length) :
    readExact n s = .shortRead
      { s with
        cursor := shortReadCursor s.freeDraws s.cursor s.source.length
        freeDraws := s.freeDraws + 1 } := by
  simp [readExact, hh, h]

/-- All a `ReadExact` can do. -/
theorem readExact_cases (n : Nat) (s : State) :
    (s.sourceHeld = true ∧ readExact n s = .waiting) ∨
    (s.sourceHeld = false ∧ s.cursor + n ≤ s.source.length ∧
      readExact n s = .bytes (slice s.source s.cursor n) { s with cursor := s.cursor + n }) ∨
    (s.sourceHeld = false ∧ ¬ s.cursor + n ≤ s.source.length ∧
      readExact n s = .shortRead
        { s with
          cursor := shortReadCursor s.freeDraws s.cursor s.source.length
          freeDraws := s.freeDraws + 1 }) := by
  rcases Bool.eq_false_or_eq_true s.sourceHeld with hh | hh
  · exact .inl ⟨hh, readExact_held hh⟩
  · by_cases h : s.cursor + n ≤ s.source.length
    · exact .inr (.inl ⟨hh, h, readExact_enough hh h⟩)
    · exact .inr (.inr ⟨hh, h, readExact_short hh h⟩)

/-! ### The byte sink -/

/-- All a `WriteAll` can do (R56, R283). -/
theorem writeAll_cases (bs : List Byte) (s : State) :
    (s.answers = [] ∧ writeAll bs s = .waiting) ∨
    (∃ rest, s.answers = .ok :: rest ∧
      writeAll bs s = .ok { s with answers := rest, sink := s.sink ++ bs }) ∨
    (∃ k rest, s.answers = .writeFailure k :: rest ∧
      writeAll bs s = .writeFailure { s with answers := rest, sink := s.sink ++ bs.take k }) := by
  unfold writeAll
  split
  · exact .inl ⟨‹_›, rfl⟩
  · exact .inr (.inl ⟨_, ‹_›, rfl⟩)
  · exact .inr (.inr ⟨_, _, ‹_›, rfl⟩)

/-! ### The internal buffers -/

/-- `MemRead` within bounds (R53). -/
theorem memRead_ok {B : List Byte} {off n : Nat} (hn : n = 1 ∨ n = 2) (h : off + n ≤ B.length) :
    memRead B off n = some (leValue (slice B off n)) := by
  simp [memRead, memAccessOk, hn, h]

/-- `MemWrite` within bounds (R53). -/
theorem memWrite_ok {B : List Byte} {off n v : Nat} (hn : n = 1 ∨ n = 2) (h : off + n ≤ B.length) :
    memWrite B off n v = some (B.take off ++ leBytes n v ++ B.drop (off + n)) := by
  simp [memWrite, memAccessOk, hn, h]

/-- A write keeps the buffer's length. -/
theorem memWrite_length {B B' : List Byte} {off n v : Nat} (h : memWrite B off n v = some B') :
    B'.length = B.length := by
  unfold memWrite at h
  split at h
  · rename_i hok
    simp only [memAccessOk, Bool.and_eq_true, decide_eq_true_eq] at hok
    cases h
    simp only [List.length_append, List.length_take, leBytes_length, List.length_drop]
    omega
  · cases h

/-- Reading what was written gives it modulo the access width. -/
theorem memRead_memWrite_same {B B' : List Byte} {off n v : Nat} (h : memWrite B off n v = some B') :
    memRead B' off n = some (v % 256 ^ n) := by
  have hlen := memWrite_length h
  unfold memWrite at h
  split at h
  · rename_i hok
    simp only [memAccessOk, Bool.and_eq_true, Bool.or_eq_true, beq_iff_eq, decide_eq_true_eq] at hok
    cases h
    rw [memRead_ok hok.1 (by omega)]
    have htake : (B.take off).length = off := by
      rw [List.length_take]
      omega
    have : slice (B.take off ++ leBytes n v ++ B.drop (off + n)) off n = leBytes n v := by
      have h2 := slice_append_right (B.take off) (leBytes n v ++ B.drop (off + n)) 0 n
      have h3 := slice_append_left (leBytes n v) (B.drop (off + n))
      rw [leBytes_length] at h3
      rw [htake, Nat.add_zero, h3] at h2
      rw [List.append_assoc]
      exact h2
    rw [this, leValue_leBytes]
  · cases h

/-- A write leaves every byte outside it alone. -/
theorem memWrite_frame {B B' : List Byte} {off n v a : Nat} (h : memWrite B off n v = some B')
    (ha : a < off ∨ off + n ≤ a) : B'[a]? = B[a]? := by
  unfold memWrite at h
  split at h
  · rename_i hok
    simp only [memAccessOk, Bool.and_eq_true, decide_eq_true_eq] at hok
    cases h
    have htake : (B.take off).length = off := by
      rw [List.length_take]
      omega
    rcases ha with ha | ha
    · rw [List.append_assoc, List.getElem?_append_left (by omega), List.getElem?_take_of_lt ha]
    · rw [List.getElem?_append_right (by simp only [List.length_append, htake, leBytes_length]; omega)]
      simp only [List.length_append, htake, leBytes_length, List.getElem?_drop]
      congr 1
      omega
  · cases h

/-! ### The register port -/

/-- A port write while the block is busy is refused, wherever it goes (R252 b, c). -/
theorem State.portWrite_busy (s : State) (off : Nat) (v : Word) (h : s.busy = true) :
    s.portWrite off v = s.refuse := by
  unfold State.portWrite
  split <;> simp [State.writeCmd, State.writeDin, State.writeLen, h]

/-- All a port write can do (R21, R22, R27, R29, R252). -/
theorem State.portWrite_cases (s : State) (off : Nat) (v : Word) :
    s.portWrite off v = s.refuse ∨
    (s.busy = false ∧ Reg.ofOffset off = some .cmd ∧ (∃ i, decode (v.setWidth 8) = .ok i) ∧
      s.portWrite off v = s.accept (v.setWidth 8)) ∨
    (s.busy = false ∧ Reg.ofOffset off = some .din ∧ s.portWrite off v = { s with din := v.setWidth 16 }) ∨
    (s.busy = false ∧ Reg.ofOffset off = some .len ∧ s.portWrite off v = { s with len := v }) := by
  cases hb : s.busy with
  | true => exact .inl (s.portWrite_busy off v hb)
  | false =>
    unfold State.portWrite
    split
    · next hr =>
      cases hd : decode (v.setWidth 8) with
      | ok i => exact .inr (.inl ⟨rfl, hr, ⟨i, rfl⟩, by simp [State.writeCmd, hb, hd]⟩)
      | error e => exact .inl (by simp [State.writeCmd, hb, hd])
    · next hr => exact .inr (.inr (.inl ⟨rfl, hr, by simp [State.writeDin, hb]⟩))
    · next hr => exact .inr (.inr (.inr ⟨rfl, hr, by simp [State.writeLen, hb]⟩))
    · exact .inl rfl
    · exact .inl rfl
    · exact .inl rfl

/-- All a port read can do (R21, R57). -/
theorem State.portRead_cases (s : State) (off : Nat) :
    (∃ r, Reg.ofOffset off = some r ∧ s.portRead off = { s with reads := s.reads ++ [s.regWord r] }) ∨
    (Reg.ofOffset off = none ∧ s.portRead off = s.refuse) := by
  unfold State.portRead
  split
  · exact .inl ⟨_, ‹_›, rfl⟩
  · exact .inr ⟨‹_›, rfl⟩

end Sys2Proof.Machine
end

