-- ==== Sys2Proof/Laws/SampleCodec.lean ====
section
/-! SUPPORT. The Sample Codec's loop as one expression: it never goes out of bounds, and its output is the
transformed elements in order. -/

namespace Sys2Proof.Machine

/-- Elements `k` to `k + n − 1` of `B`, transformed, as the bytes they are written as. -/
def codecElements (wIn wOut : Nat) (f : Nat → Nat) (B : List Byte) : Nat → Nat → List Byte
  | 0, _ => []
  | n + 1, k => leBytes wOut (f (leValue (slice B (wIn * k) wIn))) ++ codecElements wIn wOut f B n (k + 1)

theorem codecElements_length (wIn wOut : Nat) (f : Nat → Nat) (B : List Byte) (n k : Nat) :
    (codecElements wIn wOut f B n k).length = wOut * n := by
  induction n generalizing k with
  | zero => rfl
  | succ n ih =>
    simp only [codecElements, List.length_append, leBytes_length, ih, Nat.mul_succ]
    omega

/-- Within bounds the loop ends with the transformed elements in place of the ones it covers. -/
theorem codecLoop_eq {wIn wOut : Nat} (f : Nat → Nat) {B : List Byte} (hIn : wIn = 1 ∨ wIn = 2)
    (hOut : wOut = 1 ∨ wOut = 2) (n k : Nat) (O : List Byte) (hB : wIn * (k + n) ≤ B.length)
    (hO : wOut * (k + n) ≤ O.length) :
    codecLoop wIn wOut f B n k O =
      some (O.take (wOut * k) ++ codecElements wIn wOut f B n k ++ O.drop (wOut * (k + n))) := by
  induction n generalizing k O with
  | zero => simp [codecLoop, codecElements]
  | succ n ih =>
    have e1 : wIn * (k + (n + 1)) = wIn * k + wIn + wIn * n := by ring
    have e2 : wOut * (k + (n + 1)) = wOut * k + wOut + wOut * n := by ring
    have e3 : wIn * (k + 1 + n) = wIn * k + wIn + wIn * n := by ring
    have e4 : wOut * (k + 1 + n) = wOut * k + wOut + wOut * n := by ring
    have e5 : wOut * (k + 1) = wOut * k + wOut := by ring
    rw [e1] at hB
    rw [e2] at hO
    have hr := memRead_ok (B := B) (off := wIn * k) hIn (by omega)
    have hw := memWrite_ok (B := O) (off := wOut * k) (v := f (leValue (slice B (wIn * k) wIn))) hOut
      (by omega)
    have hlen := memWrite_length hw
    have htake : (O.take (wOut * k)).length = wOut * k := by
      rw [List.length_take]
      omega
    simp only [codecLoop, hr, hw]
    rw [ih (k + 1) _ (by rw [e3]; omega) (by rw [e4, hlen]; omega)]
    generalize hd : leBytes wOut (f (leValue (slice B (wIn * k) wIn))) = d
    have hdl : d.length = wOut := by rw [← hd, leBytes_length]
    have hpre : (O.take (wOut * k) ++ d).length = wOut * (k + 1) := by
      rw [List.length_append, htake, hdl, e5]
    congr 1
    rw [codecElements, hd]
    have h1 : (O.take (wOut * k) ++ d ++ O.drop (wOut * k + wOut)).take (wOut * (k + 1)) =
        O.take (wOut * k) ++ d := by
      rw [← hpre, List.take_left]
    have h2 : (O.take (wOut * k) ++ d ++ O.drop (wOut * k + wOut)).drop (wOut * (k + 1 + n)) =
        O.drop (wOut * (k + (n + 1))) := by
      rw [List.drop_append, List.drop_eq_nil_of_le (by rw [hpre, e4, e5]; omega), List.nil_append,
        List.drop_drop, hpre, e2, e4, e5]
      congr 1
      omega
    rw [h1, h2]
    simp only [List.append_assoc]

/-- Encoding an even number of bytes. -/
theorem sampleCodec_enc {law : Law} {B : List Byte} (h : B.length % 2 = 0) :
    sampleCodec law .enc B = .output (codecElements 2 1 (encElement law) B (B.length / 2) 0) := by
  have hl := codecLoop_eq (encElement law) (B := B) (.inr rfl) (.inl rfl) (B.length / 2) 0
    (List.replicate (B.length / 2) 0) (by omega) (by simp)
  simp only [sampleCodec, h, hl]
  simp [CodecResult.ofLoop]

/-- Encoding an odd number of bytes. -/
theorem sampleCodec_enc_odd {law : Law} {B : List Byte} (h : B.length % 2 ≠ 0) :
    sampleCodec law .enc B = .malformedPayload := by
  simp [sampleCodec, h]

/-- Decoding any number of bytes. -/
theorem sampleCodec_dec (law : Law) (B : List Byte) :
    sampleCodec law .dec B = .output (codecElements 1 2 (decElement law) B B.length 0) := by
  have hl := codecLoop_eq (decElement law) (B := B) (.inl rfl) (.inr rfl) B.length 0
    (List.replicate (2 * B.length) 0) (by omega) (by simp)
  simp only [sampleCodec, hl]
  simp [CodecResult.ofLoop]

end Sys2Proof.Machine
end

