-- ==== Sys2Proof/Laws/Commands.lean ====
section
/-! SUPPORT. The dispatch by class, and everything each stage of a command can do, said once. Proofs cite
these instead of unfolding the commands. -/

namespace Sys2Proof.Machine

/-! ### exec by class -/

/-- A buffer command runs `bufferCommand` with its law and direction. -/
theorem exec_of_buffer {i : Instr} {law : Law} {dir : Dir} (h : commandClass i = .buffer law dir) (s : State) :
    exec i s = bufferCommand law dir s := by
  cases i <;> cases h <;> rfl

/-- A conversion runs `convCommand` with its kind. -/
theorem exec_of_conv {i : Instr} {kind : ConvKind} (h : commandClass i = .conv kind) (s : State) :
    exec i s = convCommand kind s := by
  cases i <;> cases h <;> rfl

/-- A LUT command runs `lutStep` with some result computed from `DIN` alone. -/
theorem exec_of_lut {i : Instr} (h : commandClass i = .lut) :
    ∃ f : Sample → Sample, ∀ s, exec i s = lutStep (f s.din) s := by
  cases i <;> cases h
  · exact ⟨fun d => (encA d).setWidth 16, fun _ => rfl⟩
  · exact ⟨fun d => (encU d).setWidth 16, fun _ => rfl⟩
  · exact ⟨fun d => decA (d.setWidth 8), fun _ => rfl⟩
  · exact ⟨fun d => decU (d.setWidth 8), fun _ => rfl⟩

/-! ### The stages -/

/-- All a LUT command's step can do (R110). -/
theorem lutStep_cases (r : Sample) (s : State) :
    (s.seqState = .idle ∧ s.pending = true ∧
      lutStep r s = .next { s with pending := false, dout := r, seqState := .done }) ∨
    (¬ (s.seqState = .idle ∧ s.pending = true) ∧ lutStep r s = .fault .noSuchStep) := by
  unfold lutStep
  split
  · exact .inl ⟨(‹_ ∧ _›).1, (‹_ ∧ _›).2, rfl⟩
  · exact .inr ⟨‹_›, rfl⟩

/-- All a payload read can do (R146, R204, R253). -/
theorem readPayload_cases (n : Nat) (s s' : State) :
    (s'.sourceHeld = true ∧ readPayload n s s' = .next s) ∨
    (s'.sourceHeld = false ∧ s'.cursor + n ≤ s'.source.length ∧ readPayload n s s' = .next
      { s' with cursor := s'.cursor + n, inBuf := slice s'.source s'.cursor n, seqState := .payloadRead }) ∨
    (s'.sourceHeld = false ∧ ¬ s'.cursor + n ≤ s'.source.length ∧ readPayload n s s' = .next (State.raise
      { s' with
        cursor := shortReadCursor s'.freeDraws s'.cursor s'.source.length
        freeDraws := s'.freeDraws + 1 } .shortRead)) := by
  unfold readPayload
  rcases readExact_cases n s' with ⟨hh, e⟩ | ⟨hh, h, e⟩ | ⟨hh, h, e⟩
  · exact .inl ⟨hh, by simp only [e]⟩
  · exact .inr (.inl ⟨hh, h, by simp only [e]⟩)
  · exact .inr (.inr ⟨hh, h, by simp only [e]⟩)

/-- All the write that ends a step can do (R56, R283). -/
theorem emit_cases (bs : List Byte) (onOk : SeqState) (s s' : State) :
    (s'.answers = [] ∧ emit bs onOk s s' = .next s) ∨
    (∃ rest, s'.answers = .ok :: rest ∧ emit bs onOk s s' = .next
      { s' with answers := rest, sink := s'.sink ++ bs, seqState := onOk }) ∨
    (∃ k rest, s'.answers = .writeFailure k :: rest ∧ emit bs onOk s s' = .next (State.raise
      { s' with answers := rest, sink := s'.sink ++ bs.take k } .writeFailure)) := by
  unfold emit
  rcases writeAll_cases bs s' with ⟨h, e⟩ | ⟨rest, h, e⟩ | ⟨k, rest, h, e⟩ <;> rw [e]
  · exact .inl ⟨h, rfl⟩
  · exact .inr (.inl ⟨rest, h, rfl⟩)
  · exact .inr (.inr ⟨k, rest, h, rfl⟩)

/-- The codec step on a payload it can split (R140, R202). -/
theorem transformStep_ok {law : Law} {dir : Dir} {s : State} (h : dir = .enc → s.inBuf.length % 2 = 0) :
    ∃ O, O.length = codecLength dir s.inBuf.length ∧ sampleCodec law dir s.inBuf = .output O ∧
      transformStep law dir s = .next { s with outBuf := O, seqState := .payloadTransformed } := by
  cases dir with
  | enc =>
    have e := sampleCodec_enc (law := law) (h rfl)
    exact ⟨_, by simp [codecElements_length, codecLength], e, by simp [transformStep, e]⟩
  | dec =>
    have e := sampleCodec_dec law s.inBuf
    exact ⟨_, by simp [codecElements_length, codecLength], e, by simp [transformStep, e]⟩

/-- All the codec step can do (R146, R206): no call goes out of bounds. -/
theorem transformStep_cases (law : Law) (dir : Dir) (s : State) :
    (∃ O, O.length = codecLength dir s.inBuf.length ∧
      transformStep law dir s = .next { s with outBuf := O, seqState := .payloadTransformed }) ∨
    (dir = .enc ∧ s.inBuf.length % 2 ≠ 0 ∧
      transformStep law dir s = .next (s.raise .malformedPayload)) := by
  by_cases h : dir = .enc → s.inBuf.length % 2 = 0
  · obtain ⟨O, hl, -, e⟩ := transformStep_ok (law := law) h
    exact .inl ⟨O, hl, e⟩
  · obtain ⟨rfl, hodd⟩ := Classical.not_imp.mp h
    exact .inr ⟨rfl, hodd, by simp [transformStep, sampleCodec_enc_odd hodd]⟩

/-- All the first step of a buffer command can do (R146). -/
theorem bufferFirstStep_cases (law : Law) (dir : Dir) (s : State) :
    (dir = .enc ∧ s.len.toNat % 2 ≠ 0 ∧ bufferFirstStep law dir s = .next (State.raise
      { s with pending := false, law := some law, plen := s.len.toNat } .malformedPayload)) ∨
    ((dir = .enc → s.len.toNat % 2 = 0) ∧ s.maxPayloadBytes.val < s.len.toNat ∧
      bufferFirstStep law dir s = .next s.refuse) ∨
    ((dir = .enc → s.len.toNat % 2 = 0) ∧ s.len.toNat ≤ s.maxPayloadBytes.val ∧
      bufferFirstStep law dir s =
        readPayload s.len.toNat s { s with pending := false, law := some law, plen := s.len.toNat }) := by
  unfold bufferFirstStep State.lenOperand
  by_cases h1 : dir = .enc ∧ s.len.toNat % 2 ≠ 0
  · exact .inl ⟨h1.1, h1.2, by simp [h1]⟩
  · have h1' : dir = .enc → s.len.toNat % 2 = 0 := fun h => by
      by_contra h2
      exact h1 ⟨h, h2⟩
    by_cases h2 : s.maxPayloadBytes.val < s.len.toNat
    · exact .inr (.inl ⟨h1', h2, by simp only [if_neg h1, if_pos h2]⟩)
    · exact .inr (.inr ⟨h1', by omega, by simp only [if_neg h1, if_neg h2]⟩)

/-- All the end of the step leaving `HeaderRead` can do (R204). -/
theorem convPayload_cases (law : Option Law) (n : Nat) (s : State) :
    (s.maxPayloadBytes.val < n ∧ convPayload law n s = .next s.refuse) ∨
    (n ≤ s.maxPayloadBytes.val ∧ convPayload law n s = readPayload n s { s with law := law, plen := n }) := by
  unfold convPayload
  by_cases h : s.maxPayloadBytes.val < n
  · exact .inl ⟨h, by simp only [if_pos h]⟩
  · exact .inr ⟨by omega, by simp only [if_neg h]⟩

/-- A parse fails with nothing but `BadMagic` (R162), and gives the fields when the tags match. -/
theorem parseLin_cases (H : List Byte) :
    ((linFields H).tagsOk = true ∧ parseLin H = .ok (linFields H)) ∨
    ((linFields H).tagsOk = false ∧ parseLin H = .error .badMagic) := by
  unfold parseLin
  cases (linFields H).tagsOk <;> simp

/-- A parse fails with nothing but `BadMagic` (R164), and gives the fields when the tags match. -/
theorem parseCmp_cases (H : List Byte) :
    ((cmpFields H).tagsOk = true ∧ parseCmp H = .ok (cmpFields H)) ∨
    ((cmpFields H).tagsOk = false ∧ parseCmp H = .error .badMagic) := by
  unfold parseCmp
  cases (cmpFields H).tagsOk <;> simp

/-- What a linear header that validates has, and the errors of one that does not (R165). -/
theorem validateLin_cases (h : LinearHeader) :
    (h.formatTag = fmtPcm ∧ h.frameBytes ≠ 0 ∧ h.dataLen.toNat % 2 = 0 ∧
      validateLin h = .ok h.dataLen.toNat) ∨
    ((h.formatTag ≠ fmtPcm ∨ h.frameBytes = 0) ∧ validateLin h = .error .unsupportedEncoding) ∨
    (h.formatTag = fmtPcm ∧ h.frameBytes ≠ 0 ∧ h.dataLen.toNat % 2 ≠ 0 ∧
      validateLin h = .error .malformedPayload) := by
  unfold validateLin
  by_cases h1 : h.formatTag = fmtPcm
  · by_cases h2 : h.frameBytes = 0
    · exact .inr (.inl ⟨.inr h2, by rw [if_neg (not_not.mpr h1), if_pos h2]⟩)
    · by_cases h3 : h.dataLen.toNat % 2 = 0
      · exact .inl ⟨h1, h2, h3, by rw [if_neg (not_not.mpr h1), if_neg h2, if_neg (not_not.mpr h3)]⟩
      · exact .inr (.inr ⟨h1, h2, h3, by rw [if_neg (not_not.mpr h1), if_neg h2, if_pos h3]⟩)
  · exact .inr (.inl ⟨.inl h1, by rw [if_pos h1]⟩)

/-- The format tags that name a law, and which (R79, R167). -/
theorem lawOfFmt_cases (tag : BitVec 16) :
    (tag = 6 ∧ lawOfFmt tag = some .A) ∨ (tag = 7 ∧ lawOfFmt tag = some .U) ∨
    (tag ≠ 6 ∧ tag ≠ 7 ∧ lawOfFmt tag = none) := by
  unfold lawOfFmt
  by_cases hA : tag = fmtOfLaw .A
  · exact .inl ⟨hA, if_pos hA⟩
  · by_cases hU : tag = fmtOfLaw .U
    · exact .inr (.inl ⟨hU, by rw [if_neg hA, if_pos hU]⟩)
    · exact .inr (.inr ⟨hA, hU, by rw [if_neg hA, if_neg hU]⟩)

/-- What a companded header that validates has, and the errors of one that does not (R166). -/
theorem validateCmp_cases (h : CompandedHeader) :
    (∃ law, lawOfFmt h.formatTag = some law ∧ h.fileSize.toNat = 58 + h.payloadLength ∧
      h.sampleLength = h.payloadLength ∧ 44 + 2 * h.payloadLength ≤ 4294967295 ∧
      validateCmp h = .ok (law, h.payloadLength)) ∨
    (lawOfFmt h.formatTag = none ∧ validateCmp h = .error .unsupportedEncoding) ∨
    ((∃ law, lawOfFmt h.formatTag = some law) ∧
      (h.fileSize.toNat ≠ 58 + h.payloadLength ∨ h.sampleLength ≠ h.payloadLength ∨
        4294967295 < 44 + 2 * h.payloadLength) ∧
      validateCmp h = .error .malformedPayload) := by
  unfold validateCmp cmpHdrBytes maxField32 linHdrBytes
  cases hl : lawOfFmt h.formatTag with
  | none => exact .inr (.inl ⟨rfl, rfl⟩)
  | some law =>
    by_cases h1 : h.fileSize.toNat = 58 + h.payloadLength
    · by_cases h2 : h.sampleLength = h.payloadLength
      · by_cases h3 : 4294967295 < 44 + 2 * h.payloadLength
        · exact .inr (.inr ⟨⟨law, rfl⟩, .inr (.inr h3), by simp [h1, h2, h3]⟩)
        · exact .inl ⟨law, rfl, h1, h2, by omega, by simp [h1, h2, h3]⟩
      · exact .inr (.inr ⟨⟨law, rfl⟩, .inr (.inl h2), by simp [h1, h2]⟩)
    · exact .inr (.inr ⟨⟨law, rfl⟩, .inl h1, by simp [h1]⟩)

/-! ### The conversion steps -/

/-- The step leaving `Idle` of a conversion from a linear source (R203). -/
theorem convReadHeader_l2c_cases (law : Law) (s : State) :
    (s.sourceHeld = true ∧ convReadHeader (.l2c law) s = .next s) ∨
    (s.sourceHeld = false ∧ ¬ s.cursor + 44 ≤ s.source.length ∧ convReadHeader (.l2c law) s = .next (State.raise
      { s with
        pending := false, law := some law
        cursor := shortReadCursor s.freeDraws s.cursor s.source.length
        freeDraws := s.freeDraws + 1 } .truncatedHeader)) ∨
    (s.sourceHeld = false ∧ s.cursor + 44 ≤ s.source.length ∧
      (linFields (slice s.source s.cursor 44)).tagsOk = false ∧
      convReadHeader (.l2c law) s = .next (State.raise
        { s with pending := false, law := some law, cursor := s.cursor + 44 } .badMagic)) ∨
    (s.sourceHeld = false ∧ s.cursor + 44 ≤ s.source.length ∧
      (linFields (slice s.source s.cursor 44)).tagsOk = true ∧
      convReadHeader (.l2c law) s = .next
        { s with
          pending := false, law := some law, cursor := s.cursor + 44
          srcLin := some (linFields (slice s.source s.cursor 44)), seqState := .headerRead }) := by
  unfold convReadHeader linHdrBytes
  rcases readExact_cases 44 { s with pending := false, law := some law } with
    ⟨hh, e⟩ | ⟨hh, h, e⟩ | ⟨hh, h, e⟩
  · exact .inl ⟨hh, by simp only [e]⟩
  · simp only [e]
    rcases parseLin_cases (slice s.source s.cursor 44) with ⟨ht, ep⟩ | ⟨ht, ep⟩
    · exact .inr (.inr (.inr ⟨hh, h, ht, by simp only [ep]⟩))
    · exact .inr (.inr (.inl ⟨hh, h, ht, by simp only [ep]⟩))
  · exact .inr (.inl ⟨hh, h, by simp only [e]⟩)

/-- The step leaving `Idle` of a conversion from a companded source (R203). -/
theorem convReadHeader_c2l_cases (s : State) :
    (s.sourceHeld = true ∧ convReadHeader .c2l s = .next s) ∨
    (s.sourceHeld = false ∧ ¬ s.cursor + 58 ≤ s.source.length ∧ convReadHeader .c2l s = .next (State.raise
      { s with
        pending := false
        cursor := shortReadCursor s.freeDraws s.cursor s.source.length
        freeDraws := s.freeDraws + 1 } .truncatedHeader)) ∨
    (s.sourceHeld = false ∧ s.cursor + 58 ≤ s.source.length ∧
      (cmpFields (slice s.source s.cursor 58)).tagsOk = false ∧
      convReadHeader .c2l s = .next (State.raise
        { s with pending := false, cursor := s.cursor + 58 } .badMagic)) ∨
    (s.sourceHeld = false ∧ s.cursor + 58 ≤ s.source.length ∧
      (cmpFields (slice s.source s.cursor 58)).tagsOk = true ∧
      convReadHeader .c2l s = .next
        { s with
          pending := false, cursor := s.cursor + 58
          srcCmp := some (cmpFields (slice s.source s.cursor 58)), seqState := .headerRead }) := by
  unfold convReadHeader cmpHdrBytes
  rcases readExact_cases 58 { s with pending := false } with ⟨hh, e⟩ | ⟨hh, h, e⟩ | ⟨hh, h, e⟩
  · exact .inl ⟨hh, by simp only [e]⟩
  · simp only [e]
    rcases parseCmp_cases (slice s.source s.cursor 58) with ⟨ht, ep⟩ | ⟨ht, ep⟩
    · exact .inr (.inr (.inr ⟨hh, h, ht, by simp only [ep]⟩))
    · exact .inr (.inr (.inl ⟨hh, h, ht, by simp only [ep]⟩))
  · exact .inr (.inl ⟨hh, h, by simp only [e]⟩)

/-- The step leaving `HeaderRead` with a linear record (R204). -/
theorem convReadPayload_l2c {law : Law} {s : State} {h : LinearHeader} (hs : s.srcLin = some h) :
    convReadPayload (.l2c law) s =
      match validateLin h with
      | .error e => .next (s.raise e)
      | .ok L => convPayload s.law L s := by
  cases hv : validateLin h <;> simp only [convReadPayload, hs, hv]

/-- The step leaving `HeaderRead` with a companded record (R204). -/
theorem convReadPayload_c2l {s : State} {h : CompandedHeader} (hs : s.srcCmp = some h) :
    convReadPayload .c2l s =
      match validateCmp h with
      | .error e => .next (s.raise e)
      | .ok (law, M) => convPayload (some law) M s := by
  cases hv : validateCmp h <;> simp only [convReadPayload, hs, hv]

/-- The step leaving `PayloadRead` with a linear record (R205). -/
theorem convEmitHeader_l2c {l law : Law} {s : State} {h : LinearHeader} (hs : s.srcLin = some h)
    (hl : s.law = some law) :
    convEmitHeader (.l2c l) s =
      emit (serCmp (deriveL2c h law)) .headerDerived s { s with dstCmp := some (deriveL2c h law) } := by
  simp only [convEmitHeader, hs, hl]

/-- The step leaving `PayloadRead` with a companded record (R205). -/
theorem convEmitHeader_c2l {s : State} {h : CompandedHeader} (hs : s.srcCmp = some h) :
    convEmitHeader .c2l s =
      emit (serLin (deriveC2l h)) .headerDerived s { s with dstLin := some (deriveC2l h) } := by
  simp only [convEmitHeader, hs]

/-- The step leaving `HeaderDerived` with a law (R206). -/
theorem convTransform_eq {kind : ConvKind} {s : State} {law : Law} (hl : s.law = some law) :
    convTransform kind s = transformStep law kind.dir s := by
  simp only [convTransform, hl]

/-! ### The move -/

/-- With no host action left the sequencer has the turn. -/
theorem step_sequencer {s : State} (hs : s.script = []) : step s = sequencerTurn s := by
  simp [step, nextMove, hs]

/-- Otherwise the host's next action is taken. -/
theorem step_host {s : State} {a : HostAction} {rest : List HostAction} (hs : s.script = a :: rest) :
    step s = hostAction a { s with script := rest } := by
  simp [step, nextMove, hs]

/-- The sequencer's turn in a busy block that holds a command is one step of that command. -/
theorem sequencerTurn_busy {s : State} {i : Instr} (hb : s.busy = true) (hd : decode s.acmd = .ok i) :
    sequencerTurn s = exec i s := by
  simp [sequencerTurn, sequencerStep, hb, hd]

/-- The sequencer's turn in a quiet block changes nothing. -/
theorem sequencerTurn_quiet {s : State} (hb : s.busy = false) : sequencerTurn s = .next s := by
  simp [sequencerTurn, hb]

end Sys2Proof.Machine
end

