-- ==== Sys2Proof/Laws/PerInstr.lean ====
section
/-! SUPPORT. The per-command family `RoundTrip`: a command's code, built from its fields (R72), is decoded
through the table (R71) to the command. -/

namespace Sys2Proof.Laws.RoundTrip

/-- The code of a command decodes to it, and its bytes decode to it with nothing left over. -/
def Statement (i : Instr) : Prop :=
  i.wellFormed = true ∧ decode (encode i) = .ok i ∧ decodeBytes (encodeBytes i) = .ok (i, [])

theorem alawEnc : Statement .alawEnc := ⟨rfl, rfl, rfl⟩
theorem ulawEnc : Statement .ulawEnc := ⟨rfl, rfl, rfl⟩
theorem alawDec : Statement .alawDec := ⟨rfl, rfl, rfl⟩
theorem ulawDec : Statement .ulawDec := ⟨rfl, rfl, rfl⟩
theorem codecAlawEnc : Statement .codecAlawEnc := ⟨rfl, rfl, rfl⟩
theorem codecUlawEnc : Statement .codecUlawEnc := ⟨rfl, rfl, rfl⟩
theorem codecAlawDec : Statement .codecAlawDec := ⟨rfl, rfl, rfl⟩
theorem codecUlawDec : Statement .codecUlawDec := ⟨rfl, rfl, rfl⟩
theorem convPcmAlaw : Statement .convPcmAlaw := ⟨rfl, rfl, rfl⟩
theorem convPcmUlaw : Statement .convPcmUlaw := ⟨rfl, rfl, rfl⟩
theorem convG711Pcm : Statement .convG711Pcm := ⟨rfl, rfl, rfl⟩

end Sys2Proof.Laws.RoundTrip
end

