-- ==== Sys2Proof/Laws/Safety.lean ====
section
/-! SUPPORT. What the invariant depends on, and that the shared operations keep it: `raise`, `refuse`, `accept`
and `resetBlock`. And runs, one step at a time. -/

namespace Sys2Proof.Machine

/-- What a command's later steps need depends on these fields alone. -/
theorem staged_congr {c : CommandClass} {s t : State} (h : Staged c s) (hState : t.seqState = s.seqState)
    (hLaw : t.law = s.law) (hLin : t.srcLin = s.srcLin) (hCmp : t.srcCmp = s.srcCmp)
    (hLen : t.plen = s.plen) (hIn : t.inBuf = s.inBuf) (hOut : t.outBuf = s.outBuf) : Staged c t := by
  cases c with
  | lut => exact hState.trans h
  | buffer law dir => simpa only [Staged, PayloadStaged, hState, hLaw, hLen, hIn, hOut] using h
  | conv kind =>
    cases kind <;>
      simpa only [Staged, HeaderStaged, Validated, PayloadStaged, hState, hLaw, hLin, hCmp, hLen, hIn, hOut]
        using h

/-- The invariant depends on these fields alone. -/
theorem MachineInv.congr {s t : State} (h : MachineInv s) (hState : t.seqState = s.seqState)
    (hErr : t.err = s.err) (hAcmd : t.acmd = s.acmd) (hPending : t.pending = s.pending)
    (hLaw : t.law = s.law) (hLin : t.srcLin = s.srcLin) (hCmp : t.srcCmp = s.srcCmp)
    (hLen : t.plen = s.plen) (hIn : t.inBuf = s.inBuf) (hOut : t.outBuf = s.outBuf)
    (hMax : t.maxPayloadBytes = s.maxPayloadBytes) (hCursor : t.cursor ≤ t.source.length) :
    MachineInv t where
  cursor_le := hCursor
  plen_lt := hLen ▸ h.plen_lt
  inBuf_le := by
    rw [hIn, hMax]
    exact h.inBuf_le
  err_failed := by
    rw [hErr, hState]
    exact h.err_failed
  pending_idle := by
    rw [hPending, hState]
    exact h.pending_idle
  running hb := by
    have hb' : s.busy = true := by
      rw [← hb]
      simp only [State.busy, hPending, hState]
    obtain ⟨i, hd, hs⟩ := h.running hb'
    exact ⟨i, by rw [hAcmd, hd], staged_congr hs hState hLaw hLin hCmp hLen hIn hOut⟩

/-- Refusal keeps the invariant. -/
theorem MachineInv.refuse {s : State} (h : MachineInv s) : MachineInv s.refuse :=
  h.congr rfl rfl rfl rfl rfl rfl rfl rfl rfl rfl rfl h.cursor_le

/-- The host program is no part of the invariant. -/
theorem MachineInv.withScript {s : State} (h : MachineInv s) (r : List HostAction) :
    MachineInv { s with script := r } :=
  h.congr rfl rfl rfl rfl rfl rfl rfl rfl rfl rfl rfl h.cursor_le

/-- A failure keeps the invariant, once the first step has cleared `PENDING` (R246). -/
theorem MachineInv.raise {s : State} (e : ErrKind) (hPending : s.pending = false)
    (hCursor : s.cursor ≤ s.source.length) (hLen : s.plen < 4294967296)
    (hIn : s.inBuf.length ≤ s.maxPayloadBytes.val) : MachineInv (s.raise e) where
  cursor_le := hCursor
  plen_lt := hLen
  inBuf_le := hIn
  err_failed := by simp
  pending_idle := by simp [hPending]
  running := by simp [hPending]

/-- Acceptance of a command's code keeps the invariant (R22). -/
theorem MachineInv.accept {s : State} {c : Byte} {i : Instr} (h : MachineInv s) (hd : decode c = .ok i) :
    MachineInv (s.accept c) where
  cursor_le := h.cursor_le
  plen_lt := by simp
  inBuf_le := by simp
  err_failed := by simp
  pending_idle := by simp
  running _ := ⟨i, hd, by cases commandClass i <;> simp [Staged]⟩

/-- Reset keeps the invariant (R270). -/
theorem MachineInv.resetBlock {s : State} (h : MachineInv s) : MachineInv s.resetBlock where
  cursor_le := h.cursor_le
  plen_lt := by simp
  inBuf_le := by simp
  err_failed := by simp
  pending_idle := by simp
  running := by simp

/-- A command past its first step is not pending. -/
theorem MachineInv.not_pending {s : State} (h : MachineInv s) (hs : s.seqState ≠ .idle) :
    s.pending = false := by
  cases hp : s.pending with
  | false => rfl
  | true => exact absurd (h.pending_idle hp) hs

/-- A busy block has no error (R22, R23). -/
theorem MachineInv.busy_err {s : State} (h : MachineInv s) (hb : s.busy = true) : s.err = none := by
  cases he : s.err with
  | none => rfl
  | some e =>
    have hf := h.err_failed.mp (by rw [he]; rfl)
    have hp := h.not_pending (by rw [hf]; decide)
    simp [State.busy, hp, hf, SeqState.running] at hb

/-- A busy block in `Idle` is pending (R26). -/
theorem pending_of_busy {s : State} (hb : s.busy = true) (hs : s.seqState = .idle) : s.pending = true := by
  simpa [State.busy, hs, SeqState.running] using hb

/-- What a validated linear header's length is (R165). -/
theorem validateLin_length {h : LinearHeader} {L : Nat} (e : validateLin h = .ok L) :
    L = h.dataLen.toNat ∧ L % 2 = 0 ∧ L < 4294967296 := by
  rcases validateLin_cases h with ⟨-, -, hp, ev⟩ | ⟨-, ev⟩ | ⟨-, -, -, ev⟩ <;> rw [ev] at e <;> cases e
  exact ⟨rfl, hp, h.dataLen.isLt⟩

/-- What a validated companded header's length is (R166). -/
theorem validateCmp_length {h : CompandedHeader} {law : Law} {M : Nat} (e : validateCmp h = .ok (law, M)) :
    M = h.payloadLength ∧ 44 + 2 * M ≤ 4294967295 := by
  rcases validateCmp_cases h with ⟨l, -, -, -, hm, ev⟩ | ⟨-, ev⟩ | ⟨-, -, ev⟩ <;> rw [ev] at e <;> cases e
  exact ⟨rfl, hm⟩

/-- A run of one more step. -/
theorem run_succ {k : Nat} {s s' : State} (h : step s = .next s') :
    Host.Core.run Sys2Proof.core (k + 1) s = Host.Core.run Sys2Proof.core k s' := by
  have h' : Sys2Proof.core.step s = .next s' := h
  simp only [Host.Core.run, h']

/-- With the host program over, a busy block's step is the step of its command. -/
theorem step_alone {s : State} {i : Instr} (hs : s.script = []) (hd : decode s.acmd = .ok i)
    (hb : s.busy = true) : step s = exec i s := by
  rw [step_sequencer hs, sequencerTurn_busy hb hd]

end Sys2Proof.Machine
end

