-- ==== Sys2Proof/Tests/Slice0.lean ====
section
/-! SUPPORT. Tests: the checks of WellFormed, command words written out bit by bit, the spec's own tables and
vectors (95_test_vectors.md; R107, R108), and for every obligation with hypotheses a concrete state and operands
that meet them together. -/

open Sys2Proof Sys2Proof.Machine Statements

/-! ### States and bytes the tests share -/

/-- A quiet block with a host program. -/
def Tests.quiet (script : List HostAction) : State := { State.reset with script := script }

/-- A block that has accepted command `i`. -/
def Tests.ready (i : Instr) : State := { State.reset with acmd := encode i, pending := true }

/-- A block that has accepted command `i`, with a byte source and the host's answers. -/
def Tests.loaded (i : Instr) (source : List Byte) (answers : List WriteAnswer) : State :=
  { Tests.ready i with source := source, answers := answers }

/-- A block in a later state of command `i`. -/
def Tests.atState (i : Instr) (st : SeqState) : State := { State.reset with acmd := encode i, seqState := st }

/-- The 48-byte linear source of 95 S1. -/
def Tests.linearSource : List Byte :=
  [0x52, 0x49, 0x46, 0x46, 0x30, 0x00, 0x00, 0x00, 0x57, 0x41, 0x56, 0x45, 0x66, 0x6D, 0x74, 0x20] ++
  [0x10, 0x00, 0x00, 0x00, 0x01, 0x00, 0x01, 0x00, 0x40, 0x1F, 0x00, 0x00, 0x80, 0x3E, 0x00, 0x00] ++
  [0x02, 0x00, 0x10, 0x00, 0x64, 0x61, 0x74, 0x61, 0x04, 0x00, 0x00, 0x00] ++ [0x00, 0x00, 0xFF, 0x7F]

/-- The 60-byte companded output of 95 S1: a 58-byte header and two codewords. -/
def Tests.compandedSource : List Byte :=
  [0x52, 0x49, 0x46, 0x46, 0x3C, 0x00, 0x00, 0x00, 0x57, 0x41, 0x56, 0x45, 0x66, 0x6D, 0x74, 0x20] ++
  [0x12, 0x00, 0x00, 0x00, 0x07, 0x00, 0x01, 0x00, 0x40, 0x1F, 0x00, 0x00, 0x40, 0x1F, 0x00, 0x00] ++
  [0x01, 0x00, 0x08, 0x00, 0x00, 0x00, 0x66, 0x61, 0x63, 0x74, 0x04, 0x00, 0x00, 0x00, 0x02, 0x00] ++
  [0x00, 0x00, 0x64, 0x61, 0x74, 0x61, 0x02, 0x00, 0x00, 0x00] ++ [0xFF, 0x80]

/-- The 48 bytes the second conversion of 95 P2 appends to the sink. -/
def Tests.linearOutput : List Byte :=
  [0x52, 0x49, 0x46, 0x46, 0x30, 0x00, 0x00, 0x00, 0x57, 0x41, 0x56, 0x45, 0x66, 0x6D, 0x74, 0x20] ++
  [0x10, 0x00, 0x00, 0x00, 0x01, 0x00, 0x01, 0x00, 0x40, 0x1F, 0x00, 0x00, 0x80, 0x3E, 0x00, 0x00] ++
  [0x02, 0x00, 0x10, 0x00, 0x64, 0x61, 0x74, 0x61, 0x04, 0x00, 0x00, 0x00] ++ [0x00, 0x00, 0x7C, 0x7D]

/-- The record of the S1 linear header. -/
def Tests.linHeader : LinearHeader where
  riffTag := tagRiff
  fileSize := 48
  waveFmtTag := tagWaveFmt
  fmtSize := 16
  formatTag := 1
  channels := 1
  sampleRate := 8000
  byteRate := 16000
  frameBytes := 2
  bitsPerSample := 16
  dataTag := tagData
  dataLen := 4

/-- The record of the S1 companded header. -/
def Tests.cmpHeader : CompandedHeader where
  riffTag := tagRiff
  fileSize := 60
  waveFmtTag := tagWaveFmt
  fmtSize := 18
  formatTag := 7
  channels := 1
  sampleRate := 8000
  byteRate := 8000
  blockAlign := 1
  bitsPerSample := 8
  cbSize := 0
  factTag := tagFact
  factSizeLo := 4
  factSizeHi := 0
  sampleLenLo := 2
  sampleLenHi := 0
  dataTag := tagData
  dataLenLo := 2
  dataLenHi := 0
  trailer := 0xFFFF

/-- What a test reads of an outcome; `none` for a fault or a refusal. -/
def Tests.look {α : Type} (f : State → α) : StepOutcome → Option α
  | .next t => some (f t)
  | .fault _ => none
  | .refused _ => none

open Tests

/-! ### WellFormed: each check refuses an ill-formed term -/

/-- Offset 0x14 is no register (R21; 95 X6). -/
theorem test_wellFormed_refuses_read_outside_the_port : (HostAction.read 0x14).wellFormed = false := by decide

/-- A misaligned offset is no register (R54). -/
theorem test_wellFormed_refuses_misaligned_write : (HostAction.write 0x09 0).wellFormed = false := by decide

/-- `STATUS` and `DOUT` cannot be written (R21; 95 X6). -/
theorem test_wellFormed_refuses_read_only_registers :
    (HostAction.write 0x04 0).wellFormed = false ∧ (HostAction.write 0x0C 0).wellFormed = false := by decide

/-- Reserved codes cannot be written to `CMD` (R73; 95 X1, X2, X3). -/
theorem test_wellFormed_refuses_reserved_codes :
    (HostAction.write 0x00 0x00).wellFormed = false ∧ (HostAction.write 0x00 0x14).wellFormed = false ∧
    (HostAction.write 0x00 0x33).wellFormed = false := by decide

/-- Bits 31:8 of a `CMD` write are ignored (R22; 95 X8). -/
theorem test_wellFormed_accepts_code_with_high_bits :
    (HostAction.write 0x00 0x110).wellFormed = true := by decide

/-! ### Decoding: words written out bit by bit from R70 to R72 -/

/-- Group 1: `GRP` 0001, `V[3:2]` 00, `DIR`, `LAW` (R71, R72). -/
theorem test_decode_lut_words :
    decode 0b00010000#8 = .ok .alawEnc ∧ decode 0b00010001#8 = .ok .ulawEnc ∧
    decode 0b00010010#8 = .ok .alawDec ∧ decode 0b00010011#8 = .ok .ulawDec := ⟨rfl, rfl, rfl, rfl⟩

/-- Group 2: `GRP` 0010, `V[3:2]` 00, `DIR`, `LAW` (R71, R72). -/
theorem test_decode_buffer_words :
    decode 0b00100000#8 = .ok .codecAlawEnc ∧ decode 0b00100001#8 = .ok .codecUlawEnc ∧
    decode 0b00100010#8 = .ok .codecAlawDec ∧ decode 0b00100011#8 = .ok .codecUlawDec :=
  ⟨rfl, rfl, rfl, rfl⟩

/-- Group 3: `GRP` 0011, `SEL` (R71, R72). -/
theorem test_decode_conversion_words :
    decode 0b00110000#8 = .ok .convPcmAlaw ∧ decode 0b00110001#8 = .ok .convPcmUlaw ∧
    decode 0b00110010#8 = .ok .convG711Pcm := ⟨rfl, rfl, rfl⟩

/-- `V[3:2]` must be 0 in groups 1 and 2, and `SEL = 3` is reserved (R72, R73). -/
theorem test_decode_reserved_words :
    decode 0b00010100#8 = .error (.reservedCode 0x14) ∧ decode 0b00101000#8 = .error (.reservedCode 0x28) ∧
    decode 0b00110011#8 = .error (.reservedCode 0x33) := ⟨rfl, rfl, rfl⟩

/-- The host's two questions on one row: `ULAW_DEC`, 8 bits, 0x13. -/
theorem test_decodeTableWord : decodeTableWord 8 0x13 = some .ulawDec ∧ decodeTableWord 8 0x99 = none :=
  ⟨rfl, rfl⟩

/-- The next step after reset runs the word placed: `ULAW_DEC` on `DIN = 0` gives 0x8284 (R114). -/
theorem test_withFetchWord_runs_the_word :
    look State.dout (step (State.reset.withFetchWord 8 0x13)) = some 0x8284 := by decide

/-! ### The transforms: the spec's tables -/

/-- R107: `DEC_A`, all 256 entries. -/
theorem test_alaw_decode_table : (List.range 256).map (fun c => alawDecode (BitVec.ofNat 8 c)) =
  [-5504, -5248, -6016, -5760, -4480, -4224, -4992, -4736, -7552, -7296, -8064, -7808, -6528, -6272, -7040, -6784] ++
  [-2752, -2624, -3008, -2880, -2240, -2112, -2496, -2368, -3776, -3648, -4032, -3904, -3264, -3136, -3520, -3392] ++
  [-22016, -20992, -24064, -23040, -17920, -16896, -19968, -18944, -30208, -29184, -32256, -31232, -26112, -25088, -28160, -27136] ++
  [-11008, -10496, -12032, -11520, -8960, -8448, -9984, -9472, -15104, -14592, -16128, -15616, -13056, -12544, -14080, -13568] ++
  [-344, -328, -376, -360, -280, -264, -312, -296, -472, -456, -504, -488, -408, -392, -440, -424] ++
  [-88, -72, -120, -104, -24, -8, -56, -40, -216, -200, -248, -232, -152, -136, -184, -168] ++
  [-1376, -1312, -1504, -1440, -1120, -1056, -1248, -1184, -1888, -1824, -2016, -1952, -1632, -1568, -1760, -1696] ++
  [-688, -656, -752, -720, -560, -528, -624, -592, -944, -912, -1008, -976, -816, -784, -880, -848] ++
  [5504, 5248, 6016, 5760, 4480, 4224, 4992, 4736, 7552, 7296, 8064, 7808, 6528, 6272, 7040, 6784] ++
  [2752, 2624, 3008, 2880, 2240, 2112, 2496, 2368, 3776, 3648, 4032, 3904, 3264, 3136, 3520, 3392] ++
  [22016, 20992, 24064, 23040, 17920, 16896, 19968, 18944, 30208, 29184, 32256, 31232, 26112, 25088, 28160, 27136] ++
  [11008, 10496, 12032, 11520, 8960, 8448, 9984, 9472, 15104, 14592, 16128, 15616, 13056, 12544, 14080, 13568] ++
  [344, 328, 376, 360, 280, 264, 312, 296, 472, 456, 504, 488, 408, 392, 440, 424] ++
  [88, 72, 120, 104, 24, 8, 56, 40, 216, 200, 248, 232, 152, 136, 184, 168] ++
  [1376, 1312, 1504, 1440, 1120, 1056, 1248, 1184, 1888, 1824, 2016, 1952, 1632, 1568, 1760, 1696] ++
  [688, 656, 752, 720, 560, 528, 624, 592, 944, 912, 1008, 976, 816, 784, 880, 848] := by
  decide +kernel

/-- R108: `DEC_U`, all 256 entries. -/
theorem test_ulaw_decode_table : (List.range 256).map (fun c => ulawDecode (BitVec.ofNat 8 c)) =
  [-32124, -31100, -30076, -29052, -28028, -27004, -25980, -24956, -23932, -22908, -21884, -20860, -19836, -18812, -17788, -16764] ++
  [-15996, -15484, -14972, -14460, -13948, -13436, -12924, -12412, -11900, -11388, -10876, -10364, -9852, -9340, -8828, -8316] ++
  [-7932, -7676, -7420, -7164, -6908, -6652, -6396, -6140, -5884, -5628, -5372, -5116, -4860, -4604, -4348, -4092] ++
  [-3900, -3772, -3644, -3516, -3388, -3260, -3132, -3004, -2876, -2748, -2620, -2492, -2364, -2236, -2108, -1980] ++
  [-1884, -1820, -1756, -1692, -1628, -1564, -1500, -1436, -1372, -1308, -1244, -1180, -1116, -1052, -988, -924] ++
  [-876, -844, -812, -780, -748, -716, -684, -652, -620, -588, -556, -524, -492, -460, -428, -396] ++
  [-372, -356, -340, -324, -308, -292, -276, -260, -244, -228, -212, -196, -180, -164, -148, -132] ++
  [-120, -112, -104, -96, -88, -80, -72, -64, -56, -48, -40, -32, -24, -16, -8, 0] ++
  [32124, 31100, 30076, 29052, 28028, 27004, 25980, 24956, 23932, 22908, 21884, 20860, 19836, 18812, 17788, 16764] ++
  [15996, 15484, 14972, 14460, 13948, 13436, 12924, 12412, 11900, 11388, 10876, 10364, 9852, 9340, 8828, 8316] ++
  [7932, 7676, 7420, 7164, 6908, 6652, 6396, 6140, 5884, 5628, 5372, 5116, 4860, 4604, 4348, 4092] ++
  [3900, 3772, 3644, 3516, 3388, 3260, 3132, 3004, 2876, 2748, 2620, 2492, 2364, 2236, 2108, 1980] ++
  [1884, 1820, 1756, 1692, 1628, 1564, 1500, 1436, 1372, 1308, 1244, 1180, 1116, 1052, 988, 924] ++
  [876, 844, 812, 780, 748, 716, 684, 652, 620, 588, 556, 524, 492, 460, 428, 396] ++
  [372, 356, 340, 324, 308, 292, 276, 260, 244, 228, 212, 196, 180, 164, 148, 132] ++
  [120, 112, 104, 96, 88, 80, 72, 64, 56, 48, 40, 32, 24, 16, 8, 0] := by
  decide +kernel

/-- 95 §2.1: A-law codewords on both sides of segment boundaries, at the clamp and at the extremes. -/
theorem test_alaw_encode_vectors :
    [-32768, -32635, -31744, -16384, -256, -255, -17, -16, -1, 0, 15, 16, 255, 256, 8191, 8192, 31743, 31744].map
        alawEncode =
      [0x2A, 0x2A, 0x2A, 0x25, 0x45, 0x5A, 0x54, 0x54, 0x55, 0xD5, 0xD5, 0xD4, 0xDA, 0xC5, 0x8A, 0xB5, 0xAB,
        0xAA] := by
  decide +kernel

/-- 95 §2.1: µ-law codewords on both sides of segment boundaries, at the clamp and at the extremes. -/
theorem test_ulaw_encode_vectors :
    [-32768, -32635, -16384, -4097, -100, -5, -4, -3, -1, 0, 3, 4, 127, 1000, 1023, 8158, 16384, 32635].map
        ulawEncode =
      [0x00, 0x00, 0x0F, 0x2F, 0x72, 0x7E, 0x7E, 0x7F, 0x7F, 0xFF, 0xFF, 0xFE, 0xEF, 0xCE, 0xCD, 0x9F, 0x8F,
        0x80] := by
  decide +kernel

/-! ### Commands: one step each, from the spec's vectors -/

/-- 95 §2.1, R111: 1000 gives 0x00FA, and −32768 gives 0x002A. -/
theorem test_alawEnc :
    look State.dout (exec .alawEnc { ready .alawEnc with din := 0x03E8 }) = some 0x00FA ∧
    look State.dout (exec .alawEnc { ready .alawEnc with din := 0x8000 }) = some 0x002A := by decide

/-- 95 §2.1, R112: 1000 gives 0x00CE, and −1 gives 0x007F; the command ends in `Done`, STATUS 0x06. -/
theorem test_ulawEnc :
    look State.dout (exec .ulawEnc { ready .ulawEnc with din := 0x03E8 }) = some 0x00CE ∧
    look State.dout (exec .ulawEnc { ready .ulawEnc with din := 0xFFFF }) = some 0x007F ∧
    look State.statusWord (exec .ulawEnc { ready .ulawEnc with din := 0xFFFF }) = some 0x06 := by decide

/-- 95 §2.2, R113: `DIN[15:8]` is ignored. -/
theorem test_alawDec :
    look State.dout (exec .alawDec { ready .alawDec with din := 0xAB55 }) = some 0xFFF8 ∧
    look State.dout (exec .alawDec { ready .alawDec with din := 0x00FA }) = some 0x03F0 := by decide

/-- 95 §2.2, R114. -/
theorem test_ulawDec :
    look State.dout (exec .ulawDec { ready .ulawDec with din := 0x12FF }) = some 0x0000 ∧
    look State.dout (exec .ulawDec { ready .ulawDec with din := 0x00CE }) = some 0x03DC := by decide

/-- 95 B5, B11: the codec step on four samples, and an odd length. -/
theorem test_codecAlawEnc :
    look State.outBuf (exec .codecAlawEnc
      { Tests.atState .codecAlawEnc .payloadRead with
        inBuf := [0x00, 0x80, 0xFF, 0xFF, 0xE8, 0x03, 0x18, 0xFC] }) = some [0x2A, 0x55, 0xFA, 0x7A] ∧
    look State.statusWord (exec .codecAlawEnc { ready .codecAlawEnc with len := 1 }) = some 0x57 := by decide

/-- 95 B6, B12. -/
theorem test_codecUlawEnc :
    look State.outBuf (exec .codecUlawEnc
      { Tests.atState .codecUlawEnc .payloadRead with
        inBuf := [0x00, 0x80, 0xFF, 0xFF, 0xE8, 0x03, 0x18, 0xFC] }) = some [0x00, 0x7F, 0xCE, 0x4E] ∧
    look State.statusWord (exec .codecUlawEnc { ready .codecUlawEnc with len := 3 }) = some 0x57 := by decide

/-- 95 B7: an odd `LEN` is valid for a decode; STATUS is then 0x0A. -/
theorem test_codecAlawDec :
    look (fun t => (t.inBuf, t.statusWord)) (exec .codecAlawDec
      { loaded .codecAlawDec [0x00, 0xFF, 0x55] [] with len := 3 }) = some ([0x00, 0xFF, 0x55], 0x0A) ∧
    look State.outBuf (exec .codecAlawDec
      { Tests.atState .codecAlawDec .payloadRead with inBuf := [0x00, 0xFF, 0x55] }) =
        some [0x80, 0xEA, 0x50, 0x03, 0xF8, 0xFF] := by decide

/-- 95 B8, B15: the codec step, and a write that fails after one byte. -/
theorem test_codecUlawDec :
    look State.outBuf (exec .codecUlawDec
      { Tests.atState .codecUlawDec .payloadRead with inBuf := [0x00, 0x7F, 0xFE] }) =
        some [0x84, 0x82, 0x00, 0x00, 0x08, 0x00] ∧
    look (fun t => (t.sink, t.statusWord)) (exec .codecUlawDec
      { Tests.atState .codecUlawDec .payloadTransformed with
        outBuf := [0x08, 0x00, 0x00, 0x7E], answers := [.writeFailure 1] }) = some ([0x08], 0x47) := by decide

/-- 95 S1: the header read gives the record, and V1 with law `A` the header image the sink receives. -/
theorem test_convPcmAlaw :
    look (fun t => (t.srcLin, t.cursor)) (exec .convPcmAlaw (loaded .convPcmAlaw linearSource [])) =
      some (some linHeader, 44) ∧
    look State.sink (exec .convPcmAlaw
      { Tests.atState .convPcmAlaw .payloadRead with srcLin := some linHeader, law := some .A, answers := [.ok] }) =
        some ((compandedSource.take 58).set 20 0x06) := by decide +kernel

/-- 95 S1: the header image the sink receives, and H10 (a frame of 0 bytes): STATUS 0x67. -/
theorem test_convPcmUlaw :
    look State.sink (exec .convPcmUlaw
      { Tests.atState .convPcmUlaw .payloadRead with srcLin := some linHeader, law := some .U, answers := [.ok] }) =
        some (compandedSource.take 58) ∧
    look State.statusWord (exec .convPcmUlaw
      { Tests.atState .convPcmUlaw .headerRead with srcLin := some { linHeader with frameBytes := 0 } }) =
        some 0x67 := by decide +kernel

/-- 95 P2: the law is taken from the header and the linear image is the sink's; H22 (a standard RIFF size):
STATUS 0x57. -/
theorem test_convG711Pcm :
    look (fun t => (t.law, t.sink)) (exec .convG711Pcm
      { Tests.atState .convG711Pcm .payloadRead with
        srcCmp := some cmpHeader, law := some .U, answers := [.ok] }) =
        some (some .U, linearOutput.take 44) ∧
    look State.statusWord (exec .convG711Pcm
      { Tests.atState .convG711Pcm .headerRead with srcCmp := some { cmpHeader with fileSize := 52 } }) =
        some 0x57 := by decide +kernel

/-! ### The headers, the buffers and the port -/

/-- 95 S1: parsing the two images gives the records, and the serializers give the images back. -/
theorem test_header_images :
    parseLin (linearSource.take 44) = .ok linHeader ∧ serLin linHeader = linearSource.take 44 ∧
    parseCmp (compandedSource.take 58) = .ok cmpHeader ∧ serCmp cmpHeader = compandedSource.take 58 :=
  ⟨rfl, rfl, rfl, rfl⟩

/-- 95 V3, V5, V8: floor division, a split length above 65535, and a byte rate that wraps. -/
theorem test_derived_fields :
    (deriveL2c { linHeader with byteRate := 16001, frameBytes := 3, dataLen := 6 } .A).byteRate = 5333 ∧
    (deriveL2c { linHeader with dataLen := 200000 } .A).fileSize = 100058 ∧
    (deriveL2c { linHeader with dataLen := 200000 } .A).dataLenLo = 34464 ∧
    (deriveL2c { linHeader with dataLen := 200000 } .A).sampleLenHi = 1 ∧
    (deriveC2l { cmpHeader with byteRate := 0x80000001 }).byteRate = 2 := ⟨rfl, rfl, rfl, rfl, rfl⟩

/-- 95 H27 and the last row of S2: the largest valid companded length, and the next one. -/
theorem test_companded_length_limit :
    validateCmp { cmpHeader with
      fileSize := 2147483683, sampleLenLo := 0xFFE9, sampleLenHi := 0x7FFF, dataLenLo := 0xFFE9
      dataLenHi := 0x7FFF } = .ok (.U, 2147483625) ∧
    validateCmp { cmpHeader with
      fileSize := 2147483684, sampleLenLo := 0xFFEA, sampleLenHi := 0x7FFF, dataLenLo := 0xFFEA
      dataLenHi := 0x7FFF } = .error .malformedPayload := ⟨rfl, rfl⟩

/-- R53: a buffer write is little-endian and stays in bounds. -/
theorem test_buffer_access :
    memWrite [1, 2, 3, 4] 1 2 0xABCD = some [1, 0xCD, 0xAB, 4] ∧ memRead [1, 0xCD, 0xAB, 4] 1 2 = some 0xABCD ∧
    memRead [1, 2, 3, 4] 3 2 = none ∧ memWrite [1, 2, 3, 4] 4 1 0 = none := by decide

/-- 95 X4, X5: a write while busy is refused and changes nothing but the mark. -/
theorem test_port_refuses_writes_while_busy :
    (ready .convPcmUlaw).portWrite 0x00 0x10 = { ready .convPcmUlaw with refusalMark := true } ∧
    (Tests.atState .convPcmUlaw .headerRead).portWrite 0x10 4 =
      { Tests.atState .convPcmUlaw .headerRead with refusalMark := true } := ⟨rfl, rfl⟩

/-- 95 X9: after `Failed` a command is accepted, and STATUS is then 0x08. -/
theorem test_port_accepts_after_failure :
    (({ State.reset with seqState := .failed, err := some .unsupportedEncoding } : State).portWrite 0x00
      0x10).statusWord = 0x08 := by decide

/-- 95 X7: a payload beyond the capacity is refused at the first step, and STATUS stays 0x08. -/
theorem test_capacity_refusal :
    look (fun t => (t.statusWord, t.refusalMark, t.plen)) (exec .codecAlawDec
      { ready .codecAlawDec with len := 100, maxPayloadBytes := 64 }) = some (0x08, true, 0) := by decide

/-- R253, R283 (93 I12): with the host answering no read, a conversion's first step is not taken: STATUS stays 0x08,
`PENDING` included, and nothing is consumed. -/
theorem test_unanswered_read_waits :
    exec .convPcmAlaw { loaded .convPcmAlaw linearSource [] with sourceHeld := true } =
      .next { loaded .convPcmAlaw linearSource [] with sourceHeld := true } ∧
    (loaded .convPcmAlaw linearSource []).statusWord = 0x08 := ⟨rfl, by decide⟩

/-- R283: the host withholds its answers, and gives them again. -/
theorem test_host_withholds_and_answers :
    look State.sourceHeld (step (quiet [.holdReads true])) = some true ∧
    look State.sourceHeld (step { quiet [.holdReads false] with sourceHeld := true }) = some false := by decide

/-! ### Witnesses: concrete states and operands that meet each obligation's hypotheses -/

/-- An accepted command's state meets the invariant. -/
theorem Tests.ready_inv (i : Instr) : MachineInv (ready i) where
  cursor_le := Nat.le_refl _
  plen_lt := by simp [ready, State.reset]
  inBuf_le := Nat.zero_le _
  err_failed := by simp [ready, State.reset]
  pending_idle _ := rfl
  running _ := ⟨i, by cases i <;> rfl, by cases i <;> trivial⟩

/-- A conversion from a linear source, its header read, meets the invariant when its tags match. -/
theorem Tests.linear_inv (h : LinearHeader) (ht : h.tagsOk = true) :
    MachineInv { Tests.atState .convPcmUlaw .headerRead with law := some .U, srcLin := some h } where
  cursor_le := Nat.le_refl _
  plen_lt := by simp [Tests.atState, State.reset]
  inBuf_le := Nat.zero_le _
  err_failed := by simp [Tests.atState, State.reset]
  pending_idle := by simp [Tests.atState, State.reset]
  running _ := ⟨.convPcmUlaw, show decode (encode .convPcmUlaw) = .ok .convPcmUlaw from rfl, rfl, h, rfl, ht⟩

/-- A conversion from a companded source, its header read, meets the invariant when its tags match. -/
theorem Tests.companded_inv (h : CompandedHeader) (ht : h.tagsOk = true) :
    MachineInv { Tests.atState .convG711Pcm .headerRead with srcCmp := some h } where
  cursor_le := Nat.le_refl _
  plen_lt := by simp [Tests.atState, State.reset]
  inBuf_le := Nat.zero_le _
  err_failed := by simp [Tests.atState, State.reset]
  pending_idle := by simp [Tests.atState, State.reset]
  running _ := ⟨.convG711Pcm, show decode (encode .convG711Pcm) = .ok .convG711Pcm from rfl, h, rfl, ht⟩

/-- The two ends of a command meet the invariant. -/
theorem Tests.ended_inv :
    MachineInv { State.reset with seqState := .done } ∧
    MachineInv { State.reset with seqState := .failed, err := some .shortRead } := by
  constructor <;> constructor <;> simp [State.reset, State.busy, SeqState.running]

/-- A LUT command's step is one the invariant is kept by. -/
theorem witness_EveryStepKeepsInvariant :
    MachineInv (ready .ulawEnc) ∧
    step (ready .ulawEnc) =
      .next { ready .ulawEnc with pending := false, dout := 0x00FF, seqState := .done } :=
  ⟨ready_inv _, rfl⟩

/-- Reset while busy (R272). -/
theorem witness_HostResetSetsTheBlockAndNothingElse :
    ({ ready .convPcmUlaw with script := [.reset, .read 0x04] } : State).refusalMark = false ∧
    ({ ready .convPcmUlaw with script := [.reset, .read 0x04] } : State).script = .reset :: [.read 0x04] :=
  ⟨rfl, rfl⟩

theorem witness_StatusFields :
    MachineInv (ready .alawEnc) ∧ (ready .alawEnc).seqState ≠ .failed ∧ 7 ≤ 7 := ⟨ready_inv _, by decide, by decide⟩

theorem witness_BusyDefinition :
    State.reset.seqState = .idle ∧ State.reset.pending = false ∧
    MachineInv { State.reset with seqState := .done } ∧
    MachineInv { State.reset with seqState := .failed, err := some .shortRead } := ⟨rfl, rfl, ended_inv⟩

/-- Each of the five offsets, and the offsets next to them that are no register. -/
theorem witness_RegisterReads :
    (∀ off ∈ [0x00, 0x04, 0x08, 0x0C, 0x10, 0x01, 0x03, 0x0F, 0x11, 0x14],
      (quiet [.read off]).refusalMark = false ∧ (quiet [.read off]).script = .read off :: []) ∧
    (∀ off ∈ [0x01, 0x03, 0x0F, 0x11, 0x14], off ∉ [0x00, 0x04, 0x08, 0x0C, 0x10]) := by
  refine ⟨fun off _ => ⟨rfl, rfl⟩, by decide⟩

/-- An acceptance with ignored high bits (95 X8), a write while busy, and a reserved code. -/
theorem witness_CommandAcceptance :
    ((quiet [.write 0x00 0x110]).refusalMark = false ∧
      (quiet [.write 0x00 0x110]).script = .write 0x00 0x110 :: [] ∧
      (quiet [.write 0x00 0x110]).busy = false ∧ decode ((0x110 : Word).setWidth 8) = .ok .alawEnc) ∧
    ({ ready .alawEnc with script := [.write 0x00 0x11] } : State).busy = true ∧
    (∀ i, decode ((0x33 : Word).setWidth 8) ≠ .ok i) ∧
    (0x110 : Word).setWidth 8 = (0x10 : Word).setWidth 8 := by
  refine ⟨by decide, by decide, ?_, by decide⟩
  intro i
  cases i <;> decide

/-- A block after a failure and a fresh one accept the same command. -/
theorem witness_AcceptanceForgetsThePreviousCommand :
    decode ((0x20 : Word).setWidth 8) = .ok .codecAlawEnc ∧
    ({ quiet [.write 0x00 0x20] with
      seqState := .failed, err := some .badMagic, acmd := 0x31, plen := 7, inBuf := [1] } : State).busy =
        false ∧
    (quiet [.write 0x00 0x20]).busy = false ∧
    (quiet [.write 0x00 0x20]).script = .write 0x00 0x20 :: [] ∧
    (quiet [.write 0x00 0x20]).sourceHeld = false := by decide

/-- Operand writes to a quiet and to a busy block, and the offsets around the writable ones. -/
theorem witness_OtherRegisterWrites :
    ((quiet [.write 0x08 0xFFFF03E8]).busy = false ∧ (quiet [.write 0x10 4]).busy = false ∧
      ({ ready .alawEnc with script := [.write 0x08 1] } : State).busy = true) ∧
    (∀ off ∈ [0x04, 0x0C, 0x01, 0x07, 0x11, 0x14],
      off ∉ [0x00, 0x08, 0x10] ∧ (quiet [.write off 0]).script = .write off 0 :: [] ∧
      (quiet [.write off 0]).refusalMark = false) := by
  refine ⟨by decide, fun off h => ⟨?_, rfl, rfl⟩⟩
  revert off
  decide

/-- Each class of command has one, and each clause about `DIR` and `LAW` has one on either side. -/
theorem witness_CodeFieldsAgreeWithTheTable :
    commandClass .codecUlawDec = .buffer .U .dec ∧ commandClass .codecAlawEnc = .buffer .A .enc ∧
    commandClass .ulawDec = .lut ∧ commandClass .alawEnc = .lut ∧ commandClass .convPcmAlaw = .conv (.l2c .A) ∧
    commandClass .convPcmUlaw = .conv (.l2c .U) ∧ commandClass .convG711Pcm = .conv .c2l := by decide

/-- The reserved codes at both ends of each range, and a write of one. -/
theorem witness_ReservedCodesAreRefused :
    (∀ n ∈ [0x00, 0x0F, 0x14, 0x1F, 0x24, 0x2F, 0x33, 0x3F, 0x40, 0xFF],
      n ≤ 0x0F ∨ (0x14 ≤ n ∧ n ≤ 0x1F) ∨ (0x24 ≤ n ∧ n ≤ 0x2F) ∨ (0x33 ≤ n ∧ n ≤ 0x3F) ∨
        (0x40 ≤ n ∧ n ≤ 0xFF)) ∧
    commandCode ((0x33 : Word).setWidth 8) = false ∧ (quiet [.write 0x00 0x33]).refusalMark = false ∧
    (quiet [.write 0x00 0x33]).script = .write 0x00 0x33 :: [] := by decide

/-- A busy block with the turn, with the host letting it step and while the host waits; and a quiet one. -/
theorem witness_StepRunsTheAcceptedCommand :
    ((ready .alawDec).refusalMark = false ∧ (ready .alawDec).busy = true ∧
      decode (ready .alawDec).acmd = .ok .alawDec ∧ (ready .alawDec).script = []) ∧
    ({ ready .alawDec with script := [.letStep] } : State).script = .letStep :: [] ∧
    ({ ready .alawDec with script := [.wait] } : State).script = .wait :: [] ∧
    ((quiet []).refusalMark = false ∧ (quiet []).busy = false ∧ (quiet []).script = []) ∧
    (quiet [.letStep]).script = .letStep :: [] ∧ (quiet [.wait]).script = .wait :: [] := by decide

/-- The extreme samples. -/
theorem witness_AlawIsExactOnCodewords : IsSample (-32768) ∧ IsSample 32767 := by
  unfold IsSample
  decide

theorem witness_UlawIsExactOnCodewordsButOne :
    (0x7E : Byte) ≠ 0x7F ∧ (0x80 : Byte) ≠ 0x7F ∧ IsSample (-32768) ∧ IsSample (-4) ∧ IsSample (-3) ∧
    IsSample (-1) ∧ IsSample 0 ∧ IsSample 32767 := by
  unfold IsSample
  decide

theorem witness_TransformsAreOdd : (1 : Int) ≤ 1 ∧ (1 : Int) ≤ 32767 ∧ (32767 : Int) ≤ 32767 := by decide

theorem witness_EncodersAreMonotoneAfterDecoding :
    IsSample (-32768) ∧ IsSample (-1) ∧ IsSample 0 ∧ IsSample 32767 ∧ (-1 : Int) ≤ 0 := by
  unfold IsSample
  decide

theorem witness_EachCodewordIsOneInterval : IsSample (-32768) ∧ IsSample 32767 := by
  unfold IsSample
  decide

theorem witness_QuantizationError :
    (-32635 : Int) ≤ -32635 ∧ (-32635 : Int) ≤ 32635 ∧ (32635 : Int) ≤ 32635 ∧ IsSample (-32768) ∧
    IsSample 32767 := by
  unfold IsSample
  decide

theorem witness_ClampedExtremes :
    (IsSample 32635 ∧ (32635 : Int) ≤ 32635) ∧ (IsSample 32767 ∧ (32635 : Int) ≤ 32767) ∧
    (IsSample (-32635) ∧ (-32635 : Int) ≤ -32635) ∧ (IsSample (-32768) ∧ (-32768 : Int) ≤ -32635) := by
  unfold IsSample
  decide

theorem witness_SegmentIsTheLeadingBit : 256 ≤ 256 ∧ 256 ≤ 32635 ∧ 32635 ≤ 32635 ∧ 0 ≤ 32635 := by decide

/-- A LUT command at its first step, and its outcome. -/
theorem witness_LutEncodeResults :
    AtStart (ready .alawEnc) ∧ AtStart (ready .ulawEnc) ∧
    exec .alawEnc (ready .alawEnc) =
      .next { ready .alawEnc with pending := false, dout := 0x00D5, seqState := .done } :=
  ⟨⟨rfl, rfl⟩, ⟨rfl, rfl⟩, rfl⟩

theorem witness_LutDecodeResults : AtStart (ready .alawDec) ∧ AtStart (ready .ulawDec) := by
  unfold AtStart
  decide

theorem witness_LutCommandTakesOneStep :
    (commandClass .ulawEnc = .lut ∧ (quiet [.write 0x00 0x11, .letStep]).refusalMark = false ∧
      (quiet [.write 0x00 0x11, .letStep]).busy = false ∧
      (quiet [.write 0x00 0x11, .letStep]).script =
        .write 0x00 ((encode .ulawEnc).setWidth 32) :: .letStep :: []) ∧
    exec .ulawEnc (ready .ulawEnc) =
      .next { ready .ulawEnc with pending := false, dout := 0x00FF, seqState := .done } :=
  ⟨⟨rfl, rfl, rfl, rfl⟩, rfl⟩

/-- Accesses at the start and up to the last byte of a buffer, and the first ones past it. -/
theorem witness_BufferAccess :
    (0 + 1 ≤ ([7] : List Byte).length ∧ 1 + 2 ≤ ([7, 8, 9] : List Byte).length) ∧
    (1 < 2 ∧ (0 < 1 ∨ 1 + 2 ≤ 0)) ∧ ¬ ((2 = 1 ∨ 2 = 2) ∧ 2 + 2 ≤ ([7, 8, 9] : List Byte).length) ∧
    ¬ ((3 = 1 ∨ 3 = 2) ∧ 0 + 3 ≤ ([7, 8, 9] : List Byte).length) := by decide

theorem witness_SampleCodecIsElementwise :
    (([] : List Byte).length % 2 = 0 ∧ ([0x00, 0x80] : List Byte).length % 2 = 0 ∧
      0 < ([0x00, 0x80] : List Byte).length / 2) ∧ ([0x12] : List Byte).length % 2 ≠ 0 := by decide

/-- 95 B1, and B7, whose length is odd; the length 0 of B9. -/
theorem witness_BufferCommandsReadTheirPayload :
    (commandClass .codecAlawEnc = .buffer .A .enc ∧
      AtStart { loaded .codecAlawEnc [0x00, 0x00, 0xFF, 0x7F] [] with len := 4 } ∧
      ((4 : Word).toNat % 2 = 0) ∧ (4 : Word).toNat ≤ State.reset.maxPayloadBytes.val ∧
      SourceHas 4 (loaded .codecAlawEnc [0x00, 0x00, 0xFF, 0x7F] [])) ∧
    (commandClass .codecAlawDec = .buffer .A .dec ∧
      AtStart { loaded .codecAlawDec [0x00, 0xFF, 0x55] [] with len := 3 } ∧
      (Dir.dec = .enc → (3 : Word).toNat % 2 = 0) ∧ SourceHas 3 (loaded .codecAlawDec [0x00, 0xFF, 0x55] [])) ∧
    SourceHas 0 (ready .codecAlawEnc) ∧
    ({ loaded .codecAlawEnc [0x00, 0x00, 0xFF, 0x7F] [] with len := 4 } : State).sourceHeld = false := by
  unfold AtStart SourceHas
  decide

/-- 95 B11, X7 and B13, and a host that does not answer the read. -/
theorem witness_BufferFirstStepFailures :
    (AtStart { ready .codecAlawEnc with len := 1 } ∧ (1 : Word).toNat % 2 = 1) ∧
    (AtStart { ready .codecAlawDec with len := 100, maxPayloadBytes := 64 } ∧ 64 < (100 : Word).toNat) ∧
    (AtStart { loaded .codecAlawEnc [0x00, 0x00, 0xFF, 0x7F] [] with len := 6 } ∧ (6 : Word).toNat % 2 = 0 ∧
      (6 : Word).toNat ≤ State.reset.maxPayloadBytes.val ∧
      ({ loaded .codecAlawEnc [0x00, 0x00, 0xFF, 0x7F] [] with len := 6 } : State).sourceHeld = false ∧
      ¬ SourceHas 6 (loaded .codecAlawEnc [0x00, 0x00, 0xFF, 0x7F] [])) ∧
    (AtStart { ready .codecAlawEnc with len := 4, sourceHeld := true } ∧ (4 : Word).toNat % 2 = 0 ∧
      (4 : Word).toNat ≤ State.reset.maxPayloadBytes.val) := by
  unfold AtStart SourceHas
  decide

theorem witness_PayloadTransformation :
    (commandClass .codecUlawEnc = .buffer .U .enc ∧ (Tests.atState .codecUlawEnc .payloadRead).seqState = .payloadRead ∧
      (Tests.atState .codecUlawEnc .payloadRead).inBuf.length % 2 = 0) ∧
    (commandClass .convPcmAlaw = .conv (.l2c .A) ∧
      ({ Tests.atState .convPcmAlaw .headerDerived with law := some .A, inBuf := [0x00, 0x80] } : State).law =
        some .A ∧ ([0x00, 0x80] : List Byte).length % 2 = 0) ∧
    (commandClass .convG711Pcm = .conv .c2l ∧
      ({ Tests.atState .convG711Pcm .headerDerived with law := some .U, inBuf := [0x80] } : State).seqState =
        .headerDerived ∧ (ConvKind.dir .c2l = .enc → ([0x80] : List Byte).length % 2 = 0)) := by decide

theorem witness_PayloadWriteAndCompletion :
    commandClass .codecAlawDec ≠ .lut ∧ commandClass .convG711Pcm ≠ .lut ∧
    ({ Tests.atState .codecAlawDec .payloadTransformed with outBuf := [8, 0], answers := [.ok] } : State).answers =
      .ok :: [] ∧
    ({ Tests.atState .codecAlawDec .payloadTransformed with answers := [.writeFailure 0] } : State).answers =
      .writeFailure 0 :: [] ∧
    (Tests.atState .codecAlawDec .payloadTransformed).answers = [] ∧
    (Tests.atState .convG711Pcm .written).seqState = .written := by decide

/-- 95 B1. -/
theorem witness_BufferCommandEndToEnd :
    commandClass .codecAlawEnc = .buffer .A .enc ∧
    SequencerAlone .codecAlawEnc { loaded .codecAlawEnc [0x00, 0x00, 0xFF, 0x7F] [.ok] with len := 4 } ∧
    AtStart { loaded .codecAlawEnc [0x00, 0x00, 0xFF, 0x7F] [.ok] with len := 4 } ∧
    (Dir.enc = .enc → (4 : Word).toNat % 2 = 0) ∧ (4 : Word).toNat ≤ State.reset.maxPayloadBytes.val ∧
    SourceHas (4 : Word).toNat (loaded .codecAlawEnc [0x00, 0x00, 0xFF, 0x7F] [.ok]) ∧
    (loaded .codecAlawEnc [0x00, 0x00, 0xFF, 0x7F] [.ok]).sourceHeld = false ∧
    (loaded .codecAlawEnc [0x00, 0x00, 0xFF, 0x7F] [.ok]).answers = .ok :: [] := by
  unfold SequencerAlone AtStart SourceHas
  decide

theorem witness_HeaderImagesRoundTrip :
    linHeader.tagsOk = true ∧ cmpHeader.tagsOk = true ∧
    ((linearSource.take 44).length = 44 ∧ parseLin (linearSource.take 44) = .ok linHeader) ∧
    ((compandedSource.take 58).length = 58 ∧ parseCmp (compandedSource.take 58) = .ok cmpHeader) :=
  ⟨rfl, rfl, ⟨rfl, rfl⟩, rfl, rfl⟩

/-- 95 H5 and H17: one letter's case is enough. -/
theorem witness_ParseFailsOnlyOnTags :
    parseLin ((linearSource.take 44).set 0 0x72) = .error .badMagic ∧
    parseCmp ((compandedSource.take 58).set 38 0x46) = .error .badMagic := ⟨rfl, rfl⟩

/-- 95 H8, H10, H11, H1. -/
theorem witness_LinearValidation :
    ({ linHeader with formatTag := 3 } : LinearHeader).formatTag ≠ 1 ∧
    ({ linHeader with frameBytes := 0 } : LinearHeader).frameBytes = 0 ∧
    (linHeader.formatTag = 1 ∧ linHeader.frameBytes ≠ 0 ∧ (3 : Word).toNat % 2 ≠ 0) ∧
    linHeader.dataLen.toNat % 2 = 0 := by decide

/-- 95 H19, H22, H23, H27, and the largest length that validates. -/
theorem witness_CompandedValidation :
    (cmpHeader.dataLenLo.toNat + 65536 * cmpHeader.dataLenHi.toNat = 2 ∧ cmpHeader.formatTag = 7 ∧
      cmpHeader.fileSize.toNat = 58 + 2 ∧ cmpHeader.sampleLenLo.toNat + 65536 * cmpHeader.sampleLenHi.toNat = 2) ∧
    (({ cmpHeader with formatTag := 3 } : CompandedHeader).formatTag ≠ 6 ∧
      ({ cmpHeader with formatTag := 3 } : CompandedHeader).formatTag ≠ 7) ∧
    ({ cmpHeader with fileSize := 52 } : CompandedHeader).fileSize.toNat ≠ 58 + 2 ∧
    44 + 2 * 2147483625 ≤ 2 ^ 32 - 1 ∧ 44 + 2 * 2147483626 > 2 ^ 32 - 1 := by decide

theorem witness_CompandedDerivation :
    validateLin linHeader = .ok 4 ∧ validateLin { linHeader with dataLen := 0 } = .ok 0 ∧
    validateLin { linHeader with dataLen := 4294967294 } = .ok 4294967294 := ⟨rfl, rfl, rfl⟩

theorem witness_LinearDerivation :
    validateCmp cmpHeader = .ok (.U, 2) ∧
    validateCmp { cmpHeader with
      fileSize := 58, sampleLenLo := 0, dataLenLo := 0, formatTag := 6 } = .ok (.A, 0) := ⟨rfl, rfl⟩

/-- A source that carries the byte-rate invariant, and the largest companded rate that doubles in 32 bits. -/
theorem witness_DerivedByteRates :
    (validateLin linHeader = .ok 4 ∧
      linHeader.byteRate.toNat = linHeader.sampleRate.toNat * linHeader.frameBytes.toNat) ∧
    (({ cmpHeader with byteRate := 2147483647, sampleRate := 2147483647 } : CompandedHeader).byteRate = 2147483647 ∧
      (2147483647 : Word).toNat < 2 ^ 31) := ⟨⟨rfl, rfl⟩, rfl, by decide⟩

/-- Lengths on both sides of the condition: 4294967250 meets it, 4294967252 does not. -/
theorem witness_DerivedHeadersValidate :
    validateLin { linHeader with dataLen := 4294967250 } = .ok 4294967250 ∧ 44 + 4294967250 ≤ 2 ^ 32 - 1 ∧
    validateLin { linHeader with dataLen := 4294967252 } = .ok 4294967252 ∧
    ¬ 44 + 4294967252 ≤ 2 ^ 32 - 1 ∧ validateCmp cmpHeader = .ok (.U, 2) :=
  ⟨rfl, by decide, rfl, by decide, rfl⟩

/-- 95 H1, H5 and H3; H15, H17 and H16; and for each a host that does not answer the read. -/
theorem witness_ConversionsReadTheirHeader :
    (commandClass .convPcmUlaw = .conv (.l2c .U) ∧ AtStart (loaded .convPcmUlaw linearSource []) ∧
      SourceHas 44 (loaded .convPcmUlaw (linearSource.take 44) []) ∧
      parseLin ((linearSource.drop 0).take 44) = .ok linHeader ∧
      parseLin (((linearSource.set 0 0x72).drop 0).take 44) = .error .badMagic ∧
      ¬ SourceHas 44 (loaded .convPcmUlaw (linearSource.take 43) []) ∧
      (loaded .convPcmUlaw linearSource []).sourceHeld = false ∧
      AtStart { loaded .convPcmUlaw linearSource [] with sourceHeld := true }) ∧
    (AtStart (loaded .convG711Pcm compandedSource []) ∧
      SourceHas 58 (loaded .convG711Pcm (compandedSource.take 58) []) ∧
      parseCmp ((compandedSource.drop 0).take 58) = .ok cmpHeader ∧
      parseCmp (((compandedSource.set 38 0x46).drop 0).take 58) = .error .badMagic ∧
      ¬ SourceHas 58 (loaded .convG711Pcm (compandedSource.take 57) []) ∧
      (loaded .convG711Pcm compandedSource []).sourceHeld = false ∧
      AtStart { loaded .convG711Pcm compandedSource [] with sourceHeld := true }) := by
  unfold AtStart SourceHas
  exact ⟨⟨rfl, ⟨rfl, rfl⟩, by decide, rfl, rfl, by decide, rfl, rfl, rfl⟩,
    ⟨rfl, rfl⟩, by decide, rfl, rfl, by decide, rfl, rfl, rfl⟩

/-- Each outcome of the step leaving `HeaderRead`: valid with its payload, invalid, too long, too short,
unanswered. -/
theorem witness_ConversionsReadTheirPayload :
    (commandClass .convPcmAlaw = .conv (.l2c .A) ∧ validateLin linHeader = .ok 4 ∧
      validateLin { linHeader with frameBytes := 0 } = .error .unsupportedEncoding ∧ 3 < 4 ∧
      SourceHas 4 { loaded .convPcmAlaw linearSource [] with cursor := 44 } ∧
      ¬ SourceHas 4 { loaded .convPcmAlaw linearSource [] with cursor := 45 }) ∧
    (validateCmp cmpHeader = .ok (.U, 2) ∧
      validateCmp { cmpHeader with formatTag := 3 } = .error .unsupportedEncoding ∧ 1 < 2 ∧
      SourceHas 2 { loaded .convG711Pcm compandedSource [] with cursor := 58 } ∧
      ¬ SourceHas 2 { loaded .convG711Pcm compandedSource [] with cursor := 59 }) ∧
    ({ Tests.atState .convPcmAlaw .headerRead with srcLin := some linHeader } : State).seqState = .headerRead ∧
    ({ Tests.atState .convG711Pcm .headerRead with srcCmp := some cmpHeader } : State).srcCmp = some cmpHeader ∧
    4 ≤ State.reset.maxPayloadBytes.val ∧ (loaded .convPcmAlaw linearSource []).sourceHeld = false ∧
    ({ Tests.atState .convPcmAlaw .headerRead with srcLin := some linHeader, sourceHeld := true } : State).sourceHeld =
      true := by
  unfold SourceHas
  exact ⟨⟨rfl, rfl, rfl, by decide, by decide, by decide⟩, ⟨rfl, rfl, by decide, by decide, by decide⟩, rfl, rfl,
    by decide, rfl, rfl⟩

theorem witness_ConversionsEmitTheirHeader :
    (commandClass .convPcmUlaw = .conv (.l2c .U) ∧
      ({ Tests.atState .convPcmUlaw .payloadRead with
        srcLin := some linHeader, law := some .U, answers := [.ok, .ok] } : State).answers = .ok :: [.ok]) ∧
    ({ Tests.atState .convPcmUlaw .payloadRead with
      srcLin := some linHeader, law := some .U, answers := [.writeFailure 20] } : State).answers =
        .writeFailure 20 :: [] ∧
    ({ Tests.atState .convG711Pcm .payloadRead with srcCmp := some cmpHeader } : State).answers = [] := by decide

/-- 95 S1. -/
theorem witness_PcmConversionEndToEnd :
    commandClass .convPcmUlaw = .conv (.l2c .U) ∧
    SequencerAlone .convPcmUlaw (loaded .convPcmUlaw linearSource [.ok, .ok]) ∧
    AtStart (loaded .convPcmUlaw linearSource [.ok, .ok]) ∧
    parseLin ((linearSource.drop 0).take 44) = .ok linHeader ∧ validateLin linHeader = .ok 4 ∧
    4 ≤ State.reset.maxPayloadBytes.val ∧ SourceHas (44 + 4) (loaded .convPcmUlaw linearSource [.ok, .ok]) ∧
    (loaded .convPcmUlaw linearSource [.ok, .ok]).sourceHeld = false ∧
    (loaded .convPcmUlaw linearSource [.ok, .ok]).answers = .ok :: .ok :: [] := by
  unfold SequencerAlone AtStart SourceHas
  exact ⟨rfl, ⟨rfl, rfl, rfl⟩, ⟨rfl, rfl⟩, rfl, rfl, by decide, by decide, rfl, rfl⟩

/-- The second half of 95 P2. -/
theorem witness_G711ConversionEndToEnd :
    SequencerAlone .convG711Pcm (loaded .convG711Pcm compandedSource [.ok, .ok]) ∧
    AtStart (loaded .convG711Pcm compandedSource [.ok, .ok]) ∧
    parseCmp ((compandedSource.drop 0).take 58) = .ok cmpHeader ∧ validateCmp cmpHeader = .ok (.U, 2) ∧
    2 ≤ State.reset.maxPayloadBytes.val ∧
    SourceHas (58 + 2) (loaded .convG711Pcm compandedSource [.ok, .ok]) ∧
    (loaded .convG711Pcm compandedSource [.ok, .ok]).sourceHeld = false ∧
    (loaded .convG711Pcm compandedSource [.ok, .ok]).answers = .ok :: .ok :: [] := by
  unfold SequencerAlone AtStart SourceHas
  exact ⟨⟨rfl, rfl, rfl⟩, ⟨rfl, rfl⟩, rfl, rfl, by decide, by decide, rfl, rfl⟩

/-- A step that moves the cursor, and one that grows the sink. -/
theorem witness_ConversionsReadBeforeTheyWrite :
    commandClass .convPcmUlaw = .conv (.l2c .U) ∧
    (∃ t, exec .convPcmUlaw (loaded .convPcmUlaw linearSource []) = .next t ∧ t.cursor ≠ 0) ∧
    (∃ t, exec .convPcmUlaw { Tests.atState .convPcmUlaw .payloadTransformed with
      outBuf := [0xFF], answers := [.ok] } = .next t ∧ t.sink ≠ []) :=
  ⟨rfl, ⟨_, rfl, by decide⟩, ⟨_, rfl, by decide⟩⟩

/-- A failure in each of the first two steps, and one of a write. -/
theorem witness_ConversionFailureTable :
    (Running .convPcmUlaw (ready .convPcmUlaw) ∧
      look State.err (exec .convPcmUlaw (ready .convPcmUlaw)) = some (some .truncatedHeader)) ∧
    (Running .convPcmUlaw { Tests.atState .convPcmUlaw .headerRead with
        law := some .U, srcLin := some { linHeader with formatTag := 7 } } ∧
      look State.err (exec .convPcmUlaw { Tests.atState .convPcmUlaw .headerRead with
        law := some .U, srcLin := some { linHeader with formatTag := 7 } }) =
          some (some .unsupportedEncoding)) ∧
    look State.err (exec .convPcmUlaw { Tests.atState .convPcmUlaw .payloadTransformed with
      outBuf := [0xFF], answers := [.writeFailure 1] }) = some (some .writeFailure) :=
  ⟨⟨⟨ready_inv _, rfl, rfl⟩, rfl⟩, ⟨⟨linear_inv _ rfl, rfl, rfl⟩, rfl⟩, rfl⟩

theorem witness_FailureEntry :
    State.reset.pending = false ∧ Running .codecAlawEnc (ready .codecAlawEnc) ∧
    Running .convG711Pcm (ready .convG711Pcm) ∧
    look State.seqState (exec .convG711Pcm (ready .convG711Pcm)) = some .failed :=
  ⟨rfl, ⟨ready_inv _, rfl, rfl⟩, ⟨ready_inv _, rfl, rfl⟩, rfl⟩

/-- 95 H11 and H22 while running. -/
theorem witness_MalformedPayloadCases :
    Running .codecAlawEnc (ready .codecAlawEnc) ∧
    Running .convPcmUlaw { Tests.atState .convPcmUlaw .headerRead with
      law := some .U, srcLin := some { linHeader with dataLen := 3 } } ∧
    Running .convG711Pcm { Tests.atState .convG711Pcm .headerRead with
      srcCmp := some { cmpHeader with fileSize := 52 } } :=
  ⟨⟨ready_inv _, rfl, rfl⟩, ⟨linear_inv _ rfl, rfl, rfl⟩, ⟨companded_inv _ rfl, rfl, rfl⟩⟩

/-- 95 H9, H10 and H19 while running. -/
theorem witness_UnsupportedEncodingCases :
    Running .convPcmUlaw { Tests.atState .convPcmUlaw .headerRead with
      law := some .U, srcLin := some { linHeader with formatTag := 7 } } ∧
    Running .convPcmUlaw { Tests.atState .convPcmUlaw .headerRead with
      law := some .U, srcLin := some { linHeader with frameBytes := 0 } } ∧
    Running .convG711Pcm { Tests.atState .convG711Pcm .headerRead with
      srcCmp := some { cmpHeader with formatTag := 3 } } :=
  ⟨⟨linear_inv _ rfl, rfl, rfl⟩, ⟨linear_inv _ rfl, rfl, rfl⟩, ⟨companded_inv _ rfl, rfl, rfl⟩⟩

/-- Steps of each class that go on. -/
theorem witness_CommandsKeepTheRegisters :
    (∃ t, exec .alawDec (ready .alawDec) = .next t) ∧
    (∃ t, exec .codecUlawDec { loaded .codecUlawDec [0xFF, 0x80] [] with len := 2 } = .next t ∧ t.cursor = 2) ∧
    (∃ t, exec .convPcmUlaw (loaded .convPcmUlaw linearSource []) = .next t ∧ t.cursor = 44) :=
  ⟨⟨_, rfl⟩, ⟨_, rfl, rfl⟩, ⟨_, rfl, rfl⟩⟩

theorem witness_StateNeverMovesBackward :
    ∃ t, exec .codecAlawDec (Tests.atState .codecAlawDec .written) = .next t ∧ t.seqState = .done := ⟨_, rfl, rfl⟩

theorem witness_SinkOnlyGrows :
    ∃ t, step { Tests.atState .codecAlawDec .payloadTransformed with
      sink := [1], outBuf := [8, 0], answers := [.writeFailure 1] } = .next t ∧ t.sink = [1, 8] := ⟨_, rfl, rfl⟩

/-- A busy block whose host writes `DIN` (95 X5). -/
theorem witness_OperandsAreStableWhileBusy :
    ({ ready .alawEnc with script := [.write 0x08 5] } : State).busy = true ∧
    ({ ready .alawEnc with script := [.write 0x08 5] } : State).script.head? ≠ some .reset ∧
    step { ready .alawEnc with script := [.write 0x08 5] } =
      .next { ready .alawEnc with refusalMark := true } := ⟨by decide, by decide, rfl⟩

theorem witness_NoReachableStepStops : MachineInv (ready .convPcmAlaw) := ready_inv _

theorem witness_EveryCommandEndsWithinItsBound :
    (MachineInv (loaded .convG711Pcm [] [.ok, .ok]) ∧
      SequencerAlone .convG711Pcm (loaded .convG711Pcm [] [.ok, .ok])) ∧
    AtStart (loaded .convG711Pcm [] [.ok, .ok]) ∧ (loaded .convG711Pcm [] [.ok, .ok]).sourceHeld = false ∧
    2 ≤ (loaded .convG711Pcm [] [.ok, .ok]).answers.length :=
  ⟨⟨(ready_inv .convG711Pcm).congr rfl rfl rfl rfl rfl rfl rfl rfl rfl rfl rfl (Nat.le_refl _), rfl, rfl, rfl⟩,
    ⟨rfl, rfl⟩, rfl, by decide⟩

/-- Each listed request: a read-only register, a write while busy, a reserved code, an offset that is no
register (95 X1, X4, X6), and a payload beyond the capacity for each class (95 X7). -/
theorem witness_RefusalsAreExactlyTheListed :
    (RefusedRequest State.reset (.write 0x0C 0) ∧ RefusedRequest (ready .convPcmUlaw) (.write 0x10 4) ∧
      RefusedRequest State.reset (.write 0x00 0) ∧ RefusedRequest State.reset (.read 0x14)) ∧
    (MachineInv (ready .codecAlawDec) ∧ (ready .codecAlawDec).refusalMark = false ∧
      SequencerMoves (ready .codecAlawDec)) ∧
    BeyondCapacity .codecAlawDec { ready .codecAlawDec with len := 100, maxPayloadBytes := 64 } ∧
    BeyondCapacity .convPcmUlaw
      { Tests.atState .convPcmUlaw .headerRead with srcLin := some linHeader, maxPayloadBytes := 3 } ∧
    BeyondCapacity .convG711Pcm
      { Tests.atState .convG711Pcm .headerRead with srcCmp := some cmpHeader, maxPayloadBytes := 1 } ∧
    look State.refusalMark (step { quiet [.reset] with refusalMark := true }) = some true := by
  refine ⟨⟨.inl (by decide), .inr (.inl rfl), .inr (.inr ⟨rfl, fun i => by cases i <;> decide⟩),
    show 0x14 ∉ [0x00, 0x04, 0x08, 0x0C, 0x10] by decide⟩, ⟨ready_inv _, rfl, rfl, .inl rfl⟩, ?_, ?_, ?_, rfl⟩
  · exact ⟨100, .inl ⟨.A, .dec, rfl, rfl, rfl, by decide⟩, by decide⟩
  · exact ⟨4, .inr (.inl ⟨.U, linHeader, rfl, rfl, rfl, rfl⟩), by decide⟩
  · exact ⟨2, .inr (.inr ⟨cmpHeader, .U, rfl, rfl, rfl, rfl⟩), by decide⟩

/-- A running command at each request the host does not answer: a conversion's header read, the three payload
reads, and the two writes; and a host action that ends no wait. -/
theorem witness_UnansweredRequestsWait :
    (Running .convPcmUlaw { ready .convPcmUlaw with sourceHeld := true } ∧
      AwaitsHost .convPcmUlaw { ready .convPcmUlaw with sourceHeld := true } ∧
      (ready .convPcmUlaw).refusalMark = false ∧ (ready .convPcmUlaw).script = []) ∧
    (Running .codecAlawEnc { ready .codecAlawEnc with sourceHeld := true } ∧
      AwaitsHost .codecAlawEnc { ready .codecAlawEnc with sourceHeld := true }) ∧
    AwaitsHost .convPcmUlaw
      { Tests.atState .convPcmUlaw .headerRead with srcLin := some linHeader, sourceHeld := true } ∧
    AwaitsHost .convG711Pcm
      { Tests.atState .convG711Pcm .headerRead with srcCmp := some cmpHeader, sourceHeld := true } ∧
    AwaitsHost .convG711Pcm (Tests.atState .convG711Pcm .payloadRead) ∧
    AwaitsHost .codecUlawDec (Tests.atState .codecUlawDec .payloadTransformed) ∧
    (HostAction.read 0x04 ≠ .reset ∧ (∀ w, HostAction.read 0x04 ≠ .answer w) ∧
      ∀ held, HostAction.read 0x04 ≠ .holdReads held) := by
  have inv (i : Instr) : MachineInv { ready i with sourceHeld := true } :=
    (ready_inv i).congr rfl rfl rfl rfl rfl rfl rfl rfl rfl rfl rfl (Nat.le_refl _)
  refine ⟨⟨⟨inv _, rfl, rfl⟩, .inl ⟨.inl ⟨_, rfl, rfl⟩, rfl⟩, rfl, rfl⟩,
    ⟨⟨inv _, rfl, rfl⟩, .inl ⟨.inr ⟨0, .inl ⟨.A, .enc, rfl, rfl, rfl, fun _ => rfl⟩, by decide⟩, rfl⟩⟩,
    .inl ⟨.inr ⟨4, .inr (.inl ⟨.U, linHeader, rfl, rfl, rfl, rfl⟩), by decide⟩, rfl⟩,
    .inl ⟨.inr ⟨2, .inr (.inr ⟨cmpHeader, .U, rfl, rfl, rfl, rfl⟩), by decide⟩, rfl⟩,
    .inr ⟨.inl ⟨_, rfl, rfl⟩, rfl⟩, .inr ⟨.inr ⟨by decide, rfl⟩, rfl⟩, ?_⟩
  exact ⟨nofun, fun _ => nofun, fun _ => nofun⟩
end

section
/-! PROOFS. The invariant and its preservation: every step from a state that meets `MachineInv` answers a next state
that meets it again. A busy block is taken apart into what holds in every state of a command (`Midway`) and what
its path leaves for the next step (`Staged`); each stage is then one lemma. -/

namespace Sys2Proof.Machine

/-- The outcome is a next state that meets the invariant. -/
def Keeps (o : StepOutcome) : Prop := ∃ t, o = .next t ∧ MachineInv t

theorem Keeps.next {t : State} (h : MachineInv t) : Keeps (.next t) := ⟨t, rfl, h⟩

/-! ### A command under way -/

/-- All the invariant says of a block whose command `i` has begun its first step, but for the path. -/
structure Midway (i : Instr) (s : State) : Prop where
  cursor_le : s.cursor ≤ s.source.length
  plen_lt : s.plen < 4294967296
  inBuf_le : s.inBuf.length ≤ s.maxPayloadBytes.val
  no_err : s.err = none
  not_pending : s.pending = false
  decoded : decode s.acmd = .ok i

/-- What a busy block holds for the next step of the command in `ACMD`. -/
theorem MachineInv.staged {s : State} {i : Instr} (h : MachineInv s) (hb : s.busy = true)
    (hd : decode s.acmd = .ok i) : Staged (commandClass i) s := by
  obtain ⟨j, hj, hs⟩ := h.running hb
  cases hd.symm.trans hj
  exact hs

/-- A staged command has neither ended nor failed. -/
theorem Staged.not_failed {c : CommandClass} {s : State} (h : Staged c s) : s.seqState ≠ .failed := by
  intro hf
  cases c <;> simp [Staged, hf] at h

/-- A validated conversion has its law. -/
theorem Validated.has_law {kind : ConvKind} {s : State} (hv : Validated kind s) : ∃ law, s.law = some law := by
  cases kind with
  | l2c law => exact ⟨law, hv.1⟩
  | c2l =>
    obtain ⟨-, law, -, hlaw, -⟩ := hv
    exact ⟨law, hlaw⟩

/-- A busy block past `Idle` is midway through its command. -/
theorem MachineInv.midway {s : State} {i : Instr} (h : MachineInv s) (hb : s.busy = true)
    (hd : decode s.acmd = .ok i) (hs : s.seqState ≠ .idle) : Midway i s :=
  ⟨h.cursor_le, h.plen_lt, h.inBuf_le, h.busy_err hb, h.not_pending hs, hd⟩

/-- The first step of a command clears `PENDING`, and may set `LAW`. -/
theorem MachineInv.begun {s : State} {i : Instr} (h : MachineInv s) (hb : s.busy = true)
    (hd : decode s.acmd = .ok i) (law : Option Law) : Midway i { s with pending := false, law := law } :=
  ⟨h.cursor_le, h.plen_lt, h.inBuf_le, h.busy_err hb, rfl, hd⟩

section
variable {i : Instr} {s : State}

/-- Setting `LAW` and `PLEN` to a 32-bit length. -/
theorem Midway.withLength (m : Midway i s) (law : Option Law) {n : Nat} (hn : n < 4294967296) :
    Midway i { s with law := law, plen := n } := { m with plen_lt := hn }

/-- Moving the cursor within the source. -/
theorem Midway.withCursor (m : Midway i s) {c : Nat} (hc : c ≤ s.source.length) (d : Nat) :
    Midway i { s with cursor := c, freeDraws := d } := { m with cursor_le := hc }

/-- A payload within the capacity. -/
theorem Midway.withInBuf (m : Midway i s) {r : List Byte} (hr : r.length ≤ s.maxPayloadBytes.val) :
    Midway i { s with inBuf := r } := { m with inBuf_le := hr }

/-- A failure midway keeps the invariant (R246). -/
theorem Midway.raise (m : Midway i s) (e : ErrKind) : MachineInv (s.raise e) :=
  MachineInv.raise e m.not_pending m.cursor_le m.plen_lt m.inBuf_le

/-- Entering a state of the command's path, with what it needs, keeps the invariant. -/
theorem Midway.enter (m : Midway i s) (st : SeqState)
    (hs : Staged (commandClass i) { s with seqState := st }) : MachineInv { s with seqState := st } where
  cursor_le := m.cursor_le
  plen_lt := m.plen_lt
  inBuf_le := m.inBuf_le
  err_failed := by simpa [m.no_err] using hs.not_failed
  pending_idle := by simp [m.not_pending]
  running _ := ⟨i, m.decoded, hs⟩

/-- Completion midway keeps the invariant. -/
theorem Midway.done (m : Midway i s) : MachineInv { s with seqState := .done } where
  cursor_le := m.cursor_le
  plen_lt := m.plen_lt
  inBuf_le := m.inBuf_le
  err_failed := by simp [m.no_err]
  pending_idle := by simp [m.not_pending]
  running := by simp [State.busy, SeqState.running, m.not_pending]

/-! ### The shared stages keep the invariant -/

/-- The payload read keeps the invariant, if a payload of `n` bytes is what the state it enters needs. -/
theorem readPayload_keeps {n : Nat} {s' : State} (h : MachineInv s) (m : Midway i s')
    (hn : n ≤ s'.maxPayloadBytes.val)
    (hs : ∀ c r, r.length = n →
      Staged (commandClass i) { s' with cursor := c, inBuf := r, seqState := .payloadRead }) :
    Keeps (readPayload n s s') := by
  rcases readPayload_cases n s s' with ⟨-, e⟩ | ⟨-, hc, e⟩ | ⟨-, hc, e⟩ <;> rw [e] <;> apply Keeps.next
  · exact h
  · have hr := slice_length s'.source s'.cursor n hc
    exact ((m.withCursor hc s'.freeDraws).withInBuf (hr.trans_le hn)).enter .payloadRead (hs _ _ hr)
  · exact (m.withCursor (shortReadCursor_le _ _ _ m.cursor_le) _).raise _

/-- The write that ends a step keeps the invariant, if the state entered after it is on the command's path. -/
theorem emit_keeps {bs : List Byte} {onOk : SeqState} {s' : State} (h : MachineInv s) (m : Midway i s')
    (hs : ∀ a k, Staged (commandClass i) { s' with answers := a, sink := k, seqState := onOk }) :
    Keeps (emit bs onOk s s') := by
  have written (a : List WriteAnswer) (k : List Byte) : Midway i { s' with answers := a, sink := k } := { m with }
  rcases emit_cases bs onOk s s' with ⟨-, e⟩ | ⟨rest, -, e⟩ | ⟨k, rest, -, e⟩ <;> rw [e] <;> apply Keeps.next
  · exact h
  · exact (written rest (s'.sink ++ bs)).enter onOk (hs rest _)
  · exact (written rest (s'.sink ++ bs.take k)).raise _

/-- The codec step on a staged payload keeps the invariant, if the output is what the state it enters needs. -/
theorem transformStep_keeps {law : Law} {dir : Dir} (m : Midway i s) (hp : PayloadStaged dir s)
    (hs : ∀ O, O.length = codecLength dir s.plen →
      Staged (commandClass i) { s with outBuf := O, seqState := .payloadTransformed }) :
    Keeps (transformStep law dir s) := by
  obtain ⟨hlen, heven⟩ := hp
  obtain ⟨O, hO, -, e⟩ := transformStep_ok (law := law) (dir := dir) (s := s) (by rwa [hlen])
  have written : Midway i { s with outBuf := O } := { m with }
  exact ⟨_, e, written.enter .payloadTransformed (hs O (by rw [hO, hlen]))⟩

/-- A conversion's payload read (R204) keeps the invariant on a length whose payload is what the next state
needs. -/
theorem convPayload_keeps {law : Option Law} {n : Nat} (h : MachineInv s) (m : Midway i s)
    (hn : n < 4294967296)
    (hs : ∀ c r, r.length = n → Staged (commandClass i)
      { s with law := law, plen := n, cursor := c, inBuf := r, seqState := .payloadRead }) :
    Keeps (convPayload law n s) := by
  rcases convPayload_cases law n s with ⟨-, e⟩ | ⟨hmax, e⟩ <;> rw [e]
  · exact .next h.refuse
  · exact readPayload_keeps h (m.withLength law hn) hmax hs

/-! ### The commands keep the invariant -/

variable (h : MachineInv s) (hb : s.busy = true) (hd : decode s.acmd = .ok i)
include h hb hd

/-- The one step of a LUT command (R110): a busy block on its path is at that step. -/
theorem lutStep_keeps (hc : commandClass i = .lut) (r : Sample) : Keeps (lutStep r s) := by
  have hidle : s.seqState = .idle := by simpa [hc, Staged] using h.staged hb hd
  rcases lutStep_cases r s with ⟨-, -, e⟩ | ⟨hn, -⟩
  · have result : Midway i { s with pending := false, dout := r } := { h.begun hb hd s.law with }
    exact ⟨_, e, result.done⟩
  · exact absurd ⟨hidle, pending_of_busy hb hidle⟩ hn

/-- The first step of a buffer command: its failure, its refusal and its payload read. -/
theorem bufferFirstStep_keeps {law : Law} {dir : Dir} (hc : commandClass i = .buffer law dir) :
    Keeps (bufferFirstStep law dir s) := by
  have m := (h.begun hb hd (some law)).withLength (some law) s.len.isLt
  rcases bufferFirstStep_cases law dir s with ⟨-, -, e⟩ | ⟨-, -, e⟩ | ⟨heven, hmax, e⟩ <;> rw [e]
  · exact .next (m.raise _)
  · exact .next h.refuse
  · exact readPayload_keeps h m hmax fun c r hr => by rw [hc]; exact ⟨rfl, hr, heven⟩

/-- Each step of a buffer command (R146). -/
theorem bufferCommand_keeps {law : Law} {dir : Dir} (hc : commandClass i = .buffer law dir) :
    Keeps (bufferCommand law dir s) := by
  have hstaged := h.staged hb hd
  rw [hc] at hstaged
  have m := h.midway hb hd
  unfold bufferCommand
  cases hst : s.seqState <;> simp only [Staged, hst] at hstaged ⊢
  case idle =>
    rw [if_pos (pending_of_busy hb hst)]
    exact bufferFirstStep_keeps h hb hd hc
  case payloadRead =>
    exact transformStep_keeps (m (by simp [hst])) hstaged.2 fun O hO => by rw [hc]; exact hO
  case payloadTransformed =>
    exact emit_keeps h (m (by simp [hst])) fun _ _ => by rw [hc]; trivial
  case written => exact .next (m (by simp [hst])).done

/-- The header read of a conversion (R203). -/
theorem convReadHeader_keeps {kind : ConvKind} (hc : commandClass i = .conv kind) :
    Keeps (convReadHeader kind s) := by
  cases kind with
  | l2c law =>
    have m := h.begun hb hd (some law)
    rcases convReadHeader_l2c_cases law s with ⟨-, e⟩ | ⟨-, -, e⟩ | ⟨-, hcur, -, e⟩ | ⟨-, hcur, htags, e⟩ <;>
      rw [e] <;> apply Keeps.next
    · exact h
    · exact (m.withCursor (shortReadCursor_le _ _ _ m.cursor_le) _).raise _
    · exact (m.withCursor hcur s.freeDraws).raise _
    · have parsed : Midway i { s with
          pending := false, law := some law, cursor := s.cursor + 44
          srcLin := some (linFields (slice s.source s.cursor 44)) } := { m.withCursor hcur s.freeDraws with }
      exact parsed.enter .headerRead (by rw [hc]; exact ⟨rfl, _, rfl, htags⟩)
  | c2l =>
    have m := h.begun hb hd s.law
    rcases convReadHeader_c2l_cases s with ⟨-, e⟩ | ⟨-, -, e⟩ | ⟨-, hcur, -, e⟩ | ⟨-, hcur, htags, e⟩ <;>
      rw [e] <;> apply Keeps.next
    · exact h
    · exact (m.withCursor (shortReadCursor_le _ _ _ m.cursor_le) _).raise _
    · exact (m.withCursor hcur s.freeDraws).raise _
    · have parsed : Midway i { s with
          pending := false, cursor := s.cursor + 58
          srcCmp := some (cmpFields (slice s.source s.cursor 58)) } := { m.withCursor hcur s.freeDraws with }
      exact parsed.enter .headerRead (by rw [hc]; exact ⟨_, rfl, htags⟩)

/-- The payload read of a conversion (R204), its header read. -/
theorem convReadPayload_keeps {kind : ConvKind} (hc : commandClass i = .conv kind)
    (hst : s.seqState = .headerRead) (hs : HeaderStaged kind s) : Keeps (convReadPayload kind s) := by
  have m := h.midway hb hd (by simp [hst])
  cases kind with
  | l2c law =>
    obtain ⟨hlaw, r, hr, -⟩ := hs
    rw [convReadPayload_l2c hr]
    cases hv : validateLin r with
    | error e => exact .next (m.raise e)
    | ok L =>
      obtain ⟨-, heven, hlt⟩ := validateLin_length hv
      exact convPayload_keeps h m hlt fun c b hlen => by rw [hc]; exact ⟨⟨hlaw, r, hr, hv⟩, hlen, fun _ => heven⟩
  | c2l =>
    obtain ⟨r, hr, -⟩ := hs
    rw [convReadPayload_c2l hr]
    cases hv : validateCmp r with
    | error e => exact .next (m.raise e)
    | ok p =>
      obtain ⟨law, M⟩ := p
      have hlt := (validateCmp_length hv).2
      exact convPayload_keeps h m (by omega) fun c b hlen => by
        rw [hc]; exact ⟨⟨r, law, hr, rfl, hv⟩, hlen, nofun⟩

/-- The header write of a conversion (R205), its payload staged. -/
theorem convEmitHeader_keeps {kind : ConvKind} (hc : commandClass i = .conv kind)
    (hst : s.seqState = .payloadRead) (hv : Validated kind s) (hp : PayloadStaged kind.dir s) :
    Keeps (convEmitHeader kind s) := by
  have m := h.midway hb hd (by simp [hst])
  cases kind with
  | l2c law =>
    have ⟨hlaw, r, hr, _⟩ := hv
    rw [convEmitHeader_l2c hr hlaw]
    exact emit_keeps h { m with } fun _ _ => by rw [hc]; exact ⟨hv, hp⟩
  | c2l =>
    have ⟨r, _, hr, _, _⟩ := hv
    rw [convEmitHeader_c2l hr]
    exact emit_keeps h { m with } fun _ _ => by rw [hc]; exact ⟨hv, hp⟩

/-- Each step of a conversion (R200). -/
theorem convCommand_keeps {kind : ConvKind} (hc : commandClass i = .conv kind) : Keeps (convCommand kind s) := by
  have hstaged := h.staged hb hd
  rw [hc] at hstaged
  have m := h.midway hb hd
  unfold convCommand
  cases hst : s.seqState <;> simp only [Staged, hst] at hstaged ⊢
  case idle =>
    rw [if_pos (pending_of_busy hb hst)]
    exact convReadHeader_keeps h hb hd hc
  case headerRead => exact convReadPayload_keeps h hb hd hc hst hstaged
  case payloadRead => exact convEmitHeader_keeps h hb hd hc hst hstaged.1 hstaged.2
  case headerDerived =>
    obtain ⟨law, hlaw⟩ := hstaged.1.has_law
    rw [convTransform_eq hlaw]
    exact transformStep_keeps (m (by simp [hst])) hstaged.2 fun O hO => by rw [hc]; exact hO
  case payloadTransformed =>
    exact emit_keeps h (m (by simp [hst])) fun _ _ => by rw [hc]; trivial
  case written => exact .next (m (by simp [hst])).done

/-- Any step of the command in `ACMD` of a busy block. -/
theorem exec_keeps : Keeps (exec i s) := by
  cases hc : commandClass i with
  | lut =>
    obtain ⟨f, hf⟩ := exec_of_lut hc
    rw [hf]
    exact lutStep_keeps h hb hd hc _
  | buffer law dir =>
    rw [exec_of_buffer hc]
    exact bufferCommand_keeps h hb hd hc
  | conv kind =>
    rw [exec_of_conv hc]
    exact convCommand_keeps h hb hd hc

end

/-! ### The moves keep the invariant -/

/-- The sequencer's turn. -/
theorem sequencerTurn_keeps {s : State} (h : MachineInv s) : Keeps (sequencerTurn s) := by
  cases hb : s.busy with
  | false =>
    rw [sequencerTurn_quiet hb]
    exact .next h
  | true =>
    obtain ⟨i, hd, -⟩ := h.running hb
    rw [sequencerTurn_busy hb hd]
    exact exec_keeps h hb hd

/-- `WAIT` in a busy block is the sequencer's turn, with `WAIT` still in the program (R75). -/
theorem hostAction_wait_busy {s : State} (hb : s.busy = true) :
    hostAction .wait s = sequencerTurn { s with script := .wait :: s.script } := by
  simp [hostAction, sequencerTurn, hb]

/-- `WAIT` in a quiet block is passed. -/
theorem hostAction_wait_quiet {s : State} (hb : s.busy = false) : hostAction .wait s = .next s := by
  simp [hostAction, hb]

/-- The registers without a command in them, and the words read, are no part of the invariant. -/
theorem MachineInv.withPort {s : State} (h : MachineInv s) (din : Sample) (len : Word) (reads : List Word) :
    MachineInv { s with din := din, len := len, reads := reads } :=
  h.congr rfl rfl rfl rfl rfl rfl rfl rfl rfl rfl rfl h.cursor_le

/-- Of the host side the invariant asks only that the cursor lies in the source. -/
theorem MachineInv.withHost {s : State} (h : MachineInv s) {source : List Byte} {cursor : Nat}
    (hc : cursor ≤ source.length) (held : Bool) (answers : List WriteAnswer) :
    MachineInv { s with source := source, cursor := cursor, sourceHeld := held, answers := answers } :=
  h.congr rfl rfl rfl rfl rfl rfl rfl rfl rfl rfl rfl hc

/-- A write to the register port keeps the invariant. -/
theorem MachineInv.portWrite {s : State} (h : MachineInv s) (off : Nat) (v : Word) :
    MachineInv (s.portWrite off v) := by
  rcases s.portWrite_cases off v with e | ⟨-, -, ⟨i, hd⟩, e⟩ | ⟨-, -, e⟩ | ⟨-, -, e⟩ <;> rw [e]
  · exact h.refuse
  · exact h.accept hd
  · exact h.withPort (v.setWidth 16) s.len s.reads
  · exact h.withPort s.din v s.reads

/-- A read of the register port keeps the invariant. -/
theorem MachineInv.portRead {s : State} (h : MachineInv s) (off : Nat) : MachineInv (s.portRead off) := by
  rcases s.portRead_cases off with ⟨r, -, e⟩ | ⟨-, e⟩ <;> rw [e]
  · exact h.withPort s.din s.len _
  · exact h.refuse

/-- Each action of the host. -/
theorem hostAction_keeps {s : State} (h : MachineInv s) (a : HostAction) : Keeps (hostAction a s) := by
  cases a with
  | write off v => exact .next (h.portWrite off v)
  | read off => exact .next (h.portRead off)
  | wait =>
    cases hb : s.busy with
    | true =>
      rw [hostAction_wait_busy hb]
      exact sequencerTurn_keeps (h.withScript _)
    | false =>
      rw [hostAction_wait_quiet hb]
      exact .next h
  | letStep => exact sequencerTurn_keeps h
  | source bytes => exact .next (h.withHost (h.cursor_le.trans (by simp)) s.sourceHeld s.answers)
  | seek p => exact .next (h.withHost (Nat.min_le_right p _) s.sourceHeld s.answers)
  | answer w => exact .next (h.withHost h.cursor_le s.sourceHeld _)
  | holdReads held => exact .next (h.withHost h.cursor_le held s.answers)
  | inspectSink => exact .next h
  | reset => exact .next h.resetBlock

/-- Every step from a state that meets the invariant answers a next state that meets it. -/
theorem step_keeps {s : State} (h : MachineInv s) : Keeps (step s) := by
  cases hs : s.script with
  | nil =>
    rw [step_sequencer hs]
    exact sequencerTurn_keeps h
  | cons a rest =>
    rw [step_host hs]
    exact hostAction_keeps (h.withScript rest) a

/-- Settles O3: the invariant is kept by each stage of each command, and by each action of the host. -/
theorem everyStepKeepsInvariant : Obligations.EveryStepKeepsInvariant := by
  intro s t h hst
  obtain ⟨t', e, ht'⟩ := step_keeps h
  cases hst.symm.trans e
  exact ht'

/-- Settles O57: the same case analysis meets no stage that is stuck or refused. -/
theorem noReachableStepStops : Obligations.NoReachableStepStops := by
  intro s h
  obtain ⟨t, e, -⟩ := step_keeps h
  exact ⟨t, e⟩

end Sys2Proof.Machine
end

section
/-! PROOFS. The frame of the commands: what an answered step of any command leaves alone, the cursor and `STATE` it
never moves back. One lemma per stage; a command's frame is a case split on `STATE`. -/

namespace Sys2Proof.Machine

/-! ### The frame of a step -/

/-- `t` has the registers and the host side of `s`, but for the sink and its answers; neither the source cursor nor
`STATE` has moved back, and a set refusal mark is still set. -/
structure Frame (s t : State) : Prop where
  din : t.din = s.din := by rfl
  len : t.len = s.len := by rfl
  acmd : t.acmd = s.acmd := by rfl
  dout : t.dout = s.dout := by rfl
  source : t.source = s.source := by rfl
  sourceHeld : t.sourceHeld = s.sourceHeld := by rfl
  script : t.script = s.script := by rfl
  reads : t.reads = s.reads := by rfl
  maxPayloadBytes : t.maxPayloadBytes = s.maxPayloadBytes := by rfl
  refusalMark : s.refusalMark = true → t.refusalMark = true := by exact id
  le_cursor : s.cursor ≤ t.cursor := by exact le_rfl
  cursor_le : s.cursor ≤ s.source.length → t.cursor ≤ s.source.length := by exact id
  seqState_le : s.seqState.code.toNat ≤ t.seqState.code.toNat := by exact le_rfl

theorem Frame.refl (s : State) : Frame s s := {}

theorem Frame.trans {s t u : State} (h : Frame s t) (k : Frame t u) : Frame s u where
  din := k.din.trans h.din
  len := k.len.trans h.len
  acmd := k.acmd.trans h.acmd
  dout := k.dout.trans h.dout
  source := k.source.trans h.source
  sourceHeld := k.sourceHeld.trans h.sourceHeld
  script := k.script.trans h.script
  reads := k.reads.trans h.reads
  maxPayloadBytes := k.maxPayloadBytes.trans h.maxPayloadBytes
  refusalMark := k.refusalMark ∘ h.refusalMark
  le_cursor := h.le_cursor.trans k.le_cursor
  cursor_le hc := h.source ▸ k.cursor_le (h.source ▸ h.cursor_le hc)
  seqState_le := h.seqState_le.trans k.seqState_le

/-- `Failed` has the greatest code. -/
theorem SeqState.code_le_failed (st : SeqState) : st.code.toNat ≤ SeqState.failed.code.toNat := by
  cases st <;> decide

theorem Frame.raise (s : State) (e : ErrKind) : Frame s (s.raise e) :=
  { seqState_le := s.seqState.code_le_failed }

theorem Frame.refuse (s : State) : Frame s s.refuse := { refusalMark := fun _ => rfl }

/-- Wherever a short read leaves the cursor (R55). -/
theorem Frame.shortRead (s : State) (d : Nat) : Frame s
    { s with cursor := shortReadCursor s.freeDraws s.cursor s.source.length, freeDraws := d } :=
  { le_cursor := le_shortReadCursor _ _ _, cursor_le := shortReadCursor_le _ _ _ }

/-! ### The stages -/

section
variable {s s' t : State}

theorem readPayload_frame {n : Nat} (f : Frame s s')
    (hst : s'.seqState.code.toNat ≤ SeqState.payloadRead.code.toNat)
    (h : readPayload n s s' = .next t) : Frame s t := by
  rcases readPayload_cases n s s' with ⟨-, e⟩ | ⟨-, hc, e⟩ | ⟨-, -, e⟩ <;> cases e.symm.trans h
  · exact .refl s
  · exact f.trans { le_cursor := Nat.le_add_right _ _, cursor_le := fun _ => hc, seqState_le := hst }
  · exact f.trans ((Frame.shortRead s' _).trans (.raise _ _))

theorem emit_frame {bs : List Byte} {onOk : SeqState} (f : Frame s s')
    (hst : s'.seqState.code.toNat ≤ onOk.code.toNat) (h : emit bs onOk s s' = .next t) : Frame s t := by
  rcases emit_cases bs onOk s s' with ⟨-, e⟩ | ⟨rest, -, e⟩ | ⟨k, rest, -, e⟩ <;> cases e.symm.trans h
  · exact .refl s
  · exact f.trans { seqState_le := hst }
  · exact f.trans { seqState_le := s'.seqState.code_le_failed }

theorem transformStep_frame {law : Law} {dir : Dir}
    (hst : s.seqState.code.toNat ≤ SeqState.payloadTransformed.code.toNat)
    (h : transformStep law dir s = .next t) : Frame s t := by
  rcases transformStep_cases law dir s with ⟨O, -, e⟩ | ⟨-, -, e⟩ <;> cases e.symm.trans h
  · exact { seqState_le := hst }
  · exact .raise s _

theorem finishStep_frame (hst : s.seqState.code.toNat ≤ SeqState.done.code.toNat)
    (h : finishStep s = .next t) : Frame s t := by
  cases h
  exact { seqState_le := hst }

theorem bufferFirstStep_frame {law : Law} {dir : Dir} (hst : s.seqState = .idle)
    (h : bufferFirstStep law dir s = .next t) : Frame s t := by
  rcases bufferFirstStep_cases law dir s with ⟨-, -, e⟩ | ⟨-, -, e⟩ | ⟨-, -, e⟩ <;> rw [e] at h
  · cases h
    exact { seqState_le := s.seqState.code_le_failed }
  · cases h
    exact .refuse s
  · exact readPayload_frame {} (by simp [hst, SeqState.code]) h

theorem convReadHeader_frame {kind : ConvKind} (hst : s.seqState = .idle)
    (h : convReadHeader kind s = .next t) : Frame s t := by
  have hcode : s.seqState.code.toNat ≤ SeqState.headerRead.code.toNat := by simp [hst, SeqState.code]
  cases kind with
  | l2c law =>
    have begun : Frame s { s with pending := false, law := some law } := {}
    rcases convReadHeader_l2c_cases law s with ⟨-, e⟩ | ⟨-, -, e⟩ | ⟨-, hc, -, e⟩ | ⟨-, hc, -, e⟩ <;>
      cases e.symm.trans h
    · exact .refl s
    · exact begun.trans ((Frame.shortRead _ _).trans (.raise _ _))
    · exact { le_cursor := Nat.le_add_right _ _, cursor_le := fun _ => hc, seqState_le := s.seqState.code_le_failed }
    · exact { le_cursor := Nat.le_add_right _ _, cursor_le := fun _ => hc, seqState_le := hcode }
  | c2l =>
    have begun : Frame s { s with pending := false } := {}
    rcases convReadHeader_c2l_cases s with ⟨-, e⟩ | ⟨-, -, e⟩ | ⟨-, hc, -, e⟩ | ⟨-, hc, -, e⟩ <;>
      cases e.symm.trans h
    · exact .refl s
    · exact begun.trans ((Frame.shortRead _ _).trans (.raise _ _))
    · exact { le_cursor := Nat.le_add_right _ _, cursor_le := fun _ => hc, seqState_le := s.seqState.code_le_failed }
    · exact { le_cursor := Nat.le_add_right _ _, cursor_le := fun _ => hc, seqState_le := hcode }

theorem convPayload_frame {law : Option Law} {n : Nat} (hst : s.seqState = .headerRead)
    (h : convPayload law n s = .next t) : Frame s t := by
  rcases convPayload_cases law n s with ⟨-, e⟩ | ⟨-, e⟩ <;> rw [e] at h
  · cases h
    exact .refuse s
  · exact readPayload_frame {} (by simp [hst, SeqState.code]) h

theorem convReadPayload_frame {kind : ConvKind} (hst : s.seqState = .headerRead)
    (h : convReadPayload kind s = .next t) : Frame s t := by
  cases kind with
  | l2c law =>
    cases hr : s.srcLin with
    | none => simp [convReadPayload, hr] at h
    | some r =>
      rw [convReadPayload_l2c hr] at h
      split at h
      · cases h
        exact .raise s _
      · exact convPayload_frame hst h
  | c2l =>
    cases hr : s.srcCmp with
    | none => simp [convReadPayload, hr] at h
    | some r =>
      rw [convReadPayload_c2l hr] at h
      split at h
      · cases h
        exact .raise s _
      · exact convPayload_frame hst h

theorem convEmitHeader_frame {kind : ConvKind} (hst : s.seqState = .payloadRead)
    (h : convEmitHeader kind s = .next t) : Frame s t := by
  cases kind with
  | l2c _ =>
    cases hr : s.srcLin with
    | none => simp [convEmitHeader, hr] at h
    | some r =>
      cases hl : s.law with
      | none => simp [convEmitHeader, hr, hl] at h
      | some law =>
        rw [convEmitHeader_l2c hr hl] at h
        exact emit_frame {} (by simp [hst, SeqState.code]) h
  | c2l =>
    cases hr : s.srcCmp with
    | none => simp [convEmitHeader, hr] at h
    | some r =>
      rw [convEmitHeader_c2l hr] at h
      exact emit_frame {} (by simp [hst, SeqState.code]) h

theorem convTransform_frame {kind : ConvKind} (hst : s.seqState = .headerDerived)
    (h : convTransform kind s = .next t) : Frame s t := by
  cases hl : s.law with
  | none => simp [convTransform, hl] at h
  | some law =>
    rw [convTransform_eq hl] at h
    exact transformStep_frame (by simp [hst, SeqState.code]) h

/-! ### The commands -/

theorem bufferCommand_frame {law : Law} {dir : Dir} (h : bufferCommand law dir s = .next t) : Frame s t := by
  unfold bufferCommand at h
  cases hst : s.seqState <;> simp only [hst] at h
  case idle =>
    split at h
    · exact bufferFirstStep_frame hst h
    · cases h
  case payloadRead => exact transformStep_frame (by simp [hst, SeqState.code]) h
  case payloadTransformed => exact emit_frame (.refl s) (by simp [hst, SeqState.code]) h
  case written => exact finishStep_frame (by simp [hst, SeqState.code]) h
  all_goals cases h

theorem convCommand_frame {kind : ConvKind} (h : convCommand kind s = .next t) : Frame s t := by
  unfold convCommand at h
  cases hst : s.seqState <;> simp only [hst] at h
  case idle =>
    split at h
    · exact convReadHeader_frame hst h
    · cases h
  case headerRead => exact convReadPayload_frame hst h
  case payloadRead => exact convEmitHeader_frame hst h
  case headerDerived => exact convTransform_frame hst h
  case payloadTransformed => exact emit_frame (.refl s) (by simp [hst, SeqState.code]) h
  case written => exact finishStep_frame (by simp [hst, SeqState.code]) h
  all_goals cases h

/-- An answered LUT step writes `DOUT` and, but for that, is within the frame. -/
theorem lutStep_frame {r : Sample} (h : lutStep r s = .next t) : Frame { s with dout := t.dout } t := by
  rcases lutStep_cases r s with ⟨hst, -, e⟩ | ⟨-, e⟩ <;> cases e.symm.trans h
  exact { seqState_le := by simp [hst, SeqState.code] }

/-- An answered step of any command is within the frame, but for the `DOUT` of a LUT command. -/
theorem exec_frame {i : Instr} (h : exec i s = .next t) :
    Frame { s with dout := t.dout } t ∧ (commandClass i ≠ .lut → t.dout = s.dout) := by
  have whole (f : Frame s t) : Frame { s with dout := t.dout } t := { f with dout := rfl }
  cases hc : commandClass i with
  | lut =>
    obtain ⟨f, hf⟩ := exec_of_lut hc
    exact ⟨lutStep_frame (hf s ▸ h), fun hn => absurd rfl hn⟩
  | buffer law dir =>
    have f := bufferCommand_frame (exec_of_buffer hc s ▸ h)
    exact ⟨whole f, fun _ => f.dout⟩
  | conv kind =>
    have f := convCommand_frame (exec_of_conv hc s ▸ h)
    exact ⟨whole f, fun _ => f.dout⟩

end

/-- Settles O53: the frame lemma of the commands. -/
theorem commandsKeepTheRegisters : Obligations.CommandsKeepTheRegisters := by
  intro i s t h
  obtain ⟨f, hdout⟩ := exec_frame h
  exact ⟨f.din, f.len, f.acmd, hdout, f.source, f.sourceHeld, f.script, f.reads, f.maxPayloadBytes,
    f.refusalMark, f.le_cursor, fun hc => f.source ▸ f.cursor_le hc⟩

/-- Settles O54: the frame lemma of the commands. -/
theorem stateNeverMovesBackward : Obligations.StateNeverMovesBackward :=
  fun _ _ _ h => (exec_frame h).1.seqState_le

end Sys2Proof.Machine
end

section
/-! PROOFS. The register port, `STATUS`, acceptance, and who has the turn: what each request does at each offset,
and the statements about one step of the host or of the sequencer. -/

namespace Sys2Proof.Machine

/-! ### The offsets of the port -/

/-- The byte offset of a register (R21). -/
def Reg.offset : Reg → Nat
  | .cmd => 0x00
  | .status => 0x04
  | .din => 0x08
  | .dout => 0x0C
  | .len => 0x10

/-- The port finds a register exactly at its offset. -/
theorem Reg.ofOffset_eq_some {off : Nat} {r : Reg} : Reg.ofOffset off = some r ↔ off = r.offset := by
  constructor
  · intro h
    unfold Reg.ofOffset at h
    split at h <;> cases h <;> rfl
  · rintro rfl
    cases r <;> rfl

/-- At every other offset it finds none. -/
theorem Reg.ofOffset_eq_none {off : Nat} (h : off ∉ [0x00, 0x04, 0x08, 0x0C, 0x10]) : Reg.ofOffset off = none := by
  cases hr : Reg.ofOffset off with
  | none => rfl
  | some r =>
    obtain rfl := Reg.ofOffset_eq_some.mp hr
    exact absurd (by cases r <;> decide) h

/-! ### Requests at the port -/

/-- A read of a register hands its word to the host (R21). -/
theorem State.portRead_offset (s : State) (r : Reg) :
    s.portRead r.offset = { s with reads := s.reads ++ [s.regWord r] } := by
  cases r <;> rfl

/-- A read at an offset without a register is refused (R252 c). -/
theorem State.portRead_outside {s : State} {off : Nat} (h : off ∉ [0x00, 0x04, 0x08, 0x0C, 0x10]) :
    s.portRead off = s.refuse := by
  simp [State.portRead, Reg.ofOffset_eq_none h]

/-- A write of a command's code to `CMD` of a quiet block is accepted (R22). -/
theorem State.portWrite_cmd {s : State} {v : Word} {i : Instr} (hb : s.busy = false)
    (hd : decode (v.setWidth 8) = .ok i) : s.portWrite 0x00 v = s.accept (v.setWidth 8) := by
  simp [State.portWrite, Reg.ofOffset, State.writeCmd, hb, hd]

/-- A write of a reserved code to `CMD` is refused (R22, R73). -/
theorem State.portWrite_cmd_reserved {s : State} {v : Word} (hd : ∀ i, decode (v.setWidth 8) ≠ .ok i) :
    s.portWrite 0x00 v = s.refuse := by
  rcases s.portWrite_cases 0x00 v with e | ⟨-, -, ⟨i, hi⟩, -⟩ | ⟨-, hr, -⟩ | ⟨-, hr, -⟩
  · exact e
  · exact absurd hi (hd i)
  · cases hr
  · cases hr

/-- A write to `DIN` of a quiet block keeps the low 16 bits (R27). -/
theorem State.portWrite_din {s : State} {v : Word} (hb : s.busy = false) :
    s.portWrite 0x08 v = { s with din := v.setWidth 16 } := by
  simp [State.portWrite, Reg.ofOffset, State.writeDin, hb]

/-- A write to `LEN` of a quiet block keeps the word (R29). -/
theorem State.portWrite_len {s : State} {v : Word} (hb : s.busy = false) :
    s.portWrite 0x10 v = { s with len := v } := by
  simp [State.portWrite, Reg.ofOffset, State.writeLen, hb]

/-- A write anywhere but to `CMD`, `DIN` and `LEN` is refused (R252 c). -/
theorem State.portWrite_not_writable (s : State) {off : Nat} (v : Word) (h : off ∉ [0x00, 0x08, 0x10]) :
    s.portWrite off v = s.refuse := by
  rcases s.portWrite_cases off v with e | ⟨-, hr, -⟩ | ⟨-, hr, -⟩ | ⟨-, hr, -⟩
  · exact e
  all_goals exact absurd (Reg.ofOffset_eq_some.mp hr ▸ by decide) h

/-! ### The host's requests as steps -/

section
variable {s : State} {off : Nat} {v : Word} {rest : List HostAction}

theorem step_write (hs : s.script = .write off v :: rest) :
    step s = .next ({ s with script := rest }.portWrite off v) := step_host hs

theorem step_read (hs : s.script = .read off :: rest) :
    step s = .next ({ s with script := rest }.portRead off) := step_host hs

/-- An accepted `CMD` write, as a step of the machine. -/
theorem step_write_cmd {i : Instr} (hs : s.script = .write 0x00 v :: rest) (hb : s.busy = false)
    (hd : decode (v.setWidth 8) = .ok i) :
    step s = .next ({ s with script := rest }.accept (v.setWidth 8)) :=
  (step_write hs).trans (congrArg _ (State.portWrite_cmd hb hd))

/-- A read of a register, as a step of the machine. -/
theorem step_read_offset (r : Reg) (hs : s.script = .read r.offset :: rest) :
    step s = .next { s with script := rest, reads := s.reads ++ [s.regWord r] } := by
  rw [step_read hs, State.portRead_offset]
  cases r <;> rfl

/-- While the host waits on a busy block the sequencer has the turn, and `WAIT` stays in the program (R75). -/
theorem step_wait_busy (hb : s.busy = true) (hs : s.script = .wait :: rest) :
    step s = sequencerTurn s := by
  have hscript : { s with script := .wait :: rest } = s := by rw [← hs]
  calc
    step s = hostAction .wait { s with script := rest } := step_host hs
    _ = sequencerTurn { s with script := .wait :: rest } := hostAction_wait_busy hb
    _ = sequencerTurn s := by rw [hscript]

end

/-! ### `BUSY` and `STATUS` -/

/-- A block with an error is not busy, nor is one whose command is done. -/
theorem MachineInv.ended_quiet {s : State} (h : MachineInv s) (he : s.seqState = .done ∨ s.seqState = .failed) :
    s.busy = false := by
  have hp := h.not_pending (by rcases he with he | he <;> simp [he])
  rcases he with he | he <;> simp [State.busy, hp, he, SeqState.running]

/-- `ERR` is 0 unless the block has failed (R23). -/
theorem MachineInv.no_err {s : State} (h : MachineInv s) (hs : s.seqState ≠ .failed) : s.err = none := by
  cases he : s.err with
  | none => rfl
  | some e => exact absurd (h.err_failed.mp (by rw [he]; rfl)) hs

/-- The bits of `STATUS` (R23). -/
theorem State.statusWord_getLsbD (s : State) (k : Nat) :
    s.statusWord.getLsbD k =
      if k < 3 then s.seqState.code.getLsbD k
      else if k < 4 then s.busy
      else (errCode s.err).getLsbD (k - 4) := by
  have append : s.statusWord.getLsbD k =
      ((((0 : BitVec 25) ++ errCode s.err) ++ BitVec.ofBool s.busy) ++ s.seqState.code :
        BitVec (25 + 3 + 1 + 3)).getLsbD k := rfl
  rw [append]
  simp only [BitVec.getLsbD_append, BitVec.getLsbD_ofBool]
  by_cases h3 : k < 3
  · simp [h3]
  · by_cases h4 : k < 4
    · obtain rfl : k = 3 := by omega
      simp
    · have h0 : k - 3 ≠ 0 := by omega
      simpa [h3, h4, h0, Nat.sub_sub] using fun h => BitVec.lt_of_getLsbD h

/-! ### A command word placed -/

/-- The code of a command decodes to it (R71, R72). -/
theorem decode_encode (i : Instr) : decode (encode i) = .ok i := by
  cases i <;> rfl

/-- The step after a command is loaded is the sequencer's, on the state after acceptance. -/
theorem step_loadCommand (s : State) (c : Byte) : step (s.loadCommand c) = sequencerTurn (s.accept c) := by
  cases hs : s.script with
  | nil =>
    have e : s.loadCommand c = s.accept c := by simp [State.loadCommand, State.accept, hs]
    rw [e, step_sequencer (s := s.accept c) hs]
  | cons a rest =>
    have hload : (s.loadCommand c).script = .letStep :: a :: rest := by simp [State.loadCommand, hs]
    have e : { s.loadCommand c with script := a :: rest } = s.accept c := by
      simp [State.loadCommand, State.accept, hs]
    rw [step_host hload, e]
    rfl

/-! ### The obligations on the port and the step -/

/-- Settles O1: the reset values are those of `State.reset`, and the ROMs are defined as their transforms. -/
theorem resetStateHasEveryResetValue : Obligations.ResetStateHasEveryResetValue := by
  refine ⟨rfl, rfl, rfl, rfl, rfl, rfl, rfl, rfl, rfl, rfl, rfl, rfl, rfl, rfl, rfl, rfl, ?_,
    fun _ => rfl, fun _ => rfl, fun _ => rfl, fun _ => rfl⟩
  intro r
  cases r <;> rfl

/-- Settles O2: reset leaves a quiet block with nothing in it. -/
theorem resetSatisfiesInvariant : Obligations.ResetSatisfiesInvariant where
  cursor_le := Nat.le_refl _
  plen_lt := by decide
  inBuf_le := Nat.zero_le _
  err_failed := by decide
  pending_idle := nofun
  running := nofun

/-- Settles O5, by the bits of `STATUS`. -/
theorem statusFields : Obligations.StatusFields := by
  have state (s : State) : s.statusWord.extractLsb' 0 3 = s.seqState.code :=
    BitVec.eq_of_getLsbD_eq fun j hj => by simp [s.statusWord_getLsbD, hj]
  have error (s : State) : s.statusWord.extractLsb' 4 3 = errCode s.err :=
    BitVec.eq_of_getLsbD_eq fun j hj => by
      simp [s.statusWord_getLsbD, hj, show ¬ 4 + j < 3 by omega]
  refine ⟨fun s => ⟨state s, ?_, error s, fun k hk => ?_⟩, fun s h hs => ?_,
    fun s v => s.portWrite_not_writable v (by decide)⟩
  · exact s.statusWord_getLsbD 3
  · rw [s.statusWord_getLsbD, if_neg (by omega), if_neg (by omega)]
    exact BitVec.getLsbD_of_ge _ _ (by omega)
  · rw [error, h.no_err hs]
    rfl

/-- Settles O6, state by state; that `Done` and `Failed` are never pending is the invariant's. -/
theorem busyDefinition : Obligations.BusyDefinition := by
  refine ⟨fun s => ?_, fun s hs hp => ?_, fun s h he => h.ended_quiet he⟩
  · cases hst : s.seqState <;> simp [State.busy, hst, SeqState.running]
  · simp [State.busy, hs, hp, SeqState.running]

/-- Settles O7, code by code. -/
theorem stateAndErrorCodes : Obligations.StateAndErrorCodes := by
  refine ⟨rfl, rfl, rfl, rfl, rfl, rfl, rfl, ?_, rfl, rfl, rfl, rfl, rfl, rfl, rfl, rfl⟩
  rintro (_ | e)
  · decide
  · cases e <;> decide

/-- Settles O8: a read at a register's offset, and a read outside the port. -/
theorem registerReads : Obligations.RegisterReads := by
  intro s off rest _ hs
  refine ⟨?_, ?_, ?_, ?_, ?_, fun ho => ?_⟩
  · rintro rfl
    exact step_read_offset .cmd hs
  · rintro rfl
    exact step_read_offset .status hs
  · rintro rfl
    exact step_read_offset .din hs
  · rintro rfl
    exact step_read_offset .dout hs
  · rintro rfl
    exact step_read_offset .len hs
  · exact (step_read hs).trans (congrArg _ (State.portRead_outside ho))

/-- Settles O9: acceptance, refusal, the ignored bits and the read. -/
theorem commandAcceptance : Obligations.CommandAcceptance := by
  refine ⟨fun s v rest i _ hs hb hd => ?_, fun s v rest _ hs h => ⟨?_, rfl⟩, fun s v v' hv => ?_, fun _ => rfl, rfl⟩
  · exact ⟨_, step_write_cmd hs hb hd, rfl, sequencerTurn_busy rfl hd⟩
  · rw [step_write hs]
    rcases h with hb | hd
    · exact congrArg _ (State.portWrite_busy _ _ _ hb)
    · exact congrArg _ (State.portWrite_cmd_reserved hd)
  · show s.writeCmd v = s.writeCmd v'
    rw [State.writeCmd, State.writeCmd, hv]

/-- Settles O10: both blocks are left in the state acceptance makes of the fields they agree on. -/
theorem acceptanceForgetsThePreviousCommand : Obligations.AcceptanceForgetsThePreviousCommand := by
  intro s₁ s₂ v rest i hd hb₁ hb₂ hs₁ hs₂ hmark hdin hdout hlen hsource hcursor hheld hsink hanswers hreads hmax
    hdraws
  rw [step_write_cmd hs₁ hb₁ hd, step_write_cmd (hs₂.trans hs₁) hb₂ hd]
  simp only [State.accept, hmark, hdin, hdout, hlen, hsource, hcursor, hheld, hsink, hanswers, hreads, hmax,
    hdraws]

/-- Settles O11: the writable operand registers, and the refused rest. -/
theorem otherRegisterWrites : Obligations.OtherRegisterWrites := by
  refine ⟨fun s v rest _ => ⟨fun hs hb => ?_, fun hs hb => ?_, fun hs hb => ?_⟩, fun s off v rest _ hs ho => ?_⟩
  · exact (step_write hs).trans (congrArg _ (State.portWrite_din hb))
  · exact (step_write hs).trans (congrArg _ (State.portWrite_len hb))
  · rcases hs with hs | hs <;> exact (step_write hs).trans (congrArg _ (State.portWrite_busy _ _ _ hb))
  · exact (step_write hs).trans (congrArg _ (State.portWrite_not_writable _ v ho))

/-- Settles O15: the three ways the sequencer gets the turn, in a busy and in a quiet block. -/
theorem stepRunsTheAcceptedCommand : Obligations.StepRunsTheAcceptedCommand := by
  refine ⟨fun s i _ hb hd => ⟨fun hs => ?_, fun rest hs => ?_, fun rest hs => ?_⟩,
    fun s _ hb => ⟨fun hs => ?_, fun rest hs => ?_⟩⟩
  · exact step_alone hs hd hb
  · exact (step_host hs).trans (sequencerTurn_busy hb hd)
  · exact (step_wait_busy hb hs).trans (sequencerTurn_busy hb hd)
  · exact (step_sequencer hs).trans (sequencerTurn_quiet hb)
  · rcases hs with hs | hs
    · exact (step_host hs).trans (sequencerTurn_quiet hb)
    · exact (step_host hs).trans (hostAction_wait_quiet hb)

/-- Settles O16: the word placed is a command's code, and acceptance makes the block busy with it. -/
theorem fetchedCommandIsTheNextStep : Obligations.FetchedCommandIsTheNextStep := by
  intro s i
  refine ⟨_, rfl, ?_, rfl, rfl⟩
  rw [State.withFetchWord, BitVec.ofNat_toNat, BitVec.setWidth_eq, step_loadCommand]
  exact sequencerTurn_busy rfl (decode_encode i)

end Sys2Proof.Machine
end

section
/-! PROOFS. Accesses to the internal buffers (R53): the bytes a read takes its value from, the byte a write puts at
each offset, and the accesses that have no meaning. -/

namespace Sys2Proof.Machine

/-! ### The bytes of a value and of a slice -/

/-- Byte `j` of the little-endian bytes of `v` is `(v >> 8j) mod 256` (R53). -/
theorem leBytes_getElem? {n v j : Nat} (hj : j < n) :
    (leBytes n v)[j]? = some (BitVec.ofNat 8 (v >>> (8 * j))) := by
  induction n generalizing v j with
  | zero => omega
  | succ n ih =>
    cases j with
    | zero => rfl
    | succ j =>
      have shift : v >>> (8 * (j + 1)) = (v / 256) >>> (8 * j) := by
        rw [show 8 * (j + 1) = 8 + 8 * j by omega, Nat.shiftRight_add, Nat.shiftRight_eq_div_pow v 8]
      rw [leBytes, List.getElem?_cons_succ, ih (by omega), shift]

/-- A slice that begins within the buffer begins with the byte there. -/
theorem slice_succ {B : List Byte} {off : Nat} (n : Nat) (h : off < B.length) :
    slice B off (n + 1) = B.getD off 0 :: slice B (off + 1) n := by
  rw [slice, List.drop_eq_getElem_cons h, List.take_succ_cons, List.getD_eq_getElem B 0 h, slice]

/-! ### The accesses with a meaning -/

/-- The accesses R53 gives a meaning. -/
theorem memAccessOk_iff {B : List Byte} {off n : Nat} :
    memAccessOk B off n = true ↔ (n = 1 ∨ n = 2) ∧ off + n ≤ B.length := by
  simp [memAccessOk]

/-- A read of any other kind has none (R53). -/
theorem memRead_eq_none {B : List Byte} {off n : Nat} (h : ¬ ((n = 1 ∨ n = 2) ∧ off + n ≤ B.length)) :
    memRead B off n = none :=
  if_neg (mt memAccessOk_iff.mp h)

/-- A write of any other kind has none (R53). -/
theorem memWrite_eq_none {B : List Byte} {off n : Nat} (v : Nat)
    (h : ¬ ((n = 1 ∨ n = 2) ∧ off + n ≤ B.length)) : memWrite B off n v = none :=
  if_neg (mt memAccessOk_iff.mp h)

/-- A write that has a meaning is within bounds. -/
theorem memWrite_bounds {B B' : List Byte} {off n v : Nat} (h : memWrite B off n v = some B') :
    (n = 1 ∨ n = 2) ∧ off + n ≤ B.length :=
  not_not.mp fun hout => nomatch (memWrite_eq_none v hout).symm.trans h

/-! ### Reads and writes -/

/-- A 1-byte read gives the byte (R53). -/
theorem memRead_one {B : List Byte} {off : Nat} (h : off + 1 ≤ B.length) :
    memRead B off 1 = some (B.getD off 0).toNat := by
  rw [memRead_ok (.inl rfl) h, slice_succ 0 (by omega)]
  rfl

/-- A 2-byte read takes the low byte first (R53). -/
theorem memRead_two {B : List Byte} {off : Nat} (h : off + 2 ≤ B.length) :
    memRead B off 2 = some ((B.getD off 0).toNat + 256 * (B.getD (off + 1) 0).toNat) := by
  rw [memRead_ok (.inr rfl) h, slice_succ 1 (by omega), slice_succ 0 (by omega)]
  rfl

/-- The byte a write puts at offset `j` of the access (R53). -/
theorem memWrite_getElem? {B B' : List Byte} {off n v j : Nat} (h : memWrite B off n v = some B') (hj : j < n) :
    B'[off + j]? = some (BitVec.ofNat 8 (v >>> (8 * j))) := by
  obtain ⟨hn, hoff⟩ := memWrite_bounds h
  obtain rfl := Option.some.inj ((memWrite_ok hn hoff).symm.trans h)
  have htake : (B.take off).length = off := List.length_take_of_le (by omega)
  rw [List.append_assoc, List.getElem?_append_right (by omega), htake, Nat.add_sub_cancel_left,
    List.getElem?_append_left (by simpa using hj), leBytes_getElem? hj]

/-- Settles O28: the two reads, the length, byte and frame rules of a write, and the accesses without a meaning. -/
theorem bufferAccess : Obligations.BufferAccess := by
  refine ⟨fun _ _ => memRead_one, fun _ _ => memRead_two, fun B off n v hn h => ?_,
    fun _ _ _ v h => ⟨memRead_eq_none h, memWrite_eq_none v h⟩⟩
  have hw := memWrite_ok (v := v) hn h
  exact ⟨_, hw, memWrite_length hw, fun _ => memWrite_getElem? hw, fun _ => memWrite_frame hw⟩

end Sys2Proof.Machine
end

section
/-! PROOFS. The decoder and the encoder: the table of R71 read as the fields of R72, the reserved codes (R73), and
when a header parse fails (R83, R162 to R164). -/

namespace Sys2Proof.Machine

/-! ### The header parses -/

/-- The tags of a 44-byte image, at the offsets of R80 (R163). -/
theorem linFields_tagsOk_iff {H : List Byte} : (linFields H).tagsOk = true ↔
    slice H 0 4 = tagRiff ∧ slice H 8 8 = tagWaveFmt ∧ slice H 36 4 = tagData := by
  simp [LinearHeader.tagsOk, linFields, and_assoc]

/-- The tags of a 58-byte image, at the offsets of R81 (R163). -/
theorem cmpFields_tagsOk_iff {H : List Byte} : (cmpFields H).tagsOk = true ↔
    slice H 0 4 = tagRiff ∧ slice H 8 8 = tagWaveFmt ∧ slice H 38 4 = tagFact ∧ slice H 50 4 = tagData := by
  simp [CompandedHeader.tagsOk, cmpFields, and_assoc]

/-- A linear header parses exactly when its tags match (R162). -/
theorem parseLin_succeeds_iff {H : List Byte} : (∃ h, parseLin H = .ok h) ↔ (linFields H).tagsOk = true := by
  rcases parseLin_cases H with ⟨htags, e⟩ | ⟨htags, e⟩ <;> simp [htags, e]

/-- A companded header parses exactly when its tags match (R164). -/
theorem parseCmp_succeeds_iff {H : List Byte} : (∃ h, parseCmp H = .ok h) ↔ (cmpFields H).tagsOk = true := by
  rcases parseCmp_cases H with ⟨htags, e⟩ | ⟨htags, e⟩ <;> simp [htags, e]

/-- `BadMagic` is the only error of a linear parse (R162). -/
theorem parseLin_error {H : List Byte} {e : ErrKind} (h : parseLin H = .error e) : e = .badMagic := by
  rcases parseLin_cases H with ⟨-, hp⟩ | ⟨-, hp⟩ <;> cases hp.symm.trans h
  rfl

/-- `BadMagic` is the only error of a companded parse (R164). -/
theorem parseCmp_error {H : List Byte} {e : ErrKind} (h : parseCmp H = .error e) : e = .badMagic := by
  rcases parseCmp_cases H with ⟨-, hp⟩ | ⟨-, hp⟩ <;> cases hp.symm.trans h
  rfl

/-- Settles O36: a parse is decided by the tag check alone. -/
theorem parseFailsOnlyOnTags : Obligations.ParseFailsOnlyOnTags :=
  ⟨fun _ => parseLin_succeeds_iff.trans linFields_tagsOk_iff,
    fun _ => parseCmp_succeeds_iff.trans cmpFields_tagsOk_iff,
    fun _ _ h => h.elim parseLin_error parseCmp_error⟩

/-! ### The table against the encoder -/

/-- Every row matches the whole code (R72), and the code it matches is its command's encoding. -/
theorem opcodeTable_row : ∀ r ∈ opcodeTable, r.mask = 0xFF ∧ r.pattern = encode r.instr := by
  decide

/-- A code decodes to a command exactly when it is the command's encoding (R71, R72). -/
theorem decode_eq_ok_iff {c : Byte} {i : Instr} : decode c = .ok i ↔ c = encode i := by
  constructor
  · intro h
    unfold decode at h
    split at h
    · next r hr =>
      cases h
      obtain ⟨hmask, hpattern⟩ := opcodeTable_row r (List.mem_of_find?_eq_some hr)
      have hmatch : c &&& r.mask = r.pattern := by simpa using List.find?_some hr
      rw [hmask, hpattern] at hmatch
      exact (BitVec.and_allOnes (x := c)).symm.trans hmatch
    · cases h
  · rintro rfl
    exact decode_encode i

/-- Bytes that begin with a command's code decode to it, and the rest is handed back (R70). -/
theorem decodeBytes_encodeBytes_append (i : Instr) (rest : List Byte) :
    decodeBytes (encodeBytes i ++ rest) = .ok (i, rest) := by
  simp [encodeBytes, decodeBytes, decode_encode]

/-! ### The fields of a code (R72) -/

/-- The fields `GRP`, `V[3:2]`, `DIR` and `LAW` of a code of group 1 or 2. -/
theorem lawCode_fields (grp : BitVec 4) (dir : Dir) (law : Law) :
    (lawCode grp dir law).extractLsb' 4 4 = grp ∧ (lawCode grp dir law).extractLsb' 2 2 = 0 ∧
    ((lawCode grp dir law).getLsbD 1 = true ↔ dir = .dec) ∧
    ((lawCode grp dir law).getLsbD 0 = true ↔ law = .U) := by
  revert grp
  cases dir <;> cases law <;> decide

/-- The fields `GRP` and `SEL` of a code of group 3. -/
theorem convCode_fields (sel : BitVec 4) :
    (convCode sel).extractLsb' 4 4 = 3 ∧ (convCode sel).extractLsb' 0 4 = sel := by
  revert sel
  decide

/-- `SEL` of a conversion (R72). -/
def ConvKind.sel : ConvKind → BitVec 4
  | .l2c .A => 0
  | .l2c .U => 1
  | .c2l => 2

/-- No two conversions have one `SEL`. -/
theorem ConvKind.sel_inj {k k' : ConvKind} : k = k' ↔ k.sel = k'.sel := by
  rcases k with (_ | _) | _ <;> rcases k' with (_ | _) | _ <;> decide

/-- A buffer command's code is in group 2, with the command's direction and law. -/
theorem encode_of_buffer {i : Instr} {law : Law} {dir : Dir} (h : commandClass i = .buffer law dir) :
    encode i = lawCode 2 dir law := by
  cases i <;> cases h <;> rfl

/-- A LUT command's code is in group 1, with the command's direction and law. -/
theorem encode_of_lut {i : Instr} (h : commandClass i = .lut) : ∃ dir law, encode i = lawCode 1 dir law ∧
    (dir = .dec ↔ i = .alawDec ∨ i = .ulawDec) ∧ (law = .U ↔ i = .ulawEnc ∨ i = .ulawDec) := by
  cases i <;> cases h
  case alawEnc => exact ⟨.enc, .A, rfl, by decide⟩
  case ulawEnc => exact ⟨.enc, .U, rfl, by decide⟩
  case alawDec => exact ⟨.dec, .A, rfl, by decide⟩
  case ulawDec => exact ⟨.dec, .U, rfl, by decide⟩

/-- A conversion's code is in group 3, with the conversion's `SEL`. -/
theorem encode_of_conv {i : Instr} {kind : ConvKind} (h : commandClass i = .conv kind) :
    encode i = convCode kind.sel := by
  cases i <;> cases h <;> rfl

/-- Settles O13: each class of command has one form of code, whose fields are read back. -/
theorem codeFieldsAgreeWithTheTable : Obligations.CodeFieldsAgreeWithTheTable := by
  refine ⟨fun _ _ => decode_eq_ok_iff, decodeBytes_encodeBytes_append, fun i law dir h => ?_, fun i h => ?_,
    fun i kind h => ?_⟩
  · rw [encode_of_buffer h]
    exact lawCode_fields 2 dir law
  · obtain ⟨dir, law, e, hdir, hlaw⟩ := encode_of_lut h
    rw [e, ← hdir, ← hlaw]
    exact lawCode_fields 1 dir law
  · obtain ⟨hgrp, hsel⟩ := convCode_fields kind.sel
    rw [encode_of_conv h, hsel]
    exact ⟨hgrp, ConvKind.sel_inj, ConvKind.sel_inj, ConvKind.sel_inj⟩

/-! ### The command codes and the reserved ones -/

/-- The eleven codes of R71, in the order of the table. -/
def commandCodeList : List Byte := opcodeTable.map OpcodeRow.pattern

/-- The code of every command is one of the eleven. -/
theorem encode_mem_commandCodeList (i : Instr) : encode i ∈ commandCodeList := by
  cases i <;> decide

/-- A code that decodes to a command is one of the eleven (R71). -/
theorem mem_commandCodeList_of_decode {c : Byte} {i : Instr} (h : decode c = .ok i) : c ∈ commandCodeList :=
  decode_eq_ok_iff.mp h ▸ encode_mem_commandCodeList i

/-- Settles O12, row by row; a code that decodes is its command's encoding. -/
theorem commandCodes : Obligations.CommandCodes :=
  ⟨rfl, rfl, rfl, rfl, rfl, rfl, rfl, rfl, rfl, rfl, rfl, fun _ _ => mem_commandCodeList_of_decode⟩

/-- A byte is a command's code exactly when it decodes to a command. -/
theorem commandCode_iff_decodes {c : Byte} : commandCode c = true ↔ ∃ i, decode c = .ok i := by
  unfold commandCode
  cases decode c <;> simp

/-- The eleven codes, and no others, are command codes (R71). -/
theorem commandCode_iff_mem {c : Byte} : commandCode c = true ↔ c ∈ commandCodeList := by
  constructor
  · intro h
    obtain ⟨i, hi⟩ := commandCode_iff_decodes.mp h
    exact mem_commandCodeList_of_decode hi
  · intro h
    obtain ⟨r, hr, rfl⟩ := List.mem_map.mp h
    exact commandCode_iff_decodes.mpr ⟨r.instr, decode_eq_ok_iff.mpr (opcodeTable_row r hr).2⟩

/-- Among the 256 codes, taken as numbers, the command codes are the eleven. -/
theorem commandCode_numbers :
    ((List.range 256).filter fun n => commandCode (BitVec.ofNat 8 n)).Perm (commandCodeList.map BitVec.toNat) := by
  refine (List.perm_ext_iff_of_nodup (List.nodup_range.filter _) (by decide)).mpr fun n => ?_
  rw [List.mem_filter, List.mem_range, commandCode_iff_mem, List.mem_map]
  constructor
  · rintro ⟨hn, hmem⟩
    exact ⟨_, hmem, Nat.mod_eq_of_lt hn⟩
  · rintro ⟨c, hc, rfl⟩
    rw [BitVec.ofNat_toNat, BitVec.setWidth_eq]
    exact ⟨c.isLt, hc⟩

/-- All the 256 codes but the eleven are reserved (R73). -/
theorem reservedCodes_length :
    ((List.range 256).filter fun n => !commandCode (BitVec.ofNat 8 n)).length = 245 := by
  have eleven : (commandCodeList.map BitVec.toNat).length = 11 := rfl
  have split := List.length_eq_length_filter_add (l := List.range 256) fun n => commandCode (BitVec.ofNat 8 n)
  rw [List.length_range, commandCode_numbers.length_eq, eleven] at split
  omega

/-- A number below 256 that is none of the eleven is a reserved code (R73). -/
theorem commandCode_ofNat_eq_false {n : Nat} (hn : n < 256) (h : n ∉ commandCodeList.map BitVec.toNat) :
    commandCode (BitVec.ofNat 8 n) = false :=
  Bool.eq_false_iff.mpr fun hc =>
    h (commandCode_numbers.mem_iff.mp (List.mem_filter.mpr ⟨List.mem_range.mpr hn, hc⟩))

/-- Where the eleven codes lie: four in group 1, four in group 2, three in group 3 (R71). -/
theorem commandCodeList_ranges : ∀ n ∈ commandCodeList.map BitVec.toNat,
    (0x10 ≤ n ∧ n ≤ 0x13) ∨ (0x20 ≤ n ∧ n ≤ 0x23) ∨ (0x30 ≤ n ∧ n ≤ 0x32) := by
  decide

/-- Settles O14: the reserved codes are the rest of the 256, the listed ranges hold none of the eleven, and the port
refuses a code that does not decode. -/
theorem reservedCodesAreRefused : Obligations.ReservedCodesAreRefused := by
  refine ⟨reservedCodes_length, fun n hn => ?_, fun s v rest _ hs hreserved => ?_⟩
  · refine commandCode_ofNat_eq_false (by omega) fun hmem => ?_
    have := commandCodeList_ranges n hmem
    omega
  · have undecoded : ∀ i, decode (v.setWidth 8) ≠ .ok i := fun i hi =>
      Bool.eq_false_iff.mp hreserved (commandCode_iff_decodes.mpr ⟨i, hi⟩)
    exact ⟨_, (step_write hs).trans (congrArg _ (State.portWrite_cmd_reserved undecoded)), rfl, rfl⟩

end Sys2Proof.Machine
end

section
/-! PROOFS. The scale of the two laws (R103 to R106, R115, R116), on magnitudes. A codeword without its sign is a
number `k` below 128. Its cell is the magnitudes from `lower k` up to `lower (k + 1)`, in both laws eight rows of
sixteen cells whose width doubles from row to row, and `level k` is the magnitude it decodes to. -/

namespace Sys2Proof.Machine

/-! ### The leading bit -/

theorem bitlenAux_eq_log2 {fuel m : Nat} (hm : m ≠ 0) (hf : m ≤ fuel) : bitlenAux fuel m = Nat.log2 m + 1 := by
  induction fuel generalizing m with
  | zero => omega
  | succ fuel ih =>
    rw [bitlenAux, if_neg hm, Nat.log2_def]
    by_cases h2 : 2 ≤ m
    · rw [if_pos h2, ih (by omega) (by omega)]
    · have half : m / 2 = 0 := by omega
      cases fuel <;> simp [bitlenAux, half, h2]

/-- `bitlen` is one more than the position of the leading bit (R8). -/
theorem bitlen_eq_log2 {m : Nat} (hm : m ≠ 0) : bitlen m = Nat.log2 m + 1 :=
  bitlenAux_eq_log2 hm le_rfl

/-- Dropping the low `j` bits shortens a number by `j` bits. -/
theorem bitlen_shiftRight {m j : Nat} (h : 2 ^ j ≤ m) : bitlen (m >>> j) = Nat.log2 m - j + 1 := by
  have pos : 0 < m / 2 ^ j := Nat.div_pos h (by positivity)
  rw [Nat.shiftRight_eq_div_pow, bitlen_eq_log2 pos.ne', Nat.log2_eq_log_two, Nat.log_div_base_pow,
    Nat.log2_eq_log_two]

/-- The position of the leading bit is between those of two powers of two. -/
theorem log2_bounds {m a b : Nat} (ha : 2 ^ a ≤ m) (hb : m < 2 ^ b) : a ≤ Nat.log2 m ∧ Nat.log2 m < b := by
  have hm : m ≠ 0 := (Nat.two_pow_pos a |>.trans_le ha).ne'
  exact ⟨(Nat.le_log2 hm).mpr ha, (Nat.log2_lt hm).mpr hb⟩

/-- Settles O24: both segments come from the leading bit, and the clamp bounds it. -/
theorem segmentIsTheLeadingBit : Obligations.SegmentIsTheLeadingBit := by
  refine ⟨fun m hlo hhi => ?_, fun m hm => ?_⟩
  · have bounds := log2_bounds (m := m) (a := 8) (b := 15) (by omega) (by omega)
    rw [bitlen_shiftRight (by omega)]
    omega
  · have bounds := log2_bounds (m := m + 132) (a := 7) (b := 15) (by omega) (by omega)
    rw [bitlen_shiftRight (by omega)]
    omega

/-! ### Segments and their sixteen cells -/

/-- The first number of cell `k` of a scale in which row `e` is `[2^(e+7), 2^(e+8))`, cut into sixteen cells. -/
def cellStart (k : Nat) : Nat := (16 + k % 16) * 2 ^ (k / 16 + 3)

/-- The cell that holds `m`: its segment by the leading bit, then the four bits after it. -/
def cellOf (m : Nat) : Nat := 16 * (Nat.log2 m - 7) + m / 2 ^ (Nat.log2 m - 4) % 16

theorem cellStart_succ (k : Nat) : cellStart (k + 1) = cellStart k + 2 ^ (k / 16 + 3) := by
  unfold cellStart
  by_cases hlast : k % 16 = 15
  · have hq : (k + 1) % 16 = 0 := by omega
    have he : (k + 1) / 16 = k / 16 + 1 := by omega
    rw [hq, he, hlast]
    ring
  · have hq : (k + 1) % 16 = k % 16 + 1 := by omega
    have he : (k + 1) / 16 = k / 16 := by omega
    rw [hq, he]
    ring

theorem cellStart_strictMono : StrictMono cellStart :=
  strictMono_nat_of_lt_succ fun k => cellStart_succ k ▸ Nat.lt_add_of_pos_right (by positivity)

theorem le_cellStart (k : Nat) : 128 ≤ cellStart k := cellStart_strictMono.monotone k.zero_le

/-- `cellOf` finds the cell a number lies in. -/
theorem cellOf_spec {m : Nat} (hm : 128 ≤ m) : cellStart (cellOf m) ≤ m ∧ m < cellStart (cellOf m + 1) := by
  have hm0 : m ≠ 0 := by omega
  obtain ⟨e, he⟩ := Nat.exists_eq_add_of_le' ((Nat.le_log2 (k := 7) hm0).mpr hm)
  have hlo : 16 ≤ m / 2 ^ (e + 3) := by
    rw [Nat.le_div_iff_mul_le (by positivity)]
    calc
      16 * 2 ^ (e + 3) = 2 ^ Nat.log2 m := by rw [he]; ring
      _ ≤ m := Nat.log2_self_le hm0
  have hhi : m / 2 ^ (e + 3) < 32 := by
    rw [Nat.div_lt_iff_lt_mul (by positivity)]
    calc
      m < 2 ^ (Nat.log2 m + 1) := Nat.lt_log2_self
      _ = 32 * 2 ^ (e + 3) := by rw [he]; ring
  have hcell : cellOf m = 16 * e + (m / 2 ^ (e + 3) - 16) := by
    rw [cellOf, he, show e + 7 - 4 = e + 3 by omega]
    omega
  have hrow : (16 * e + (m / 2 ^ (e + 3) - 16)) / 16 = e := by omega
  have hstart : cellStart (cellOf m) = m / 2 ^ (e + 3) * 2 ^ (e + 3) := by
    rw [cellStart, hcell, hrow]
    congr 1
    omega
  rw [cellStart_succ, hstart, hcell, hrow]
  exact ⟨Nat.div_mul_le_self _ _, Nat.lt_div_mul_add (by positivity)⟩

/-! ### The scale of a law -/

/-- The least magnitude of cell `k` (R115, R116): A-law's first row is as fine as its second, µ-law's is biased. -/
def Law.lower : Law → Nat → Nat
  | .A, k => if k < 16 then 16 * k else cellStart k
  | .U, k => cellStart k - ulawBias16

/-- The magnitude cell `k` decodes to (R105, R106). -/
def Law.level : Law → Nat → Nat
  | .A, k => if k < 16 then 16 * k + 8 else cellStart k + 2 ^ (k / 16 + 2)
  | .U, k => cellStart k + 2 ^ (k / 16 + 2) - ulawBias16

/-- Half the step of cell `k` (R109 f). -/
def Law.halfStep : Law → Nat → Nat
  | .A, k => 2 ^ (max (k / 16) 1 + 2)
  | .U, k => 2 ^ (k / 16 + 2)

/-- The cell of a magnitude that is not clamped (R103, R104). -/
def Law.rawIndex : Law → Nat → Nat
  | .A, m => if 256 ≤ m then cellOf m else m / 16
  | .U, m => cellOf (m + ulawBias16)

/-- The cell the encoder puts a magnitude in: that of the clamped magnitude. -/
def Law.index (law : Law) (m : Nat) : Nat := law.rawIndex (min m clip)

theorem Law.lower_A_of_le {k : Nat} (h : k ≤ 16) : Law.lower .A k = 16 * k := by
  rcases h.lt_or_eq with h | rfl
  · exact if_pos h
  · rfl

theorem Law.lower_A_of_ge {k : Nat} (h : 16 ≤ k) : Law.lower .A k = cellStart k := if_neg (by omega)

theorem Law.level_A_of_lt {k : Nat} (h : k < 16) : Law.level .A k = 16 * k + 8 := if_pos h

theorem Law.level_A_of_ge {k : Nat} (h : 16 ≤ k) : Law.level .A k = cellStart k + 2 ^ (k / 16 + 2) :=
  if_neg (by omega)

theorem Law.halfStep_A_of_lt {k : Nat} (h : k < 16) : Law.halfStep .A k = 8 := by
  rw [Law.halfStep, show k / 16 = 0 by omega]
  rfl

theorem Law.halfStep_A_of_ge {k : Nat} (h : 16 ≤ k) : Law.halfStep .A k = 2 ^ (k / 16 + 2) := by
  rw [Law.halfStep, show max (k / 16) 1 = k / 16 by omega]

theorem Law.four_le_halfStep (law : Law) (k : Nat) : 4 ≤ law.halfStep k := by
  cases law <;> exact Nat.pow_le_pow_right (n := 2) (i := 2) (by decide) (by omega)

/-- The widest step is 1024 (R109 f). -/
theorem Law.halfStep_le {law : Law} {k : Nat} (hk : k < 128) : law.halfStep k ≤ 512 := by
  cases law <;> exact Nat.pow_le_pow_right (n := 2) (j := 9) (by decide) (by omega)

/-- A level is at most half a step above the start of its cell. -/
theorem Law.level_bounds (law : Law) (k : Nat) :
    law.lower k ≤ law.level k ∧ law.level k ≤ law.lower k + law.halfStep k := by
  cases law with
  | A =>
    rcases lt_or_ge k 16 with h | h
    · rw [lower_A_of_le h.le, level_A_of_lt h, halfStep_A_of_lt h]
      omega
    · rw [lower_A_of_ge h, level_A_of_ge h, halfStep_A_of_ge h]
      exact ⟨Nat.le_add_right _ _, le_rfl⟩
  | U =>
    simp only [lower, level, halfStep]
    generalize 2 ^ (k / 16 + 2) = half
    omega

/-- A cell ends half a step above its level. -/
theorem Law.lower_succ (law : Law) (k : Nat) : law.lower (k + 1) = law.level k + law.halfStep k := by
  have double : 2 ^ (k / 16 + 3) = 2 ^ (k / 16 + 2) + 2 ^ (k / 16 + 2) := by ring
  cases law with
  | A =>
    rcases lt_or_ge k 16 with h | h
    · rw [lower_A_of_le h, level_A_of_lt h, halfStep_A_of_lt h]
      omega
    · rw [lower_A_of_ge (by omega), level_A_of_ge h, halfStep_A_of_ge h, cellStart_succ, double, Nat.add_assoc]
  | U =>
    have start := le_cellStart k
    have half := Law.four_le_halfStep .U k
    simp only [lower, level, halfStep, cellStart_succ, double, ulawBias16] at half ⊢
    omega

theorem Law.level_lt_lower_succ (law : Law) (k : Nat) : law.level k < law.lower (k + 1) := by
  have half := law.four_le_halfStep k
  rw [lower_succ]
  omega

theorem Law.lower_strictMono (law : Law) : StrictMono law.lower :=
  strictMono_nat_of_lt_succ fun k => (law.level_bounds k).1.trans_lt (law.level_lt_lower_succ k)

theorem Law.level_strictMono (law : Law) : StrictMono law.level :=
  strictMono_nat_of_lt_succ fun k => (law.level_lt_lower_succ k).trans_le (law.level_bounds (k + 1)).1

/-- A magnitude lies in its cell. -/
theorem Law.rawIndex_spec (law : Law) (m : Nat) :
    law.lower (law.rawIndex m) ≤ m ∧ m < law.lower (law.rawIndex m + 1) := by
  cases law with
  | A =>
    by_cases h : 256 ≤ m
    · obtain ⟨lo, hi⟩ := cellOf_spec (m := m) (by omega)
      have row : 16 ≤ cellOf m := by
        have past : cellStart 16 < cellStart (cellOf m + 1) := h.trans_lt hi
        exact Nat.le_of_lt_succ (cellStart_strictMono.lt_iff_lt.mp past)
      rw [rawIndex, if_pos h, lower_A_of_ge row, lower_A_of_ge (by omega)]
      exact ⟨lo, hi⟩
    · rw [rawIndex, if_neg h, lower_A_of_le (by omega), lower_A_of_le (by omega)]
      omega
  | U =>
    have cell := cellOf_spec (m := m + ulawBias16) (by simp only [ulawBias16]; omega)
    have start := le_cellStart (cellOf (m + ulawBias16) + 1)
    simp only [rawIndex, lower]
    omega

theorem Law.rawIndex_eq_iff (law : Law) {m k : Nat} :
    law.rawIndex m = k ↔ law.lower k ≤ m ∧ m < law.lower (k + 1) := by
  obtain ⟨lo, hi⟩ := law.rawIndex_spec m
  constructor
  · rintro rfl
    exact ⟨lo, hi⟩
  · rintro ⟨klo, khi⟩
    have le := law.lower_strictMono.lt_iff_lt.mp (lo.trans_lt khi)
    have ge := law.lower_strictMono.lt_iff_lt.mp (klo.trans_lt hi)
    omega

/-! ### The cells of the clamped magnitudes -/

/-- The clamp lies in cell 127 of both laws, the last. -/
theorem Law.clip_bounds (law : Law) : law.lower 127 ≤ clip ∧ clip < law.lower 128 := by
  cases law <;> decide

/-- The magnitudes of cell `k`: those from its start to the next, and in the last cell all that follow, because of
the clamp. -/
theorem Law.index_eq_iff (law : Law) {m k : Nat} (hk : k < 128) :
    law.index m = k ↔ law.lower k ≤ m ∧ (k = 127 ∨ m < law.lower (k + 1)) := by
  obtain ⟨clipLo, clipHi⟩ := law.clip_bounds
  rw [index, rawIndex_eq_iff]
  rcases (show k ≤ 127 by omega).lt_or_eq with h | rfl
  · have start : law.lower k ≤ law.lower 127 := law.lower_strictMono.monotone h.le
    have stop : law.lower (k + 1) ≤ law.lower 127 := law.lower_strictMono.monotone h
    omega
  · exact ⟨fun h => ⟨h.1.trans (Nat.min_le_left _ _), .inl rfl⟩,
      fun h => ⟨Nat.le_min.mpr ⟨h.1, clipLo⟩, (Nat.min_le_right _ _).trans_lt clipHi⟩⟩

theorem Law.index_lt (law : Law) (m : Nat) : law.index m < 128 := by
  have lo := (law.rawIndex_spec (min m clip)).1
  exact law.lower_strictMono.lt_iff_lt.mp (lo.trans_lt ((Nat.min_le_right m clip).trans_lt law.clip_bounds.2))

theorem Law.index_mono (law : Law) : Monotone law.index := fun a b hab => by
  have lo := (law.rawIndex_spec (min a clip)).1
  have hi := (law.rawIndex_spec (min b clip)).2
  have hmin : min a clip ≤ min b clip := min_le_min_right clip hab
  exact Nat.le_of_lt_succ (law.lower_strictMono.lt_iff_lt.mp (lo.trans_lt (hmin.trans_lt hi)))

/-- From the clamp on, every magnitude is in the last cell (R109 g). -/
theorem Law.index_of_clip_le (law : Law) {m : Nat} (hm : clip ≤ m) : law.index m = 127 :=
  (law.index_eq_iff (by decide)).mpr ⟨law.clip_bounds.1.trans hm, .inl rfl⟩

/-- A level lies in its own cell. -/
theorem Law.index_level (law : Law) {k : Nat} (hk : k < 128) : law.index (law.level k) = k :=
  (law.index_eq_iff hk).mpr ⟨(law.level_bounds k).1, .inr (law.level_lt_lower_succ k)⟩

/-- Up to the clamp a magnitude is at most half a step from the level of its cell (R109 f). -/
theorem Law.level_index_near (law : Law) {m : Nat} (hm : m ≤ clip) :
    law.level (law.index m) ≤ m + law.halfStep (law.index m) ∧
      m < law.level (law.index m) + law.halfStep (law.index m) := by
  obtain ⟨lo, hi⟩ := law.rawIndex_spec m
  have near := (law.level_bounds (law.rawIndex m)).2
  rw [lower_succ] at hi
  rw [index, Nat.min_eq_left hm]
  omega

/-- The levels do not exceed that of the last cell (R109 g). -/
theorem Law.level_le (law : Law) {k : Nat} (hk : k < 128) : law.level k ≤ law.level 127 :=
  law.level_strictMono.monotone (by omega)

end Sys2Proof.Machine
end

section
/-! PROOFS. The transforms on the scale of their law: a codeword is a sign and a cell, masked (R101, R76); the
encoders give the sign of the sample and the cell of its magnitude, the decoders the level with the sign. The
statements of R109 follow from these two and from the order of the cells. -/

namespace Sys2Proof.Machine

open Statements

/-! ### A codeword as a sign and a cell -/

/-- A number taken with a sign. -/
def signed (neg : Bool) (n : Nat) : Int := if neg then -n else n

@[simp] theorem signed_true (n : Nat) : signed true n = -n := rfl
@[simp] theorem signed_false (n : Nat) : signed false n = n := rfl

/-- The sign field of an unmasked codeword (R76): set for the samples that are not negative in A-law, for the
negative ones in µ-law. -/
def Law.signField : Law → Bool → Bool
  | .A, neg => !neg
  | .U, neg => neg

/-- A codeword with its mask taken off, or put on (R105, R106). -/
def Law.unmask : Law → Byte → Byte
  | .A, c => c ^^^ 0x55
  | .U, c => ~~~c

/-- The codeword of a sign and a cell. -/
def Law.codeword (law : Law) (neg : Bool) (k : Nat) : Byte :=
  law.unmask (BitVec.ofNat 8 (128 * (law.signField neg).toNat + k))

@[simp] theorem Law.unmask_unmask (law : Law) (c : Byte) : law.unmask (law.unmask c) = c := by
  cases law
  · simp [unmask]
  · simp [unmask]

theorem Law.signField_signField (law : Law) (neg : Bool) : law.signField (law.signField neg) = neg := by
  cases law <;> simp [signField]

theorem Law.unmask_codeword_toNat (law : Law) (neg : Bool) {k : Nat} (hk : k < 128) :
    (law.unmask (law.codeword neg k)).toNat = 128 * (law.signField neg).toNat + k := by
  have sign := (law.signField neg).toNat_le
  rw [codeword, unmask_unmask, BitVec.toNat_ofNat, Nat.mod_eq_of_lt (by omega)]

/-- Every byte is the codeword of a sign and a cell. -/
theorem Law.exists_codeword (law : Law) (c : Byte) : ∃ neg k, k < 128 ∧ c = law.codeword neg k := by
  have lt := (law.unmask c).isLt
  refine ⟨law.signField (decide (128 ≤ (law.unmask c).toNat)), (law.unmask c).toNat % 128, by omega, ?_⟩
  have parts : 128 * (decide (128 ≤ (law.unmask c).toNat)).toNat + (law.unmask c).toNat % 128 =
      (law.unmask c).toNat := by
    by_cases h : 128 ≤ (law.unmask c).toNat <;> simp [h] <;> omega
  rw [codeword, signField_signField, parts, BitVec.ofNat_toNat, BitVec.setWidth_eq, unmask_unmask]

/-- Different signs or cells have different codewords. -/
theorem Law.codeword_inj (law : Law) {neg neg' : Bool} {k k' : Nat} (hk : k < 128) (hk' : k' < 128) :
    law.codeword neg k = law.codeword neg' k' ↔ neg = neg' ∧ k = k' := by
  constructor
  · intro h
    have fields := congrArg (fun c => (law.unmask c).toNat) h
    simp only [unmask_codeword_toNat, hk, hk'] at fields
    have sign := (law.signField neg).toNat_le
    have sign' := (law.signField neg').toNat_le
    have toNat_eq : (law.signField neg).toNat = (law.signField neg').toNat := by omega
    have hs : law.signField neg = law.signField neg' := by
      simpa only [Bool.ofNat_toNat] using congrArg Bool.ofNat toNat_eq
    rw [hs] at fields
    exact ⟨by rw [← law.signField_signField neg, hs, signField_signField], by omega⟩
  · rintro ⟨rfl, rfl⟩
    rfl

/-! ### The decoders -/

theorem codeSegment_eq (u : Byte) : codeSegment u = u.toNat / 16 % 8 := by
  rw [codeSegment, BitVec.extractLsb'_toNat, Nat.shiftRight_eq_div_pow]

theorem codeMantissa_eq (u : Byte) : codeMantissa u = u.toNat % 16 := by
  rw [codeMantissa, BitVec.extractLsb'_toNat, Nat.shiftRight_zero]

theorem codeSign_eq (u : Byte) : codeSign u = decide (128 ≤ u.toNat) :=
  (BitVec.msb_eq_getLsbD_last u).symm.trans (BitVec.msb_eq_decide u)

/-- The fields of an unmasked codeword (R76). -/
theorem Law.unmask_codeword_fields (law : Law) (neg : Bool) {k : Nat} (hk : k < 128) :
    codeSegment (law.unmask (law.codeword neg k)) = k / 16 ∧
    codeMantissa (law.unmask (law.codeword neg k)) = k % 16 ∧
    codeSign (law.unmask (law.codeword neg k)) = law.signField neg := by
  rw [codeSegment_eq, codeMantissa_eq, codeSign_eq, unmask_codeword_toNat _ _ hk]
  cases law.signField neg <;> simp <;> omega

/-- The magnitude `t` of R105, of a cell's segment and mantissa. -/
theorem Law.level_A_eq (k : Nat) : Law.level .A k =
    if k / 16 = 0 then ((k % 16) <<< 4) + 8 else (((k % 16) <<< 4) + 0x108) <<< (k / 16 - 1) := by
  simp only [Nat.shiftLeft_eq]
  rcases lt_or_ge k 16 with h | h
  · rw [level_A_of_lt h, if_pos (by omega)]
    omega
  · obtain ⟨e, he⟩ := Nat.exists_eq_add_of_le' (show 1 ≤ k / 16 by omega)
    rw [level_A_of_ge h, if_neg (by omega), cellStart, he, Nat.add_sub_cancel]
    ring

/-- The biased magnitude `t` of R106, of a cell's segment and mantissa. -/
theorem Law.level_U_eq (k : Nat) : Law.level .U k + ulawBias16 = (((k % 16) <<< 3) + ulawBias16) <<< (k / 16) := by
  have biased : ulawBias16 ≤ cellStart k + 2 ^ (k / 16 + 2) :=
    Nat.add_le_add (le_cellStart k) (four_le_halfStep .U k)
  rw [level, Nat.sub_add_cancel biased, Nat.shiftLeft_eq, Nat.shiftLeft_eq, cellStart, ulawBias16]
  ring

/-- A decoder gives the level of the cell with the sign (R105, R106). -/
theorem decodeOf_codeword (law : Law) (neg : Bool) {k : Nat} (hk : k < 128) :
    decodeOf law (law.codeword neg k) = signed neg (law.level k) := by
  obtain ⟨segment, mantissa, sign⟩ := law.unmask_codeword_fields neg hk
  cases law with
  | A =>
    have unmasked : Law.codeword .A neg k ^^^ BitVec.ofNat 8 alawMask = Law.unmask .A (Law.codeword .A neg k) := rfl
    simp only [decodeOf, alawDecode, unmasked, segment, mantissa, sign, ← Law.level_A_eq]
    cases neg <;> rfl
  | U =>
    have unmasked : ~~~Law.codeword .U neg k = Law.unmask .U (Law.codeword .U neg k) := rfl
    simp only [decodeOf, ulawDecode, unmasked, segment, mantissa, sign, ← Law.level_U_eq, Nat.cast_add]
    cases neg
    · exact add_sub_cancel_right _ _
    · exact sub_add_cancel_right _ _

/-! ### The encoders -/

/-- A segment and its mantissa side by side are the number of the cell. -/
theorem segment_or_mantissa {m : Nat} (hm : 2 ^ 7 ≤ m) :
    (Nat.log2 m - 7) <<< 4 ||| (m >>> (Nat.log2 m - 7 + 3)) &&& 0x0F = cellOf m := by
  have mantissa (n : Nat) : n &&& 0x0F = n % 2 ^ 4 := Nat.and_two_pow_sub_one_eq_mod n 4
  have lead : 7 ≤ Nat.log2 m := (Nat.le_log2 (by omega)).mpr hm
  rw [mantissa, ← Nat.shiftLeft_add_eq_or_of_lt (Nat.mod_lt _ (by decide)), Nat.shiftLeft_eq,
    Nat.shiftRight_eq_div_pow, cellOf, show Nat.log2 m - 7 + 3 = Nat.log2 m - 4 by omega, Nat.mul_comm]

/-- The seven low bits of R103. -/
theorem alawCell_eq (m : Nat) :
    (if 256 ≤ m then bitlen (m >>> 8) <<< 4 ||| (m >>> (bitlen (m >>> 8) + 3)) &&& 0x0F else m >>> 4) =
      Law.rawIndex .A m := by
  by_cases h : 256 ≤ m
  · have lead : 8 ≤ Nat.log2 m := (Nat.le_log2 (by omega)).mpr h
    have segment : bitlen (m >>> 8) = Nat.log2 m - 7 := by
      rw [bitlen_shiftRight h]
      omega
    rw [Law.rawIndex, if_pos h, if_pos h, segment, segment_or_mantissa (by omega)]
  · rw [Law.rawIndex, if_neg h, if_neg h, Nat.shiftRight_eq_div_pow]

/-- The seven low bits of R104, of a biased magnitude. -/
theorem ulawCell_eq (m : Nat) (hm : 2 ^ 7 ≤ m) :
    (bitlen (m >>> 7) - 1) <<< 4 ||| (m >>> (bitlen (m >>> 7) - 1 + 3)) &&& 0x0F = cellOf m := by
  rw [bitlen_shiftRight hm, Nat.add_sub_cancel, segment_or_mantissa hm]

/-- Setting bit 7 over seven bits. -/
theorem bit7_xor_or {k : Nat} (hk : k < 128) : k ^^^ 0x80 = 0x80 + k ∧ 0x80 ||| k = 0x80 + k := by
  have all : ∀ k : Fin 128, k.val ^^^ 0x80 = 0x80 + k := by decide
  exact ⟨all ⟨k, hk⟩, (Nat.two_pow_add_eq_or_of_lt (i := 7) hk 1).symm⟩

/-- `alaw_encode` (R103): the sign, and the cell of the magnitude. -/
theorem alawEncode_eq (x : Int) : alawEncode x = Law.codeword .A (decide (x < 0)) (Law.index .A x.natAbs) := by
  have bit7 := (bit7_xor_or (Law.index_lt .A x.natAbs)).1
  unfold alawEncode
  simp only [alawCell_eq]
  rw [← Law.index, ← Nat.xor_assoc, BitVec.ofNat_xor]
  rcases lt_or_ge x 0 with h | h
  · simp [Law.codeword, Law.unmask, Law.signField, h, h.not_ge, alawMask]
  · simp [Law.codeword, Law.unmask, Law.signField, h, h.not_gt, alawMask, bit7]

/-- `255 − n` is the complement of the byte `n` (R8). -/
theorem ofNat_complement {n : Nat} (hn : n < 256) : BitVec.ofNat 8 (255 - n) = ~~~BitVec.ofNat 8 n := by
  apply BitVec.eq_of_toNat_eq
  rw [BitVec.toNat_not, BitVec.toNat_ofNat, BitVec.toNat_ofNat]
  omega

/-- `ulaw_encode` (R104): the sign, and the cell of the magnitude. -/
theorem ulawEncode_eq (x : Int) : ulawEncode x = Law.codeword .U (decide (x < 0)) (Law.index .U x.natAbs) := by
  have lt := Law.index_lt .U x.natAbs
  have bit7 := (bit7_xor_or lt).2
  unfold ulawEncode
  simp only [Nat.or_assoc]
  rw [ulawCell_eq _ (by simp only [ulawBias16]; omega)]
  change BitVec.ofNat 8 (255 - ((if x < 0 then 0x80 else 0) ||| Law.index .U x.natAbs)) = _
  rcases lt_or_ge x 0 with h | h
  · rw [if_pos h, bit7, ofNat_complement (by omega)]
    simp [Law.codeword, Law.unmask, Law.signField, h]
  · rw [if_neg h.not_gt, Nat.zero_or, ofNat_complement (by omega)]
    simp [Law.codeword, Law.unmask, Law.signField, h.not_gt]

/-- An encoder gives the sign of the sample and the cell of its magnitude (R103, R104). -/
theorem encodeOf_eq (law : Law) (x : Int) : encodeOf law x = law.codeword (decide (x < 0)) (law.index x.natAbs) := by
  cases law with
  | A => exact alawEncode_eq x
  | U => exact ulawEncode_eq x

/-- The samples of a codeword are those of its sign with a magnitude in its cell. -/
theorem encodeOf_eq_codeword_iff (law : Law) {x : Int} {neg : Bool} {k : Nat} (hk : k < 128) :
    encodeOf law x = law.codeword neg k ↔ decide (x < 0) = neg ∧ law.index x.natAbs = k := by
  rw [encodeOf_eq, Law.codeword_inj law (law.index_lt _) hk]

/-- What a sample is read back as (R109). -/
theorem decodeOf_encodeOf (law : Law) (x : Int) :
    decodeOf law (encodeOf law x) = signed (decide (x < 0)) (law.level (law.index x.natAbs)) := by
  rw [encodeOf_eq, decodeOf_codeword law _ (law.index_lt _)]

/-- A negative sample is read back as the opposite of its magnitude's level. -/
theorem decodeOf_encodeOf_neg (law : Law) {x : Int} (hx : x < 0) :
    decodeOf law (encodeOf law x) = -law.level (law.index x.natAbs) := by
  simp [decodeOf_encodeOf, hx]

/-- Any other sample is read back as the level of its magnitude. -/
theorem decodeOf_encodeOf_nonneg (law : Law) {x : Int} (hx : 0 ≤ x) :
    decodeOf law (encodeOf law x) = law.level (law.index x.natAbs) := by
  simp [decodeOf_encodeOf, hx.not_gt]

/-! ### R109 -/

/-- A codeword encodes back to itself, unless it is a negative zero. -/
theorem encodeOf_decodeOf_codeword (law : Law) {neg : Bool} {k : Nat} (hk : k < 128)
    (hzero : neg = true → 0 < law.level k) :
    encodeOf law (decodeOf law (law.codeword neg k)) = law.codeword neg k := by
  rw [decodeOf_codeword law neg hk, encodeOf_eq_codeword_iff law hk]
  cases neg with
  | false => exact ⟨decide_eq_false (Int.natCast_nonneg _).not_gt, law.index_level hk⟩
  | true => simp [law.index_level hk, hzero rfl]

/-- A-law has no zero among its levels. -/
theorem Law.level_A_pos (k : Nat) : 0 < Law.level .A k :=
  (show 0 < Law.level .A 0 by decide).trans_le (Law.level_strictMono .A |>.monotone k.zero_le)

/-- Settles O17: no A-law level is zero, so every codeword keeps its sign and its cell. -/
theorem alawIsExactOnCodewords : Obligations.AlawIsExactOnCodewords := by
  have exact_on (c : Byte) : alawEncode (alawDecode c) = c := by
    obtain ⟨neg, k, hk, rfl⟩ := Law.exists_codeword .A c
    exact encodeOf_decodeOf_codeword .A hk fun _ => Law.level_A_pos k
  exact ⟨exact_on, fun x _ => exact_on _⟩

/-- Every µ-law codeword but its negative zero, 0x7F, encodes back to itself (R109 e). -/
theorem ulawEncode_decode {c : Byte} (hc : c ≠ 0x7F) : ulawEncode (ulawDecode c) = c := by
  obtain ⟨neg, k, hk, rfl⟩ := Law.exists_codeword .U c
  refine encodeOf_decodeOf_codeword .U hk ?_
  rintro rfl
  have nonzero : 0 < k := Nat.pos_of_ne_zero (by rintro rfl; exact hc rfl)
  exact (Nat.zero_le _).trans_lt (Law.level_strictMono .U nonzero)

/-- The samples with µ-law's negative zero (R116). -/
theorem ulawEncode_eq_negative_zero_iff {x : Int} : ulawEncode x = 0x7F ↔ -3 ≤ x ∧ x ≤ -1 := by
  have cell : ulawEncode x = 0x7F ↔ decide (x < 0) = true ∧ Law.index .U x.natAbs = 0 :=
    encodeOf_eq_codeword_iff .U (neg := true) (k := 0) (by decide)
  have start : Law.lower .U 0 = 0 := rfl
  have next : Law.lower .U (0 + 1) = 4 := rfl
  rw [cell, Law.index_eq_iff .U (by decide), decide_eq_true_iff, start, next]
  omega

/-- Settles O18: 0x7F is the one codeword that loses its sign, and −3, −2, −1 are its samples. -/
theorem ulawIsExactOnCodewordsButOne : Obligations.UlawIsExactOnCodewordsButOne := by
  have zero : ulawEncode (ulawDecode 0x7F) = 0xFF := by decide
  refine ⟨fun _ => ulawEncode_decode, zero, fun x _ => ?_⟩
  rw [← ulawEncode_eq_negative_zero_iff]
  by_cases h : ulawEncode x = 0x7F
  · rw [h, zero]
    decide
  · exact iff_of_true (ulawEncode_decode h) h

theorem Law.unmask_xor_bit7 (law : Law) (c : Byte) : law.unmask (c ^^^ 0x80) = law.unmask c ^^^ 0x80 := by
  cases law with
  | A => rw [unmask, unmask, BitVec.xor_assoc, BitVec.xor_assoc, BitVec.xor_comm 0x80]
  | U => exact BitVec.not_xor_left

/-- The opposite sign is the other bit 7, in both laws (R109 c). -/
theorem Law.codeword_not (law : Law) (neg : Bool) {k : Nat} (hk : k < 128) :
    law.codeword (!neg) k = law.codeword neg k ^^^ 0x80 := by
  have bit7 : BitVec.ofNat 8 (128 + k) = BitVec.ofNat 8 k ^^^ 0x80 := by
    rw [← (bit7_xor_or hk).1, BitVec.ofNat_xor]
    rfl
  have flip : law.signField (!neg) = !law.signField neg := by cases law <;> rfl
  rw [codeword, codeword, ← unmask_xor_bit7, flip]
  cases law.signField neg <;> simp [bit7]

/-- Settles O19: the sign is bit 7 of the codeword, whatever the cell. -/
theorem transformsAreOdd : Obligations.TransformsAreOdd := by
  refine fun law => ⟨fun x hlo _ => ?_, fun c => ?_⟩
  · rw [encodeOf_eq, encodeOf_eq, Int.natAbs_neg, ← law.codeword_not _ (law.index_lt _)]
    simp [show 0 < x by omega, show ¬ x < 0 by omega]
  · obtain ⟨neg, k, hk, rfl⟩ := law.exists_codeword c
    rw [← law.codeword_not neg hk, decodeOf_codeword law _ hk, decodeOf_codeword law _ hk]
    cases neg <;> simp

/-- Settles O20: levels grow with the cell and cells with the magnitude, and the sign is kept. -/
theorem encodersAreMonotoneAfterDecoding : Obligations.EncodersAreMonotoneAfterDecoding := by
  intro law x y _ _ hxy
  have mono {a b : Nat} (hab : a ≤ b) : law.level (law.index a) ≤ law.level (law.index b) :=
    law.level_strictMono.monotone (law.index_mono hab)
  rcases lt_or_ge x 0 with hx | hx
  · rw [decodeOf_encodeOf_neg law hx]
    rcases lt_or_ge y 0 with hy | hy
    · have grows := mono (show y.natAbs ≤ x.natAbs by omega)
      rw [decodeOf_encodeOf_neg law hy]
      omega
    · rw [decodeOf_encodeOf_nonneg law hy]
      omega
  · have grows := mono (show x.natAbs ≤ y.natAbs by omega)
    rw [decodeOf_encodeOf_nonneg law hx, decodeOf_encodeOf_nonneg law (hx.trans hxy)]
    exact Int.ofNat_le.mpr grows

/-- Among the magnitudes of samples, those of a cell are one interval. -/
theorem Law.index_interval (law : Law) {k : Nat} (hk : k < 128) :
    ∃ lo hi, lo ≤ hi ∧ lo ≤ clip ∧ 1 ≤ hi ∧ hi ≤ 32768 ∧ ∀ m ≤ 32768, law.index m = k ↔ lo ≤ m ∧ m ≤ hi := by
  have clipLo := law.clip_bounds.1
  have clip_eq : clip = 32635 := rfl
  rcases (show k ≤ 127 by omega).lt_or_eq with h | rfl
  · have stop : law.lower (k + 1) ≤ law.lower 127 := law.lower_strictMono.monotone h
    have width := law.four_le_halfStep k
    have level := (law.level_bounds k).1
    have next := law.lower_succ k
    refine ⟨law.lower k, law.lower (k + 1) - 1, by omega, by omega, by omega, by omega, fun m _ => ?_⟩
    rw [law.index_eq_iff hk]
    omega
  · refine ⟨law.lower 127, 32768, by omega, clipLo, by decide, le_rfl, fun m hm => ?_⟩
    rw [law.index_eq_iff hk]
    exact and_congr_right fun _ => iff_of_true (.inl rfl) hm

/-- Settles O21: the magnitudes of the codeword's cell, on the side of its sign; zero is not negative, and the
magnitude 32768 is. -/
theorem eachCodewordIsOneInterval : Obligations.EachCodewordIsOneInterval := by
  intro law c
  obtain ⟨neg, k, hk, rfl⟩ := law.exists_codeword c
  obtain ⟨lo, hi, hle, hclip, hpos, hmax, cell⟩ := law.index_interval hk
  have clip_eq : clip = 32635 := rfl
  have samples (x : Int) (hx : IsSample x) : encodeOf law x = law.codeword neg k ↔
      decide (x < 0) = neg ∧ lo ≤ x.natAbs ∧ x.natAbs ≤ hi := by
    unfold IsSample at hx
    rw [encodeOf_eq_codeword_iff law hk, cell _ (by omega)]
  cases neg with
  | false =>
    refine ⟨lo, min hi 32767, by omega, by omega, by omega, fun x hx => ?_⟩
    rw [samples x hx, decide_eq_false_iff_not]
    unfold IsSample at hx
    omega
  | true =>
    refine ⟨-hi, -max lo 1, by omega, by omega, by omega, fun x hx => ?_⟩
    rw [samples x hx, decide_eq_true_iff]
    omega

/-- The step of a codeword is two half steps of its cell. -/
theorem quantStep_codeword (law : Law) (neg : Bool) {k : Nat} (hk : k < 128) :
    quantStep law (law.codeword neg k) = 2 * law.halfStep k := by
  obtain ⟨segment, -, -⟩ := law.unmask_codeword_fields neg hk
  cases law with
  | A =>
    rw [Law.unmask] at segment
    rw [quantStep, segment, Law.halfStep]
    by_cases h : k / 16 ≤ 1
    · rw [if_pos h, Nat.max_eq_right h]
      rfl
    · obtain ⟨e, he⟩ := Nat.exists_eq_add_of_le' (show 1 ≤ k / 16 by omega)
      rw [if_neg h, Nat.max_eq_left (by omega), he, Nat.add_sub_cancel]
      ring
  | U =>
    rw [Law.unmask] at segment
    rw [quantStep, segment, Law.halfStep]
    ring

/-- The error of a sample is that of its magnitude: the sign is kept. -/
theorem decodeOf_encodeOf_error (law : Law) (x : Int) :
    (decodeOf law (encodeOf law x) - x).natAbs = ((law.level (law.index x.natAbs) : Int) - x.natAbs).natAbs := by
  rcases lt_or_ge x 0 with hx | hx
  · rw [decodeOf_encodeOf_neg law hx]
    omega
  · rw [decodeOf_encodeOf_nonneg law hx]
    omega

/-- Up to the clamp the error is at most half a step (R109 f). -/
theorem decodeOf_encodeOf_near (law : Law) {x : Int} (hx : x.natAbs ≤ clip) :
    (decodeOf law (encodeOf law x) - x).natAbs ≤ law.halfStep (law.index x.natAbs) := by
  have near := law.level_index_near hx
  rw [decodeOf_encodeOf_error]
  omega

/-- At most the largest half step and the distance from the last level to the greatest magnitude (R109 f). -/
theorem decodeOf_encodeOf_bound (law : Law) {x : Int} (hx : IsSample x) :
    (decodeOf law (encodeOf law x) - x).natAbs ≤ max 512 (32768 - law.level 127) := by
  unfold IsSample at hx
  rcases le_total x.natAbs clip with h | h
  · have near := decodeOf_encodeOf_near law h
    have half := law.halfStep_le (law.index_lt x.natAbs)
    omega
  · have below : law.level 127 ≤ clip := by cases law <;> decide
    rw [decodeOf_encodeOf_error, law.index_of_clip_le h]
    omega

/-- Settles O22: the half steps up to the clamp, the last levels beyond it. -/
theorem quantizationError : Obligations.QuantizationError := by
  refine ⟨fun law x hlo hhi => ?_, fun x hx => decodeOf_encodeOf_bound .A hx,
    fun x hx => decodeOf_encodeOf_bound .U hx, by decide, by decide⟩
  have near := decodeOf_encodeOf_near law (x := x) (by simp only [clip]; omega)
  have half := law.halfStep_le (law.index_lt x.natAbs)
  have step : quantStep law (encodeOf law x) = 2 * law.halfStep (law.index x.natAbs) := by
    rw [encodeOf_eq, quantStep_codeword law _ (law.index_lt _)]
  omega

/-- Beyond the clamp a codeword depends on the sign alone (R109 g). -/
theorem encodeOf_of_clip_le (law : Law) {x : Int} (hx : clip ≤ x.natAbs) :
    encodeOf law x = law.codeword (decide (x < 0)) 127 := by
  rw [encodeOf_eq, law.index_of_clip_le hx]

/-- No decoded value exceeds the last level (R100, R109 g). -/
theorem decodeOf_bounds (law : Law) (c : Byte) :
    -(law.level 127 : Int) ≤ decodeOf law c ∧ decodeOf law c ≤ law.level 127 := by
  obtain ⟨neg, k, hk, rfl⟩ := law.exists_codeword c
  have last := law.level_le hk
  rw [decodeOf_codeword law neg hk]
  cases neg <;> simp only [signed_true, signed_false] <;> omega

/-- A decoded value is a 16-bit number, so its pattern reads back as it (R34). -/
theorem toInt_ofInt_decodeOf (law : Law) (c : Byte) : (BitVec.ofInt 16 (decodeOf law c)).toInt = decodeOf law c := by
  have bounds := decodeOf_bounds law c
  have last : law.level 127 < 2 ^ 15 := by cases law <;> decide
  exact BitVec.toInt_ofInt_eq_self (by decide) (by omega) (by omega)

/-- Settles O23: the last cell on both sides, and the last level as the bound of what is decoded. -/
theorem clampedExtremes : Obligations.ClampedExtremes := by
  have clip_eq : clip = 32635 := rfl
  refine ⟨fun law x _ hx => ?_, fun law x _ hx => ?_, by decide, by decide, by decide, by decide, by decide,
    by decide, by decide, by decide, fun c => ?_, fun c => ?_⟩
  · rw [encodeOf_of_clip_le law (x := x) (by omega), encodeOf_of_clip_le law (x := 32635) (by decide),
      decide_eq_false (show ¬ x < 0 by omega)]
    rfl
  · rw [encodeOf_of_clip_le law (x := x) (by omega), encodeOf_of_clip_le law (x := -32635) (by decide),
      decide_eq_true (show x < 0 by omega)]
    rfl
  · exact ⟨(decodeOf_bounds .A c).1, (decodeOf_bounds .A c).2, toInt_ofInt_decodeOf .A c⟩
  · exact ⟨(decodeOf_bounds .U c).1, (decodeOf_bounds .U c).2, toInt_ofInt_decodeOf .U c⟩

end Sys2Proof.Machine
end

section
/-! PROOFS. The LUT commands (R110 to R114): one step from the command's start to `Done`, with the ROM's entry in
`DOUT`. -/

namespace Sys2Proof.Machine

open Statements

/-- At a command's start the one LUT step is taken (R110). -/
theorem lutStep_atStart {s : State} (h : AtStart s) (r : Sample) :
    lutStep r s = .next { s with pending := false, dout := r, seqState := .done } := if_pos h

/-- An answered LUT step was taken at a command's start, and has written its result. -/
theorem lutStep_next {r : Sample} {s t : State} (h : lutStep r s = .next t) :
    AtStart s ∧ t = { s with pending := false, dout := r, seqState := .done } := by
  rcases lutStep_cases r s with ⟨hidle, hpending, e⟩ | ⟨-, e⟩ <;> cases e.symm.trans h
  exact ⟨⟨hidle, hpending⟩, rfl⟩

/-- A codeword in a 16-bit register leaves the upper byte 0 (R28). -/
theorem extractLsb'_setWidth_codeword (c : Byte) : (c.setWidth 16).extractLsb' 8 8 = 0 :=
  BitVec.eq_of_getLsbD_eq fun j hj => by
    rw [BitVec.getLsbD_extractLsb', BitVec.getLsbD_setWidth, BitVec.getLsbD_of_ge c (8 + j) (by omega)]
    simp

/-- Settles O25: the one step of a LUT command, and the ROM entries the rules list. -/
theorem lutEncodeResults : Obligations.LutEncodeResults := by
  refine ⟨fun s h => lutStep_atStart h _, fun s h => lutStep_atStart h _, fun i s t hi h => ?_, rfl, rfl, by decide⟩
  rcases hi with rfl | rfl <;> obtain ⟨-, rfl⟩ := lutStep_next h <;> exact extractLsb'_setWidth_codeword _

/-- Settles O26: the one step of a LUT command, and the ROM entries the rules list. -/
theorem lutDecodeResults : Obligations.LutDecodeResults :=
  ⟨fun s h => lutStep_atStart h _, fun s h => lutStep_atStart h _, rfl, rfl, by decide⟩

/-- Where the host lets the sequencer step, a busy block steps its command (R20, R75). -/
theorem step_letStep {s : State} {i : Instr} {rest : List HostAction} (hb : s.busy = true)
    (hd : decode s.acmd = .ok i) (hs : s.script = .letStep :: rest) : step s = exec i { s with script := rest } :=
  (step_host hs).trans (sequencerTurn_busy hb hd)

/-- Settles O27: acceptance, then the one step of a LUT command. -/
theorem lutCommandTakesOneStep : Obligations.LutCommandTakesOneStep := by
  refine ⟨fun i s rest hc _ hb hs => ?_, fun i s t hc h => ?_⟩
  · obtain ⟨f, hf⟩ := exec_of_lut hc
    refine ⟨f s.din, ?_⟩
    have code : ((encode i).setWidth 32).setWidth 8 = encode i := by
      rw [BitVec.setWidth_setWidth_of_le _ (by decide), BitVec.setWidth_eq]
    have accepted := step_write_cmd hs hb ((congrArg decode code).trans (decode_encode i))
    rw [code] at accepted
    have ran := step_letStep (s := { s with script := .letStep :: rest }.accept (encode i))
      (i := i) (State.accept_busy _ _) (decode_encode i) (State.accept_script _ _)
    rw [hf, lutStep_atStart ⟨rfl, rfl⟩] at ran
    exact (run_succ accepted).trans (run_succ ran)
  · obtain ⟨f, hf⟩ := exec_of_lut hc
    obtain ⟨hstart, rfl⟩ := lutStep_next (hf s ▸ h)
    exact ⟨hstart, rfl⟩

end Sys2Proof.Machine
end

section
/-! PROOFS. The Sample Codec, element by element (R140 to R142): a read of output element `k` gives the transform
of what the read of input element `k` gives. -/

namespace Sys2Proof.Machine

open Statements

/-- Output element `j` is the transform of input element `k + j`. -/
theorem slice_codecElements {wIn wOut : Nat} {f : Nat → Nat} {B : List Byte} {n k j : Nat} (hj : j < n) :
    slice (codecElements wIn wOut f B n k) (wOut * j) wOut =
      leBytes wOut (f (leValue (slice B (wIn * (k + j)) wIn))) := by
  induction n generalizing k j with
  | zero => omega
  | succ n ih =>
    rw [codecElements]
    generalize hd : leBytes wOut (f (leValue (slice B (wIn * k) wIn))) = d
    have hlen : d.length = wOut := hd ▸ leBytes_length _ _
    cases j with
    | zero =>
      have first := slice_append_left d (codecElements wIn wOut f B n (k + 1))
      rw [hlen] at first
      exact first.trans hd.symm
    | succ j =>
      have tail := slice_append_right d (codecElements wIn wOut f B n (k + 1)) (wOut * j) wOut
      rw [hlen, Nat.add_comm wOut] at tail
      rw [Nat.mul_succ, tail, ih (by omega), Nat.add_right_comm, Nat.add_assoc]

/-- Output element `j`, as `MemRead` gives it (R53, R140). -/
theorem memRead_codecElements {wIn wOut : Nat} (f : Nat → Nat) {B : List Byte} {n j : Nat}
    (hOut : wOut = 1 ∨ wOut = 2) (hj : j < n) :
    memRead (codecElements wIn wOut f B n 0) (wOut * j) wOut =
      some (f (leValue (slice B (wIn * j) wIn)) % 256 ^ wOut) := by
  have within : wOut * j + wOut ≤ wOut * n := by
    rw [← Nat.mul_succ]
    exact Nat.mul_le_mul_left wOut hj
  rw [memRead_ok hOut (by rwa [codecElements_length]), slice_codecElements hj, leValue_leBytes, Nat.zero_add]

/-- An element is encoded by the law's transform of the sample its pattern stands for (R34, R140). -/
theorem encElement_eq (law : Law) (v : Nat) :
    encElement law v = (encodeOf law (BitVec.ofNat 16 v).toInt).toNat := by
  cases law <;> rfl

/-- An element is decoded to the pattern of the law's transform (R34, R140). -/
theorem decElement_eq (law : Law) (c : Nat) :
    decElement law c = (BitVec.ofInt 16 (decodeOf law (BitVec.ofNat 8 c))).toNat := by
  cases law <;> rfl

/-- Settles O29: the output of the codec's loop, read one element at a time. -/
theorem sampleCodecIsElementwise : Obligations.SampleCodecIsElementwise := by
  refine ⟨fun law B heven => ⟨_, sampleCodec_enc heven, ?_, fun k hk =>
      ⟨_, memRead_ok (.inr rfl) (by omega), ?_⟩⟩,
    fun law B => sampleCodec_enc_odd,
    fun law B => ⟨_, sampleCodec_dec law B, codecElements_length .., fun k hk =>
      ⟨_, memRead_ok (.inl rfl) (by omega), ?_⟩⟩⟩
  · rw [codecElements_length, Nat.one_mul]
  · have element := memRead_codecElements (wIn := 2) (encElement law) (B := B) (.inl rfl) hk
    rwa [Nat.one_mul, encElement_eq, Nat.mod_eq_of_lt (by exact BitVec.isLt _)] at element
  · have element := memRead_codecElements (wIn := 1) (decElement law) (B := B) (.inr rfl) hk
    rwa [Nat.one_mul, decElement_eq, Nat.mod_eq_of_lt (by exact BitVec.isLt _)] at element

end Sys2Proof.Machine
end

section
/-! PROOFS. The buffer commands (R146 to R150), and the codec step and the last two steps they share with the
conversions (R206): each step as an equation, and the four of a whole command run in a row. -/

namespace Sys2Proof.Machine

open Statements

/-! ### The stages, one equation per case -/

/-- A payload read the host does not answer takes no step (R253). -/
theorem readPayload_held {n : Nat} {s s' : State} (hh : s'.sourceHeld = true) : readPayload n s s' = .next s := by
  rw [readPayload, readExact_held hh]

/-- A payload read with enough bytes left (R146, R204). -/
theorem readPayload_enough {n : Nat} {s s' : State} (hh : s'.sourceHeld = false) (h : SourceHas n s') :
    readPayload n s s' = .next
      { s' with cursor := s'.cursor + n, inBuf := slice s'.source s'.cursor n, seqState := .payloadRead } := by
  rw [readPayload, readExact_enough hh h]

/-- A payload read with too few bytes left (R146, R204). -/
theorem readPayload_short {n : Nat} {s s' : State} (hh : s'.sourceHeld = false) (h : ¬ SourceHas n s') :
    readPayload n s s' = .next (State.raise
      { s' with
        cursor := shortReadCursor s'.freeDraws s'.cursor s'.source.length
        freeDraws := s'.freeDraws + 1 } .shortRead) := by
  rw [readPayload, readExact_short hh h]

/-- A write answered `ok` (R56). -/
theorem emit_ok {bs : List Byte} {onOk : SeqState} {s s' : State} {rest : List WriteAnswer}
    (h : s'.answers = .ok :: rest) :
    emit bs onOk s s' = .next { s' with answers := rest, sink := s'.sink ++ bs, seqState := onOk } := by
  simp only [emit, writeAll, h]

/-- A write answered `WriteFailure` (R56). -/
theorem emit_writeFailure {bs : List Byte} {onOk : SeqState} {s s' : State} {k : Nat} {rest : List WriteAnswer}
    (h : s'.answers = .writeFailure k :: rest) :
    emit bs onOk s s' = .next
      (State.raise { s' with answers := rest, sink := s'.sink ++ bs.take k } .writeFailure) := by
  simp only [emit, writeAll, h]

/-- A write without an answer takes no step (R283). -/
theorem emit_waiting {bs : List Byte} {onOk : SeqState} {s s' : State} (h : s'.answers = []) :
    emit bs onOk s s' = .next s := by
  simp only [emit, writeAll, h]

/-- An odd length stops the first step of an encode (R146). -/
theorem bufferFirstStep_odd {law : Law} {dir : Dir} {s : State} (hd : dir = .enc) (hodd : s.len.toNat % 2 ≠ 0) :
    bufferFirstStep law dir s = .next (State.raise
      { s with pending := false, law := some law, plen := s.len.toNat } .malformedPayload) :=
  if_pos ⟨hd, hodd⟩

/-- A length beyond `MAX_PAYLOAD_BYTES` refuses the first step (R58, R252 d). -/
theorem bufferFirstStep_oversize {law : Law} {dir : Dir} {s : State} (heven : dir = .enc → s.len.toNat % 2 = 0)
    (hcap : s.maxPayloadBytes.val < s.len.toNat) : bufferFirstStep law dir s = .next s.refuse :=
  (if_neg fun h => h.2 (heven h.1)).trans (if_pos hcap)

/-- Otherwise the first step is the payload read (R146). -/
theorem bufferFirstStep_read {law : Law} {dir : Dir} {s : State} (heven : dir = .enc → s.len.toNat % 2 = 0)
    (hcap : s.len.toNat ≤ s.maxPayloadBytes.val) :
    bufferFirstStep law dir s =
      readPayload s.len.toNat s { s with pending := false, law := some law, plen := s.len.toNat } :=
  (if_neg fun h => h.2 (heven h.1)).trans (if_neg (Nat.not_lt.mpr hcap))

/-! ### The steps of a command, by `STATE` -/

section
variable {i : Instr} {s : State}

/-- The first step of a buffer command (R146). -/
theorem exec_buffer_atStart {law : Law} {dir : Dir} (hc : commandClass i = .buffer law dir) (hs : AtStart s) :
    exec i s = bufferFirstStep law dir s := by
  rw [exec_of_buffer hc, bufferCommand, hs.1]
  exact if_pos hs.2

/-- The codec step of a buffer command (R146). -/
theorem exec_buffer_payloadRead {law : Law} {dir : Dir} (hc : commandClass i = .buffer law dir)
    (hs : s.seqState = .payloadRead) : exec i s = transformStep law dir s := by
  rw [exec_of_buffer hc, bufferCommand, hs]

/-- The codec step of a conversion (R206). -/
theorem exec_conv_headerDerived {kind : ConvKind} {law : Law} (hc : commandClass i = .conv kind)
    (hs : s.seqState = .headerDerived) (hl : s.law = some law) : exec i s = transformStep law kind.dir s := by
  rw [exec_of_conv hc, convCommand, hs]
  exact convTransform_eq hl

/-- The codec step on a whole number of elements (R146, R202, R206). -/
theorem exec_codecStep {law : Law} {dir : Dir} (hx : exec i s = transformStep law dir s)
    (heven : dir = .enc → s.inBuf.length % 2 = 0) :
    ∃ O, O.length = codecLength dir s.inBuf.length ∧ sampleCodec law dir s.inBuf = .output O ∧
      exec i s = .next { s with outBuf := O, seqState := .payloadTransformed } :=
  hx ▸ transformStep_ok heven

/-- The payload write of the commands that have one (R146, R206). -/
theorem exec_payloadTransformed (hc : commandClass i ≠ .lut) (hs : s.seqState = .payloadTransformed) :
    exec i s = emitPayload s := by
  cases h : commandClass i with
  | lut => exact absurd h hc
  | buffer law dir => rw [exec_of_buffer h, bufferCommand, hs]
  | conv kind => rw [exec_of_conv h, convCommand, hs]

/-- The completion of the commands that write a payload (R146, R206). -/
theorem exec_written (hc : commandClass i ≠ .lut) (hs : s.seqState = .written) :
    exec i s = finishStep s := by
  cases h : commandClass i with
  | lut => exact absurd h hc
  | buffer law dir => rw [exec_of_buffer h, bufferCommand, hs]
  | conv kind => rw [exec_of_conv h, convCommand, hs]

/-- What the failure entry of a step leaves alone is the frame of its command (R246). -/
theorem exec_failsWith {t : State} {e : ErrKind} (hc : commandClass i ≠ .lut) (h : exec i s = .next (t.raise e))
    (hmark : t.refusalMark = s.refusalMark) : FailsWith e s (t.raise e) := by
  obtain ⟨f, hdout⟩ := exec_frame h
  exact ⟨rfl, rfl, f.acmd, f.din, hdout hc, f.len, f.source, f.sourceHeld, f.script, f.reads, hmark,
    f.maxPayloadBytes⟩

/-! ### Runs of the sequencer alone -/

/-- Where the sequencer has every turn, a busy block steps its command (R26). -/
theorem step_sequencerAlone (h : SequencerAlone i s) (hb : s.busy = true) : step s = exec i s := by
  obtain ⟨-, hscript, hacmd⟩ := h
  exact step_alone hscript hacmd hb

/-- A block past its first step is busy (R26). -/
theorem busy_of_running (h : s.seqState.running = true) : s.busy = true := by
  simp [State.busy, h]

/-- The payload write answered `ok`, then the completion (R146, R206). -/
theorem runsTo_done_of_payloadTransformed {rest : List WriteAnswer} (h : SequencerAlone i s)
    (hc : commandClass i ≠ .lut) (hs : s.seqState = .payloadTransformed) (ha : s.answers = .ok :: rest) :
    runsTo 2 s { s with answers := rest, sink := s.sink ++ s.outBuf, seqState := .done } := by
  have write := (step_sequencerAlone h (busy_of_running (by rw [hs]; rfl))).trans
    ((exec_payloadTransformed hc hs).trans (emit_ok ha))
  have complete := (step_sequencerAlone
    (s := { s with answers := rest, sink := s.sink ++ s.outBuf, seqState := .written })
    h (busy_of_running rfl)).trans (exec_written hc rfl)
  exact (run_succ write).trans (run_succ complete)

/-- The codec step on a whole number of elements, then the payload write and the completion (R146, R206). -/
theorem runsTo_done_of_codecStep {law : Law} {dir : Dir} {rest : List WriteAnswer} (h : SequencerAlone i s)
    (hc : commandClass i ≠ .lut) (hb : s.busy = true) (hx : exec i s = transformStep law dir s)
    (heven : dir = .enc → s.inBuf.length % 2 = 0) (ha : s.answers = .ok :: rest) :
    ∃ O, O.length = codecLength dir s.inBuf.length ∧ sampleCodec law dir s.inBuf = .output O ∧
      runsTo 3 s { s with outBuf := O, answers := rest, sink := s.sink ++ O, seqState := .done } := by
  obtain ⟨O, hO, codec, e⟩ := exec_codecStep hx heven
  have others := runsTo_done_of_payloadTransformed
    (s := { s with outBuf := O, seqState := .payloadTransformed }) h hc rfl ha
  exact ⟨O, hO, codec, (run_succ ((step_sequencerAlone h hb).trans e)).trans others⟩

end

/-! ### The obligations -/

/-- A buffer command is no LUT command. -/
theorem not_lut_of_buffer {i : Instr} {law : Law} {dir : Dir} (hc : commandClass i = .buffer law dir) :
    commandClass i ≠ .lut := by
  simp [hc]

/-- Settles O30: past parity and capacity the first step is a payload read that finds its bytes. -/
theorem bufferCommandsReadTheirPayload : Obligations.BufferCommandsReadTheirPayload := by
  intro i law dir s hc hs heven hcap hheld hsource
  rw [exec_buffer_atStart hc hs, bufferFirstStep_read heven hcap]
  exact readPayload_enough hheld hsource

/-- Settles O31: the other outcomes of the first step, in the order it checks them. -/
theorem bufferFirstStepFailures : Obligations.BufferFirstStepFailures := by
  intro i law dir s hc hs
  have first := exec_buffer_atStart hc hs
  have hlut := not_lut_of_buffer hc
  refine ⟨fun hd hodd => ?_, fun heven hcap => ⟨first.trans (bufferFirstStep_oversize heven hcap), rfl⟩,
    fun heven hcap hheld => ?_, fun heven hcap hheld hshort => ?_⟩
  · have e := first.trans (bufferFirstStep_odd hd (by omega))
    exact ⟨_, e, exec_failsWith hlut e rfl, State.raise_busy _ _, rfl, rfl, rfl⟩
  · rw [first, bufferFirstStep_read heven hcap]
    exact readPayload_held hheld
  · have e := first.trans ((bufferFirstStep_read heven hcap).trans (readPayload_short hheld hshort))
    have f := (exec_frame e).1
    exact ⟨_, e, exec_failsWith hlut e rfl, State.raise_busy _ _, f.le_cursor, f.cursor_le, rfl, rfl⟩

/-- Settles O32: both commands take the codec step, which a whole number of elements cannot fail. -/
theorem payloadTransformation : Obligations.PayloadTransformation := by
  refine ⟨fun i law dir s hc hs heven => ?_, fun i kind s law hc hs hl heven => ?_⟩
  · obtain ⟨O, -, step⟩ := exec_codecStep (exec_buffer_payloadRead hc hs) heven
    exact ⟨O, step⟩
  · obtain ⟨O, -, step⟩ := exec_codecStep (exec_conv_headerDerived hc hs hl) heven
    exact ⟨O, step⟩

/-- Settles O33: the three answers to the payload write, and the completion. -/
theorem payloadWriteAndCompletion : Obligations.PayloadWriteAndCompletion := by
  refine fun i s hc => ⟨fun rest hs ha => ?_, fun k rest hs ha => ?_, fun hs ha => ?_, exec_written hc⟩
  · exact (exec_payloadTransformed hc hs).trans (emit_ok ha)
  · have e := (exec_payloadTransformed hc hs).trans (emit_writeFailure ha)
    exact ⟨_, e, exec_failsWith hc e rfl, rfl, rfl, rfl⟩
  · exact (exec_payloadTransformed hc hs).trans (emit_waiting ha)

/-- Settles O34: the payload read, then the other three steps on the bytes it took. -/
theorem bufferCommandEndToEnd : Obligations.BufferCommandEndToEnd := by
  intro i law dir s rest hc hrun hs heven hcap hsource hheld ha
  have read := (step_sequencerAlone hrun (by simp [State.busy, hs.2])).trans
    (bufferCommandsReadTheirPayload i law dir s hc hs heven hcap hheld hsource)
  have hlen := slice_length s.source s.cursor s.len.toNat hsource
  obtain ⟨O, hO, codec, others⟩ := runsTo_done_of_codecStep (law := law) (dir := dir) (s := { s with
      pending := false, law := some law, plen := s.len.toNat, cursor := s.cursor + s.len.toNat
      inBuf := slice s.source s.cursor s.len.toNat, seqState := .payloadRead })
    hrun (not_lut_of_buffer hc) (busy_of_running rfl) (exec_buffer_payloadRead hc rfl)
    (by simpa only [hlen] using heven) ha
  exact ⟨_, O, codec, hlen ▸ hO, (run_succ read).trans others, rfl, rfl, rfl, rfl, rfl, rfl, rfl, rfl, rfl, rfl, rfl,
    hrun.1⟩

end Sys2Proof.Machine
end

section
/-! PROOFS. The Header Model: the images and their records (R162, R164, R172, R173), the checks of a header (R165,
R166), and the derived headers (R168 to R171, R174). -/

namespace Sys2Proof.Machine

/-! ### The fields of an image -/

/-- A slice that begins past the first part of a concatenation lies in the second. -/
theorem slice_append_past {A B : List Byte} {off n : Nat} (h : A.length ≤ off) :
    slice (A ++ B) off n = slice B (off - A.length) n := by
  rw [← slice_append_right A B (off - A.length) n, Nat.add_sub_cancel' h]

/-- The slice at 0 of the first part's length is the first part. -/
theorem slice_append_first {A B : List Byte} {n : Nat} (h : A.length = n) : slice (A ++ B) 0 n = A :=
  h ▸ slice_append_left A B

/-- The slice at 0 of the whole length is the whole. -/
theorem slice_whole {B : List Byte} {n : Nat} (h : B.length = n) : slice B 0 n = B :=
  h ▸ slice_all B

/-- A slice from 0 and the slice that begins where it ends join. -/
theorem slice_zero_append (B : List Byte) (m n : Nat) : slice B 0 m ++ slice B m n = slice B 0 (m + n) := by
  simpa using slice_append_slice B 0 m n

/-- Reading a 16-bit field and writing it back gives its two bytes (R9). -/
theorem bytes16_le16 {H : List Byte} {off : Nat} (h : off + 2 ≤ H.length) : bytes16 (le16 H off) = slice H off 2 :=
  bytes16_ofNat_leValue _ (slice_length H off 2 h)

/-- Reading a 32-bit field and writing it back gives its four bytes (R9). -/
theorem bytes32_le32 {H : List Byte} {off : Nat} (h : off + 4 ≤ H.length) : bytes32 (le32 H off) = slice H off 4 :=
  bytes32_ofNat_leValue _ (slice_length H off 4 h)

/-- The tag check of a linear record (R163). -/
theorem LinearHeader.tagsOk_iff {h : LinearHeader} :
    h.tagsOk = true ↔ h.riffTag = tagRiff ∧ h.waveFmtTag = tagWaveFmt ∧ h.dataTag = tagData := by
  simp [LinearHeader.tagsOk, and_assoc]

/-- The tag check of a companded record (R163). -/
theorem CompandedHeader.tagsOk_iff {h : CompandedHeader} : h.tagsOk = true ↔
    h.riffTag = tagRiff ∧ h.waveFmtTag = tagWaveFmt ∧ h.factTag = tagFact ∧ h.dataTag = tagData := by
  simp [CompandedHeader.tagsOk, and_assoc]

/-- The tags of a linear record have the widths R80 gives them. -/
theorem LinearHeader.tag_lengths {h : LinearHeader} (htags : h.tagsOk = true) :
    h.riffTag.length = 4 ∧ h.waveFmtTag.length = 8 ∧ h.dataTag.length = 4 := by
  obtain ⟨hriff, hwave, hdata⟩ := tagsOk_iff.mp htags
  rw [hriff, hwave, hdata]
  decide

/-- The tags of a companded record have the widths R81 gives them. -/
theorem CompandedHeader.tag_lengths {h : CompandedHeader} (htags : h.tagsOk = true) :
    h.riffTag.length = 4 ∧ h.waveFmtTag.length = 8 ∧ h.factTag.length = 4 ∧ h.dataTag.length = 4 := by
  obtain ⟨hriff, hwave, hfact, hdata⟩ := tagsOk_iff.mp htags
  rw [hriff, hwave, hfact, hdata]
  decide

/-! ### Images and records -/

/-- The image of a tagged linear record has 44 bytes (R172). -/
theorem serLin_length {h : LinearHeader} (htags : h.tagsOk = true) : (serLin h).length = 44 := by
  obtain ⟨hriff, hwave, hdata⟩ := h.tag_lengths htags
  simp [serLin, hriff, hwave, hdata]

/-- The image of a tagged companded record has 58 bytes (R173). -/
theorem serCmp_length {h : CompandedHeader} (htags : h.tagsOk = true) : (serCmp h).length = 58 := by
  obtain ⟨hriff, hwave, hfact, hdata⟩ := h.tag_lengths htags
  simp [serCmp, hriff, hwave, hfact, hdata]

/-- The image of a tagged linear record holds its fields: each lies where the parts before it end (R80). -/
theorem linFields_serLin {h : LinearHeader} (htags : h.tagsOk = true) : linFields (serLin h) = h := by
  obtain ⟨hriff, hwave, hdata⟩ := h.tag_lengths htags
  simp [linFields, le16, le32, serLin, hriff, hwave, hdata, slice_append_past, slice_append_first, slice_whole,
    ofNat_leValue_bytes16, ofNat_leValue_bytes32]

/-- The image of a tagged companded record holds its fields but for the trailer (R81, R82). -/
theorem cmpFields_serCmp {h : CompandedHeader} (htags : h.tagsOk = true) :
    cmpFields (serCmp h) = { h with trailer := trailerValue } := by
  obtain ⟨hriff, hwave, hfact, hdata⟩ := h.tag_lengths htags
  simp [cmpFields, le16, le32, serCmp, hriff, hwave, hfact, hdata, slice_append_past, slice_append_first,
    slice_whole, ofNat_leValue_bytes16, ofNat_leValue_bytes32]

/-- The fields of 44 bytes, written back, are the bytes: their slices join from the first to the last (R172). -/
theorem serLin_linFields {H : List Byte} (hlen : H.length = 44) : serLin (linFields H) = H := by
  simp [serLin, linFields, bytes16_le16, bytes32_le32, hlen, slice_zero_append, slice_whole]

/-- The fields of 58 bytes, written back, are the bytes: their slices join from the first to the last (R173). -/
theorem serCmp_cmpFields {H : List Byte} (hlen : H.length = 58) : serCmp (cmpFields H) = H := by
  simp [serCmp, cmpFields, bytes16_le16, bytes32_le32, hlen, slice_zero_append, slice_whole]

/-- A linear parse that succeeds gives the fields, and their tags match (R162). -/
theorem parseLin_eq_ok_iff {H : List Byte} {h : LinearHeader} :
    parseLin H = .ok h ↔ h.tagsOk = true ∧ linFields H = h := by
  rcases parseLin_cases H with ⟨htags, e⟩ | ⟨htags, e⟩ <;> rw [e]
  · constructor
    · rintro ⟨⟩
      exact ⟨htags, rfl⟩
    · rintro ⟨-, rfl⟩
      rfl
  · refine ⟨nofun, ?_⟩
    rintro ⟨ht, rfl⟩
    cases htags.symm.trans ht

/-- A companded parse that succeeds gives the fields, and their tags match (R164). -/
theorem parseCmp_eq_ok_iff {H : List Byte} {h : CompandedHeader} :
    parseCmp H = .ok h ↔ h.tagsOk = true ∧ cmpFields H = h := by
  rcases parseCmp_cases H with ⟨htags, e⟩ | ⟨htags, e⟩ <;> rw [e]
  · constructor
    · rintro ⟨⟩
      exact ⟨htags, rfl⟩
    · rintro ⟨-, rfl⟩
      rfl
  · refine ⟨nofun, ?_⟩
    rintro ⟨ht, rfl⟩
    cases htags.symm.trans ht

/-- Settles O35: reading fields and writing them are inverse to each other, and the tags decide the parse. -/
theorem headerImagesRoundTrip : Obligations.HeaderImagesRoundTrip := by
  refine ⟨fun h htags => ⟨serLin_length htags, parseLin_eq_ok_iff.mpr ⟨htags, linFields_serLin htags⟩⟩,
    fun H h hlen hparse => ?_,
    fun h htags => ⟨serCmp_length htags, parseCmp_eq_ok_iff.mpr ⟨htags, cmpFields_serCmp htags⟩⟩,
    fun H h hlen hparse => ?_⟩
  · obtain ⟨-, rfl⟩ := parseLin_eq_ok_iff.mp hparse
    exact serLin_linFields hlen
  · obtain ⟨-, rfl⟩ := parseCmp_eq_ok_iff.mp hparse
    exact ⟨rfl, serCmp_cmpFields hlen⟩

/-! ### Validation -/

/-- The linear headers that validate, and their length (R165). -/
theorem validateLin_eq_ok_iff {h : LinearHeader} {L : Nat} : validateLin h = .ok L ↔
    h.formatTag = fmtPcm ∧ h.frameBytes ≠ 0 ∧ h.dataLen.toNat % 2 = 0 ∧ h.dataLen.toNat = L := by
  rcases validateLin_cases h with ⟨htag, hframe, heven, e⟩ | ⟨hbad, e⟩ | ⟨-, -, hodd, e⟩ <;> rw [e]
  · exact ⟨fun hL => ⟨htag, hframe, heven, Except.ok.inj hL⟩, fun ⟨_, _, _, hL⟩ => congrArg _ hL⟩
  · exact ⟨nofun, fun ⟨htag, hframe, _⟩ => (hbad.elim (absurd htag) hframe).elim⟩
  · exact ⟨nofun, fun ⟨_, _, heven, _⟩ => absurd heven hodd⟩

/-- The companded headers that validate, with their law and length (R166). -/
theorem validateCmp_eq_ok_iff {h : CompandedHeader} {law : Law} {M : Nat} : validateCmp h = .ok (law, M) ↔
    lawOfFmt h.formatTag = some law ∧ h.payloadLength = M ∧ h.fileSize.toNat = 58 + M ∧ h.sampleLength = M ∧
      44 + 2 * M ≤ 4294967295 := by
  rcases validateCmp_cases h with ⟨law', htag, hsize, hsample, hfit, e⟩ | ⟨htag, e⟩ | ⟨-, hbad, e⟩ <;> rw [e]
  · constructor
    · intro he
      cases he
      exact ⟨htag, rfl, hsize, hsample, hfit⟩
    · rintro ⟨hlaw, rfl, -⟩
      cases htag.symm.trans hlaw
      rfl
  · exact ⟨nofun, fun ⟨hlaw, _⟩ => nomatch htag.symm.trans hlaw⟩
  · refine ⟨nofun, ?_⟩
    rintro ⟨-, rfl, hsize, hsample, hfit⟩
    omega

/-- Settles O37: the branches of the linear validation. -/
theorem linearValidation : Obligations.LinearValidation := by
  intro h
  rcases validateLin_cases h with ⟨htag, hframe, heven, e⟩ | ⟨hbad, e⟩ | ⟨htag, hframe, hodd, e⟩
  · exact ⟨absurd htag, fun _ hz => absurd hz hframe, fun _ _ => absurd heven, fun _ _ _ => e⟩
  · have off : h.formatTag = 1 → h.frameBytes ≠ 0 → False := fun htag hframe => hbad.elim (absurd htag) hframe
    exact ⟨fun _ => e, fun _ _ => e, fun ht hf => (off ht hf).elim, fun ht hf => (off ht hf).elim⟩
  · exact ⟨absurd htag, fun _ hz => absurd hz hframe, fun _ _ _ => e, fun _ _ heven => absurd heven hodd⟩

/-- A format tag other than 6 and 7 is refused before the lengths are looked at (R166). -/
theorem validateCmp_unsupported {h : CompandedHeader} (hA : h.formatTag ≠ 6) (hU : h.formatTag ≠ 7) :
    validateCmp h = .error .unsupportedEncoding := by
  rcases lawOfFmt_cases h.formatTag with ⟨htag, -⟩ | ⟨htag, -⟩ | ⟨-, -, hl⟩
  · exact absurd htag hA
  · exact absurd htag hU
  · rw [validateCmp, hl]

/-- With a law's format tag, a length check that fails makes the payload malformed (R166). -/
theorem validateCmp_malformed {h : CompandedHeader} {law : Law} (hl : lawOfFmt h.formatTag = some law)
    (hbad : h.fileSize.toNat ≠ 58 + h.payloadLength ∨ h.sampleLength ≠ h.payloadLength ∨
      44 + 2 * h.payloadLength > 4294967295) : validateCmp h = .error .malformedPayload := by
  rcases validateCmp_cases h with ⟨-, -, hsize, hsample, hfit, -⟩ | ⟨hnone, -⟩ | ⟨-, -, e⟩
  · omega
  · cases hl.symm.trans hnone
  · exact e

/-- Settles O38: the format tag first, then the lengths. -/
theorem compandedValidation : Obligations.CompandedValidation := by
  rintro h _ rfl
  have lawA (htag : h.formatTag = 6) : lawOfFmt h.formatTag = some .A := htag ▸ rfl
  have lawU (htag : h.formatTag = 7) : lawOfFmt h.formatTag = some .U := htag ▸ rfl
  exact ⟨validateCmp_unsupported,
    fun htag hbad => htag.elim (fun hA => validateCmp_malformed (lawA hA) hbad)
      (fun hU => validateCmp_malformed (lawU hU) hbad),
    fun hsize hsample hfit => ⟨fun hA => validateCmp_eq_ok_iff.mpr ⟨lawA hA, rfl, hsize, hsample, hfit⟩,
      fun hU => validateCmp_eq_ok_iff.mpr ⟨lawU hU, rfl, hsize, hsample, hfit⟩⟩⟩

/-! ### Derivation -/

/-- The format tag of a law names the law (R79, R167). -/
theorem lawOfFmt_fmtOfLaw (law : Law) : lawOfFmt (fmtOfLaw law) = some law := by
  cases law <;> rfl

/-- A 32-bit length split into halves is the length again (R52). -/
theorem splitLength_ofNat {M : Nat} (hM : M < 4294967296) :
    splitLength (BitVec.ofNat 16 M) (BitVec.ofNat 16 (M / 65536)) = M := by
  simp only [splitLength, BitVec.toNat_ofNat]
  omega

/-- The payload length of a derived companded header is half the source's length (R168). -/
theorem deriveL2c_payloadLength (h : LinearHeader) (law : Law) :
    (deriveL2c h law).payloadLength = h.dataLen.toNat / 2 :=
  splitLength_ofNat (by omega)

/-- The sample length of a derived companded header is half the source's length (R168). -/
theorem deriveL2c_sampleLength (h : LinearHeader) (law : Law) :
    (deriveL2c h law).sampleLength = h.dataLen.toNat / 2 :=
  splitLength_ofNat (by omega)

/-- The high half of a derived companded header's lengths has 15 bits (R169). -/
theorem deriveL2c_dataLenHi_le (h : LinearHeader) (law : Law) : (deriveL2c h law).dataLenHi.toNat ≤ 0x7FFF := by
  simp only [deriveL2c, BitVec.toNat_ofNat]
  omega

/-- The file size of a derived companded header does not wrap (R169). -/
theorem deriveL2c_fileSize (h : LinearHeader) (law : Law) :
    (deriveL2c h law).fileSize.toNat = 58 + h.dataLen.toNat / 2 := by
  simp only [deriveL2c, cmpHdrBytes, BitVec.toNat_ofNat]
  omega

/-- The byte rate of a derived companded header is the source's frame rate, rounded down (R168). -/
theorem deriveL2c_byteRate (h : LinearHeader) (law : Law) :
    (deriveL2c h law).byteRate.toNat = h.byteRate.toNat / h.frameBytes.toNat := by
  rw [deriveL2c, BitVec.toNat_ofNat]
  exact Nat.mod_eq_of_lt ((Nat.div_le_self _ _).trans_lt h.byteRate.isLt)

/-- Settles O39: the lengths and the byte rate as exact numbers, and the fields that are constants or copies. -/
theorem compandedDerivation : Obligations.CompandedDerivation := by
  intro h law L hv
  obtain ⟨-, -, -, rfl⟩ := validateLin_eq_ok_iff.mp hv
  exact ⟨rfl, rfl, rfl, rfl, deriveL2c_fileSize h law, rfl, (· ▸ rfl), (· ▸ rfl), rfl, rfl,
    deriveL2c_byteRate h law, rfl, rfl, rfl, rfl, rfl, deriveL2c_sampleLength h law, deriveL2c_payloadLength h law,
    deriveL2c_dataLenHi_le h law, rfl⟩

/-- The file size of a derived linear header does not wrap where the source's length fits (R171). -/
theorem deriveC2l_fileSize {h : CompandedHeader} (hfit : 44 + 2 * h.payloadLength ≤ 4294967295) :
    (deriveC2l h).fileSize.toNat = 44 + 2 * h.payloadLength := by
  simp only [deriveC2l, linHdrBytes, BitVec.toNat_ofNat]
  omega

/-- The length of a derived linear header does not wrap where the source's length fits (R171). -/
theorem deriveC2l_dataLen {h : CompandedHeader} (hfit : 44 + 2 * h.payloadLength ≤ 4294967295) :
    (deriveC2l h).dataLen.toNat = 2 * h.payloadLength := by
  simp only [deriveC2l, BitVec.toNat_ofNat]
  omega

/-- The byte rate of a derived linear header is twice the source's, modulo 2^32 (R171). -/
theorem deriveC2l_byteRate (h : CompandedHeader) :
    (deriveC2l h).byteRate.toNat = 2 * h.byteRate.toNat % 2 ^ 32 :=
  BitVec.toNat_ofNat _ _

/-- Settles O40: the lengths as exact numbers, the wrapped byte rate, and the fields that are constants or copies. -/
theorem linearDerivation : Obligations.LinearDerivation := by
  intro h law M hv
  obtain ⟨rfl, hfit⟩ := validateCmp_length hv
  exact ⟨rfl, rfl, rfl, deriveC2l_fileSize hfit, rfl, rfl, rfl, rfl, deriveC2l_byteRate h, rfl, rfl,
    deriveC2l_dataLen hfit⟩

/-- Settles O41: the quotient is exact in the one direction, and the doubled rate fits in the other. -/
theorem derivedByteRates : Obligations.DerivedByteRates := by
  constructor
  · intro h law L hv hrate
    obtain ⟨-, hframe, -, -⟩ := validateLin_eq_ok_iff.mp hv
    have hpos : 0 < h.frameBytes.toNat := Nat.pos_of_ne_zero fun hz => hframe (BitVec.eq_of_toNat_eq hz)
    have quotient : (deriveL2c h law).byteRate = h.sampleRate := BitVec.eq_of_toNat_eq <| by
      rw [deriveL2c_byteRate, hrate, Nat.mul_div_cancel _ hpos]
    exact ⟨quotient, (congrArg BitVec.toNat quotient).trans (Nat.mul_one _).symm⟩
  · intro h hrate hlt
    have doubled : (deriveC2l h).byteRate.toNat = h.sampleRate.toNat * 2 := by
      rw [deriveC2l_byteRate, hrate]
      omega
    exact ⟨doubled, doubled⟩

/-- Settles O42: a derived companded header passes every check but the bound on the linear image, and a derived
linear header passes all of them. -/
theorem derivedHeadersValidate : Obligations.DerivedHeadersValidate := by
  constructor
  · intro h law L hv
    obtain ⟨-, -, heven, rfl⟩ := validateLin_eq_ok_iff.mp hv
    rw [validateCmp_eq_ok_iff]
    constructor
    · rintro ⟨-, -, -, -, hfit⟩
      omega
    · intro hfit
      exact ⟨lawOfFmt_fmtOfLaw law, deriveL2c_payloadLength h law, deriveL2c_fileSize h law,
        deriveL2c_sampleLength h law, by omega⟩
  · intro h law M hv
    obtain ⟨rfl, hfit⟩ := validateCmp_length hv
    have hlen := deriveC2l_dataLen hfit
    exact validateLin_eq_ok_iff.mpr ⟨rfl, (by decide : (2 : BitVec 16) ≠ 0), by omega, hlen⟩

end Sys2Proof.Machine
end

section
/-! PROOFS. The conversions (R200 to R212): each step up to the header write as an equation per case, and the six
steps of a whole conversion in a row. -/

namespace Sys2Proof.Machine

open Statements

/-! ### The steps of a conversion, by `STATE` -/

/-- A conversion is no LUT command. -/
theorem not_lut_of_conv {i : Instr} {kind : ConvKind} (hc : commandClass i = .conv kind) :
    commandClass i ≠ .lut := by
  simp [hc]

section
variable {i : Instr} {kind : ConvKind} {s : State}

/-- The first step of a conversion (R203). -/
theorem exec_conv_atStart (hc : commandClass i = .conv kind) (hs : AtStart s) :
    exec i s = convReadHeader kind s := by
  rw [exec_of_conv hc, convCommand, hs.1]
  exact if_pos hs.2

/-- The step that reads the payload (R204). -/
theorem exec_conv_headerRead (hc : commandClass i = .conv kind) (hs : s.seqState = .headerRead) :
    exec i s = convReadPayload kind s := by
  rw [exec_of_conv hc, convCommand, hs]

/-- The step that writes the header (R205). -/
theorem exec_conv_payloadRead (hc : commandClass i = .conv kind) (hs : s.seqState = .payloadRead) :
    exec i s = convEmitHeader kind s := by
  rw [exec_of_conv hc, convCommand, hs]

/-! ### The step leaving `Idle` -/

/-- The length of a conversion's source header (R203). -/
def ConvKind.headerBytes : ConvKind → Nat
  | .l2c _ => 44
  | .c2l => 58

/-- A conversion's first step begun, its header not yet read (R203). -/
def ConvKind.begun : ConvKind → State → State
  | .l2c law, s => { s with pending := false, law := some law }
  | .c2l, s => { s with pending := false }

/-- The bytes read as a conversion's source header have other tags (R162 to R164). -/
def ConvKind.BadTags : ConvKind → List Byte → Prop
  | .l2c _, H => parseLin H = .error .badMagic
  | .c2l, H => parseCmp H = .error .badMagic

/-- A header read the host does not answer takes no step (R253). -/
theorem convReadHeader_held (hh : s.sourceHeld = true) : convReadHeader kind s = .next s := by
  cases kind with
  | l2c law => rw [convReadHeader, readExact_held (by exact hh)]
  | c2l => rw [convReadHeader, readExact_held (by exact hh)]

/-- A header read with too few bytes left (R161, R203). -/
theorem convReadHeader_short (hh : s.sourceHeld = false) (h : ¬ SourceHas kind.headerBytes s) :
    convReadHeader kind s = .next (State.raise
      { kind.begun s with
        cursor := shortReadCursor s.freeDraws s.cursor s.source.length
        freeDraws := s.freeDraws + 1 } .truncatedHeader) := by
  cases kind with
  | l2c law =>
    rw [convReadHeader, readExact_short (by exact hh) (by exact h)]
    rfl
  | c2l =>
    rw [convReadHeader, readExact_short (by exact hh) (by exact h)]
    rfl

/-- A header read that finds other tags (R203). -/
theorem convReadHeader_badTags (hh : s.sourceHeld = false) (h : SourceHas kind.headerBytes s)
    (hbad : kind.BadTags (slice s.source s.cursor kind.headerBytes)) :
    convReadHeader kind s = .next (State.raise
      { kind.begun s with cursor := s.cursor + kind.headerBytes } .badMagic) := by
  cases kind with
  | l2c law =>
    have parse : parseLin (slice s.source s.cursor linHdrBytes) = .error .badMagic := hbad
    rw [convReadHeader, readExact_enough (by exact hh) (by exact h)]
    simp only [parse]
    rfl
  | c2l =>
    have parse : parseCmp (slice s.source s.cursor cmpHdrBytes) = .error .badMagic := hbad
    rw [convReadHeader, readExact_enough (by exact hh) (by exact h)]
    simp only [parse]
    rfl

/-- A linear header read and parsed (R203). -/
theorem convReadHeader_lin {law : Law} {h : LinearHeader} (hh : s.sourceHeld = false) (hsrc : SourceHas 44 s)
    (hp : parseLin (slice s.source s.cursor 44) = .ok h) :
    convReadHeader (.l2c law) s = .next
      { s with
        pending := false, law := some law, cursor := s.cursor + 44, srcLin := some h
        seqState := .headerRead } := by
  rw [convReadHeader, linHdrBytes, readExact_enough (by exact hh) (by exact hsrc)]
  simp only [hp]

/-- A companded header read and parsed (R203). -/
theorem convReadHeader_cmp {h : CompandedHeader} (hh : s.sourceHeld = false) (hsrc : SourceHas 58 s)
    (hp : parseCmp (slice s.source s.cursor 58) = .ok h) :
    convReadHeader .c2l s = .next
      { s with pending := false, cursor := s.cursor + 58, srcCmp := some h, seqState := .headerRead } := by
  rw [convReadHeader, cmpHdrBytes, readExact_enough (by exact hh) (by exact hsrc)]
  simp only [hp]

/-- A first step that fails after its read, wherever the cursor is then, ends quiet with the sink untouched. -/
theorem exec_conv_headerFails {e : ErrKind} {c d : Nat} (hc : commandClass i = .conv kind)
    (h : exec i s = .next (State.raise { kind.begun s with cursor := c, freeDraws := d } e)) :
    ∃ t, exec i s = .next t ∧ FailsWith e s t ∧ t.busy = false ∧ t.cursor = c ∧ t.sink = s.sink ∧
      t.answers = s.answers := by
  refine ⟨_, h, exec_failsWith (not_lut_of_conv hc) h ?_, ?_, rfl, ?_, ?_⟩ <;> cases kind <;> rfl

/-- On a short source the first step ends in `TruncatedHeader`, the cursor not moved back (R55, R161). -/
theorem exec_conv_truncated (hc : commandClass i = .conv kind) (hs : AtStart s) (hh : s.sourceHeld = false)
    (hshort : ¬ SourceHas kind.headerBytes s) :
    ∃ t, exec i s = .next t ∧ FailsWith .truncatedHeader s t ∧ t.busy = false ∧ s.cursor ≤ t.cursor ∧
      t.sink = s.sink ∧ t.answers = s.answers := by
  obtain ⟨t, e, fails, quiet, -, kept⟩ :=
    exec_conv_headerFails hc ((exec_conv_atStart hc hs).trans (convReadHeader_short hh hshort))
  exact ⟨t, e, fails, quiet, (exec_frame e).1.le_cursor, kept⟩

/-- On other tags the first step ends in `BadMagic`, the header consumed (R203). -/
theorem exec_conv_badMagic (hc : commandClass i = .conv kind) (hs : AtStart s) (hh : s.sourceHeld = false)
    (hsrc : SourceHas kind.headerBytes s) (hbad : kind.BadTags (slice s.source s.cursor kind.headerBytes)) :
    ∃ t, exec i s = .next t ∧ FailsWith .badMagic s t ∧ t.busy = false ∧
      t.cursor = s.cursor + kind.headerBytes ∧ t.sink = s.sink ∧ t.answers = s.answers :=
  exec_conv_headerFails hc ((exec_conv_atStart hc hs).trans (convReadHeader_badTags hh hsrc hbad))

end

/-- Settles O43: the four outcomes of the header read, for either kind of header. -/
theorem conversionsReadTheirHeader : Obligations.ConversionsReadTheirHeader := by
  refine ⟨fun i law s hc hs => ?_, fun s hs => ?_⟩
  · have first := exec_conv_atStart hc hs
    exact ⟨fun hh => first.trans (convReadHeader_held hh),
      fun h hh hsrc hp => first.trans (convReadHeader_lin hh hsrc hp),
      exec_conv_badMagic hc hs, exec_conv_truncated hc hs⟩
  · have hc : commandClass .convG711Pcm = .conv .c2l := rfl
    have first := exec_conv_atStart hc hs
    exact ⟨fun hh => first.trans (convReadHeader_held hh),
      fun h hh hsrc hp => first.trans (convReadHeader_cmp hh hsrc hp),
      exec_conv_badMagic hc hs, exec_conv_truncated hc hs⟩

/-! ### The step leaving `HeaderRead` -/

section
variable {i : Instr} {kind : ConvKind} {s : State}

/-- A linear header that does not validate ends the conversion (R204). -/
theorem exec_conv_invalidLin {law : Law} {h : LinearHeader} {e : ErrKind} (hc : commandClass i = .conv (.l2c law))
    (hs : s.seqState = .headerRead) (hr : s.srcLin = some h) (hv : validateLin h = .error e) :
    exec i s = .next (s.raise e) := by
  rw [exec_conv_headerRead hc hs, convReadPayload_l2c hr, hv]

/-- A companded header that does not validate ends the conversion (R204). -/
theorem exec_conv_invalidCmp {h : CompandedHeader} {e : ErrKind} (hc : commandClass i = .conv .c2l)
    (hs : s.seqState = .headerRead) (hr : s.srcCmp = some h) (hv : validateCmp h = .error e) :
    exec i s = .next (s.raise e) := by
  rw [exec_conv_headerRead hc hs, convReadPayload_c2l hr, hv]

/-- A linear header that validates leads to the payload of its length (R204). -/
theorem exec_conv_validLin {law : Law} {h : LinearHeader} {L : Nat} (hc : commandClass i = .conv (.l2c law))
    (hs : s.seqState = .headerRead) (hr : s.srcLin = some h) (hv : validateLin h = .ok L) :
    exec i s = convPayload s.law L s := by
  rw [exec_conv_headerRead hc hs, convReadPayload_l2c hr, hv]

/-- A companded header that validates leads to the payload of its length, and gives the law (R167, R204). -/
theorem exec_conv_validCmp {h : CompandedHeader} {law : Law} {M : Nat} (hc : commandClass i = .conv .c2l)
    (hs : s.seqState = .headerRead) (hr : s.srcCmp = some h) (hv : validateCmp h = .ok (law, M)) :
    exec i s = convPayload (some law) M s := by
  rw [exec_conv_headerRead hc hs, convReadPayload_c2l hr, hv]

variable {law : Option Law} {n : Nat}

/-- A payload beyond `MAX_PAYLOAD_BYTES` is refused (R58, R252 d). -/
theorem convPayload_oversize (hcap : s.maxPayloadBytes.val < n) : convPayload law n s = .next s.refuse :=
  if_pos hcap

/-- Otherwise it is read (R204). -/
theorem convPayload_read (hcap : n ≤ s.maxPayloadBytes.val) :
    convPayload law n s = readPayload n s { s with law := law, plen := n } :=
  if_neg (Nat.not_lt.mpr hcap)

/-- A payload read that finds its bytes (R204). -/
theorem convPayload_enough (hcap : n ≤ s.maxPayloadBytes.val) (hh : s.sourceHeld = false) (hsrc : SourceHas n s) :
    convPayload law n s = .next
      { s with
        law := law, plen := n, cursor := s.cursor + n, inBuf := slice s.source s.cursor n
        seqState := .payloadRead } :=
  (convPayload_read hcap).trans (readPayload_enough hh hsrc)

/-- A step that fails with nothing read or written. -/
theorem exec_conv_fails {e : ErrKind} (hc : commandClass i = .conv kind) (h : exec i s = .next (s.raise e)) :
    ∃ t, exec i s = .next t ∧ FailsWith e s t ∧ t.cursor = s.cursor ∧ t.sink = s.sink ∧ t.answers = s.answers :=
  ⟨_, h, exec_failsWith (not_lut_of_conv hc) h rfl, rfl, rfl, rfl⟩

/-- A payload read with too few bytes left ends in `ShortRead`, the cursor not moved back (R55, R204). -/
theorem exec_conv_shortRead (hc : commandClass i = .conv kind) (hx : exec i s = convPayload law n s)
    (hcap : n ≤ s.maxPayloadBytes.val) (hh : s.sourceHeld = false) (hshort : ¬ SourceHas n s) :
    ∃ t, exec i s = .next t ∧ FailsWith .shortRead s t ∧ s.cursor ≤ t.cursor ∧ t.sink = s.sink ∧
      t.answers = s.answers := by
  have e := hx.trans ((convPayload_read hcap).trans (readPayload_short hh hshort))
  exact ⟨_, e, exec_failsWith (not_lut_of_conv hc) e rfl, (exec_frame e).1.le_cursor, rfl, rfl⟩

end

/-- Settles O44: the validation, and past it the four outcomes of the payload read. -/
theorem conversionsReadTheirPayload : Obligations.ConversionsReadTheirPayload := by
  refine ⟨fun i law s h hc hs hr => ?_, fun s h hs hr => ?_⟩
  · have valid {L : Nat} (hv : validateLin h = .ok L) := exec_conv_validLin hc hs hr hv
    exact ⟨fun e hv => exec_conv_fails hc (exec_conv_invalidLin hc hs hr hv),
      fun L hv hcap => (valid hv).trans (convPayload_oversize hcap),
      fun L hv hcap hh => (valid hv).trans ((convPayload_read hcap).trans (readPayload_held hh)),
      fun L hv => exec_conv_shortRead hc (valid hv),
      fun L hv hcap hh hsrc => (valid hv).trans (convPayload_enough hcap hh hsrc)⟩
  · have hc : commandClass .convG711Pcm = .conv .c2l := rfl
    have valid {law : Law} {M : Nat} (hv : validateCmp h = .ok (law, M)) := exec_conv_validCmp hc hs hr hv
    exact ⟨fun e hv => exec_conv_fails hc (exec_conv_invalidCmp hc hs hr hv),
      fun law M hv hcap => (valid hv).trans (convPayload_oversize hcap),
      fun law M hv hcap hh => (valid hv).trans ((convPayload_read hcap).trans (readPayload_held hh)),
      fun law M hv => exec_conv_shortRead hc (valid hv),
      fun law M hv hcap hh hsrc => (valid hv).trans (convPayload_enough hcap hh hsrc)⟩

/-! ### The step leaving `PayloadRead` -/

section
variable {i : Instr} {kind : ConvKind} {s : State}

/-- The header write from a linear record (R205). -/
theorem exec_conv_emitCmp {l law : Law} {h : LinearHeader} (hc : commandClass i = .conv (.l2c l))
    (hs : s.seqState = .payloadRead) (hr : s.srcLin = some h) (hl : s.law = some law) :
    exec i s = emit (serCmp (deriveL2c h law)) .headerDerived s { s with dstCmp := some (deriveL2c h law) } :=
  (exec_conv_payloadRead hc hs).trans (convEmitHeader_l2c hr hl)

/-- The header write from a companded record (R205). -/
theorem exec_conv_emitLin {h : CompandedHeader} (hc : commandClass i = .conv .c2l)
    (hs : s.seqState = .payloadRead) (hr : s.srcCmp = some h) :
    exec i s = emit (serLin (deriveC2l h)) .headerDerived s { s with dstLin := some (deriveC2l h) } :=
  (exec_conv_payloadRead hc hs).trans (convEmitHeader_c2l hr)

/-- A header write answered `WriteFailure` ends the conversion, a beginning of the image in the sink (R205). -/
theorem exec_conv_headerWriteFails {bs : List Byte} {onOk : SeqState} {dstLin : Option LinearHeader}
    {dstCmp : Option CompandedHeader} {k : Nat} {rest : List WriteAnswer} (hc : commandClass i = .conv kind)
    (hx : exec i s = emit bs onOk s { s with dstLin := dstLin, dstCmp := dstCmp })
    (ha : s.answers = .writeFailure k :: rest) :
    ∃ t, exec i s = .next t ∧ FailsWith .writeFailure s t ∧ t.cursor = s.cursor ∧ t.sink = s.sink ++ bs.take k ∧
      t.answers = rest := by
  have e := hx.trans (emit_writeFailure ha)
  exact ⟨_, e, exec_failsWith (not_lut_of_conv hc) e rfl, rfl, rfl, rfl⟩

end

/-- Settles O45: the three answers to the header write, for either kind of header. -/
theorem conversionsEmitTheirHeader : Obligations.ConversionsEmitTheirHeader := by
  refine ⟨fun i law s h hc hs hr hl => ?_, fun s h hs hr => ?_⟩
  · have write := exec_conv_emitCmp hc hs hr hl
    exact ⟨fun rest ha => write.trans (emit_ok ha), fun k rest ha => exec_conv_headerWriteFails hc write ha,
      fun ha => write.trans (emit_waiting ha)⟩
  · have hc : commandClass .convG711Pcm = .conv .c2l := rfl
    have write := exec_conv_emitLin hc hs hr
    exact ⟨fun rest ha => write.trans (emit_ok ha), fun k rest ha => exec_conv_headerWriteFails hc write ha,
      fun ha => write.trans (emit_waiting ha)⟩

/-! ### A whole conversion -/

section
variable {i : Instr} {kind : ConvKind} {s : State}

/-- The three steps that read the header, read the payload and write the new header, and then the three from the
codec step on (R200, R207). -/
theorem runsTo_done_of_conv {s₁ s₂ s₃ : State} {law : Law} {rest : List WriteAnswer}
    (hc : commandClass i = .conv kind) (hs : AtStart s) (hrun : SequencerAlone i s)
    (header : exec i s = .next s₁) (hs₁ : s₁.seqState = .headerRead) (hrun₁ : SequencerAlone i s₁)
    (payload : exec i s₁ = .next s₂) (hs₂ : s₂.seqState = .payloadRead) (hrun₂ : SequencerAlone i s₂)
    (write : exec i s₂ = .next s₃) (hs₃ : s₃.seqState = .headerDerived) (hrun₃ : SequencerAlone i s₃)
    (hl : s₃.law = some law) (heven : kind.dir = .enc → s₃.inBuf.length % 2 = 0)
    (ha : s₃.answers = .ok :: rest) :
    ∃ O, O.length = codecLength kind.dir s₃.inBuf.length ∧ sampleCodec law kind.dir s₃.inBuf = .output O ∧
      runsTo 6 s { s₃ with outBuf := O, answers := rest, sink := s₃.sink ++ O, seqState := .done } := by
  have step₁ := (step_sequencerAlone hrun (by simp [State.busy, hs.2])).trans header
  have step₂ := (step_sequencerAlone hrun₁ (busy_of_running (by rw [hs₁]; rfl))).trans payload
  have step₃ := (step_sequencerAlone hrun₂ (busy_of_running (by rw [hs₂]; rfl))).trans write
  obtain ⟨O, hO, codec, others⟩ := runsTo_done_of_codecStep hrun₃ (not_lut_of_conv hc)
    (busy_of_running (by rw [hs₃]; rfl)) (exec_conv_headerDerived hc hs₃ hl) heven ha
  exact ⟨O, hO, codec, (run_succ step₁).trans ((run_succ step₂).trans ((run_succ step₃).trans others))⟩

end

/-- Settles O46: three steps on a linear source, then the codec step on its payload and the two after it. -/
theorem pcmConversionEndToEnd : Obligations.PcmConversionEndToEnd := by
  intro i law s h L rest hc hrun hs hp hv hcap hsource hheld ha
  obtain ⟨rfl, heven, -⟩ := validateLin_length hv
  have hpayload : s.cursor + 44 + h.dataLen.toNat ≤ s.source.length := by
    rwa [SourceHas, ← Nat.add_assoc] at hsource
  have hlen := slice_length s.source (s.cursor + 44) _ hpayload
  obtain ⟨O, hO, codec, run⟩ := runsTo_done_of_conv hc hs hrun
    (Eq.trans (exec_conv_atStart hc hs) (convReadHeader_lin hheld (Nat.le_of_add_right_le hpayload) hp)) rfl hrun
    (Eq.trans (exec_conv_validLin hc rfl rfl hv) (convPayload_enough hcap hheld hpayload)) rfl hrun
    (Eq.trans (exec_conv_emitCmp hc rfl rfl rfl) (emit_ok ha)) rfl hrun
    rfl (fun _ => hlen.symm ▸ heven) rfl
  have hO' : O.length = h.dataLen.toNat / 2 := hO.trans (congrArg (· / 2) hlen)
  have himage : (serCmp (deriveL2c h law)).length = 58 := serCmp_length rfl
  exact ⟨_, O, codec, hO', run, rfl, rfl, rfl, rfl, by simp only [List.length_append, himage, hO'],
    deriveL2c_fileSize h law, rfl, rfl, rfl, rfl, rfl, rfl, rfl, hrun.1⟩

/-- Settles O47: three steps on a companded source, then the codec step on its payload and the two after it. -/
theorem g711ConversionEndToEnd : Obligations.G711ConversionEndToEnd := by
  intro s h law M rest hrun hs hp hv hcap hsource hheld ha
  have hc : commandClass .convG711Pcm = .conv .c2l := rfl
  obtain ⟨rfl, hfit⟩ := validateCmp_length hv
  have hpayload : s.cursor + 58 + h.payloadLength ≤ s.source.length := by
    rwa [SourceHas, ← Nat.add_assoc] at hsource
  have hlen := slice_length s.source (s.cursor + 58) _ hpayload
  obtain ⟨O, hO, codec, run⟩ := runsTo_done_of_conv hc hs hrun
    (Eq.trans (exec_conv_atStart hc hs) (convReadHeader_cmp hheld (Nat.le_of_add_right_le hpayload) hp)) rfl hrun
    (Eq.trans (exec_conv_validCmp hc rfl rfl hv) (convPayload_enough hcap hheld hpayload)) rfl hrun
    (Eq.trans (exec_conv_emitLin hc rfl rfl) (emit_ok ha)) rfl hrun
    rfl nofun rfl
  have hO' : O.length = 2 * h.payloadLength := hO.trans (congrArg (2 * ·) hlen)
  have himage : (serLin (deriveC2l h)).length = 44 := serLin_length rfl
  exact ⟨_, O, codec, hO', run, rfl, rfl, rfl, rfl, by simp only [List.length_append, himage, hO'],
    deriveC2l_fileSize hfit, rfl, rfl, rfl, rfl, rfl, rfl, rfl, hrun.1⟩

end Sys2Proof.Machine
end

section
/-! PROOFS. What an answered step reads, writes and raises: the effect of each stage on the source cursor, the sink
and `ERR`, said once; then R201 and R208 for the conversions, and a sink that only grows for every step. -/

namespace Sys2Proof.Machine

open Statements

/-! ### The shared stages -/

/-- A step that hands `bs` to the sink: at most a beginning of it is there afterwards, nothing more has been read
and nothing but `WriteFailure` has been raised (R56, R243). -/
structure Wrote (bs : List Byte) (s t : State) : Prop where
  cursor : t.cursor = s.cursor
  sink : ∃ k, t.sink = s.sink ++ bs.take k
  err : t.err = s.err ∨ t.err = some .writeFailure

/-- The sink before a write is a beginning of the sink after it. -/
theorem Wrote.sink_grows {bs : List Byte} {s t : State} (w : Wrote bs s t) : s.sink <+: t.sink := by
  obtain ⟨k, hsink⟩ := w.sink
  exact ⟨_, hsink.symm⟩

/-- A sink left as it was is a beginning of itself. -/
theorem sink_grows_of_eq {s t : State} (h : t.sink = s.sink) : s.sink <+: t.sink :=
  h ▸ List.prefix_rfl

section
variable {kind : ConvKind} {s s' t : State}

/-- All a `WriteAll` leaves behind, when the step before it has changed neither cursor, sink nor `ERR`. -/
theorem emit_wrote {bs : List Byte} {onOk : SeqState} (h : emit bs onOk s s' = .next t)
    (hcursor : s'.cursor = s.cursor) (hsink : s'.sink = s.sink) (herr : s'.err = s.err) : Wrote bs s t := by
  rcases emit_cases bs onOk s s' with ⟨-, e⟩ | ⟨rest, -, e⟩ | ⟨k, rest, -, e⟩ <;> cases e.symm.trans h
  · exact ⟨rfl, ⟨0, by simp⟩, .inl rfl⟩
  · exact ⟨hcursor, ⟨bs.length, by simp [hsink]⟩, .inl herr⟩
  · exact ⟨hcursor, ⟨k, by simp [hsink]⟩, .inr rfl⟩

/-- A payload read leaves the sink alone and raises nothing but `ShortRead` (R161). -/
theorem readPayload_effect {n : Nat} (h : readPayload n s s' = .next t) (hsink : s'.sink = s.sink)
    (herr : s'.err = s.err) : t.sink = s.sink ∧ (t.err = s.err ∨ t.err = some .shortRead) := by
  rcases readPayload_cases n s s' with ⟨-, e⟩ | ⟨-, -, e⟩ | ⟨-, -, e⟩ <;> cases e.symm.trans h
  · exact ⟨rfl, .inl rfl⟩
  · exact ⟨hsink, .inl herr⟩
  · exact ⟨hsink, .inr rfl⟩

/-- The codec step reads and writes nothing, and fails on half an element alone (R140). -/
theorem transformStep_effect {law : Law} {dir : Dir} (h : transformStep law dir s = .next t) :
    t.cursor = s.cursor ∧ t.sink = s.sink ∧ (t.err = s.err ∨ (dir = .enc ∧ s.inBuf.length % 2 ≠ 0)) := by
  rcases transformStep_cases law dir s with ⟨O, -, e⟩ | ⟨hd, hodd, e⟩ <;> cases e.symm.trans h
  · exact ⟨rfl, rfl, .inl rfl⟩
  · exact ⟨rfl, rfl, .inr ⟨hd, hodd⟩⟩

/-! ### The stages of a conversion -/

/-- The header read leaves the sink alone and raises `TruncatedHeader`, or `BadMagic` with the header consumed
(R203). -/
theorem convReadHeader_effect (h : convReadHeader kind s = .next t) :
    t.sink = s.sink ∧ (t.err = s.err ∨ t.err = some .truncatedHeader ∨
      (t.err = some .badMagic ∧ t.cursor = s.cursor + kind.headerBytes)) := by
  cases kind with
  | l2c law =>
    rcases convReadHeader_l2c_cases law s with ⟨-, e⟩ | ⟨-, -, e⟩ | ⟨-, -, -, e⟩ | ⟨-, -, -, e⟩ <;>
      cases e.symm.trans h
    · exact ⟨rfl, .inl rfl⟩
    · exact ⟨rfl, .inr (.inl rfl)⟩
    · exact ⟨rfl, .inr (.inr ⟨rfl, rfl⟩)⟩
    · exact ⟨rfl, .inl rfl⟩
  | c2l =>
    rcases convReadHeader_c2l_cases s with ⟨-, e⟩ | ⟨-, -, e⟩ | ⟨-, -, -, e⟩ | ⟨-, -, -, e⟩ <;>
      cases e.symm.trans h
    · exact ⟨rfl, .inl rfl⟩
    · exact ⟨rfl, .inr (.inl rfl)⟩
    · exact ⟨rfl, .inr (.inr ⟨rfl, rfl⟩)⟩
    · exact ⟨rfl, .inl rfl⟩

/-- The errors of a validation (R165, R166). -/
def ValidationError (e : ErrKind) : Prop := e = .unsupportedEncoding ∨ e = .malformedPayload

theorem validateLin_error {h : LinearHeader} {e : ErrKind} (hv : validateLin h = .error e) : ValidationError e := by
  rcases validateLin_cases h with ⟨-, -, -, ev⟩ | ⟨-, ev⟩ | ⟨-, -, -, ev⟩ <;> cases ev.symm.trans hv
  · exact .inl rfl
  · exact .inr rfl

theorem validateCmp_error {h : CompandedHeader} {e : ErrKind} (hv : validateCmp h = .error e) :
    ValidationError e := by
  rcases validateCmp_cases h with ⟨_, -, -, -, -, ev⟩ | ⟨-, ev⟩ | ⟨-, -, ev⟩ <;> cases ev.symm.trans hv
  · exact .inl rfl
  · exact .inr rfl

/-- Past validation nothing is raised but `ShortRead` (R204). -/
theorem convPayload_effect {law : Option Law} {n : Nat} (h : convPayload law n s = .next t) :
    t.sink = s.sink ∧ (t.err = s.err ∨ t.err = some .shortRead) := by
  rcases convPayload_cases law n s with ⟨-, e⟩ | ⟨-, e⟩ <;> rw [e] at h
  · cases h
    exact ⟨rfl, .inl rfl⟩
  · exact readPayload_effect h rfl rfl

/-- The payload step leaves the sink alone and raises a validation's error with nothing more consumed, or
`ShortRead` (R204). -/
theorem convReadPayload_effect (h : convReadPayload kind s = .next t) :
    t.sink = s.sink ∧ (t.err = s.err ∨ (∃ e, t.err = some e ∧ ValidationError e ∧ t.cursor = s.cursor) ∨
      t.err = some .shortRead) := by
  cases kind with
  | l2c law =>
    cases hr : s.srcLin with
    | none => simp [convReadPayload, hr] at h
    | some r =>
      rw [convReadPayload_l2c hr] at h
      split at h
      · next hv =>
        cases h
        exact ⟨rfl, .inr (.inl ⟨_, rfl, validateLin_error hv, rfl⟩)⟩
      · exact (convPayload_effect h).imp_right (Or.imp_right Or.inr)
  | c2l =>
    cases hr : s.srcCmp with
    | none => simp [convReadPayload, hr] at h
    | some r =>
      rw [convReadPayload_c2l hr] at h
      split at h
      · next hv =>
        cases h
        exact ⟨rfl, .inr (.inl ⟨_, rfl, validateCmp_error hv, rfl⟩)⟩
      · exact (convPayload_effect h).imp_right (Or.imp_right Or.inr)

/-- `bs` is the image of the header derived from the record the conversion has read (R205). -/
def HeaderImage : ConvKind → State → List Byte → Prop
  | .l2c _, s, bs => ∃ h law, s.srcLin = some h ∧ s.law = some law ∧ bs = serCmp (deriveL2c h law)
  | .c2l, s, bs => ∃ h, s.srcCmp = some h ∧ bs = serLin (deriveC2l h)

/-- Of a validated linear record it is the image for the command's law. -/
theorem HeaderImage.eq_serCmp {bs : List Byte} {law : Law} {h : LinearHeader} (himage : HeaderImage (.l2c law) s bs)
    (hv : Validated (.l2c law) s) (hr : s.srcLin = some h) : bs = serCmp (deriveL2c h law) := by
  obtain ⟨h', law', hr', hl', image⟩ := himage
  cases hr'.symm.trans hr
  cases hl'.symm.trans hv.1
  exact image

theorem HeaderImage.eq_serLin {bs : List Byte} {h : CompandedHeader} (himage : HeaderImage .c2l s bs)
    (hr : s.srcCmp = some h) : bs = serLin (deriveC2l h) := by
  obtain ⟨h', hr', image⟩ := himage
  cases hr'.symm.trans hr
  exact image

/-- The header step hands that image to the sink (R205). -/
theorem convEmitHeader_wrote (h : convEmitHeader kind s = .next t) :
    ∃ bs, HeaderImage kind s bs ∧ Wrote bs s t := by
  cases kind with
  | l2c _ =>
    cases hr : s.srcLin with
    | none => simp [convEmitHeader, hr] at h
    | some r =>
      cases hl : s.law with
      | none => simp [convEmitHeader, hr, hl] at h
      | some law =>
        rw [convEmitHeader_l2c hr hl] at h
        exact ⟨_, ⟨r, law, hr, hl, rfl⟩, emit_wrote h rfl rfl rfl⟩
  | c2l =>
    cases hr : s.srcCmp with
    | none => simp [convEmitHeader, hr] at h
    | some r =>
      rw [convEmitHeader_c2l hr] at h
      exact ⟨_, ⟨r, hr, rfl⟩, emit_wrote h rfl rfl rfl⟩

/-- The codec step of a conversion. -/
theorem convTransform_effect (h : convTransform kind s = .next t) :
    t.cursor = s.cursor ∧ t.sink = s.sink ∧
      (t.err = s.err ∨ (kind.dir = .enc ∧ s.inBuf.length % 2 ≠ 0)) := by
  cases hl : s.law with
  | none => simp [convTransform, hl] at h
  | some law =>
    rw [convTransform_eq hl] at h
    exact transformStep_effect h

/-! ### The conversions -/

/-- What an answered step of a conversion has read, written and raised, by the `STATE` it leaves (R201, R208). -/
def ConvEffect (kind : ConvKind) (s t : State) : Prop :=
  match s.seqState with
  | .idle => t.sink = s.sink ∧ (t.err = s.err ∨ t.err = some .truncatedHeader ∨
      (t.err = some .badMagic ∧ t.cursor = s.cursor + kind.headerBytes))
  | .headerRead => t.sink = s.sink ∧ (t.err = s.err ∨
      (∃ e, t.err = some e ∧ ValidationError e ∧ t.cursor = s.cursor) ∨ t.err = some .shortRead)
  | .payloadRead => ∃ bs, HeaderImage kind s bs ∧ Wrote bs s t
  | .headerDerived => t.cursor = s.cursor ∧ t.sink = s.sink ∧
      (t.err = s.err ∨ (kind.dir = .enc ∧ s.inBuf.length % 2 ≠ 0))
  | .payloadTransformed => Wrote s.outBuf s t
  | .written => t.cursor = s.cursor ∧ t.sink = s.sink ∧ t.err = s.err
  | .done | .failed => False

theorem convCommand_effect (h : convCommand kind s = .next t) : ConvEffect kind s t := by
  unfold convCommand at h
  unfold ConvEffect
  cases hst : s.seqState <;> simp only [hst] at h ⊢
  case idle =>
    split at h
    · exact convReadHeader_effect h
    · cases h
  case headerRead => exact convReadPayload_effect h
  case payloadRead => exact convEmitHeader_wrote h
  case headerDerived => exact convTransform_effect h
  case payloadTransformed => exact emit_wrote h rfl rfl rfl
  case written =>
    cases h
    exact ⟨rfl, rfl, rfl⟩
  all_goals cases h

end

/-- Settles O48: the effects of the six steps. -/
theorem conversionsReadBeforeTheyWrite : Obligations.ConversionsReadBeforeTheyWrite := by
  intro i kind s t hc h
  have effect := convCommand_effect (exec_of_conv hc s ▸ h)
  cases hst : s.seqState <;> simp only [ConvEffect, hst] at effect
  case idle => exact ⟨fun _ => .inl rfl, absurd effect.1, fun _ => effect.1⟩
  case headerRead => exact ⟨fun _ => .inr rfl, absurd effect.1, fun _ => effect.1⟩
  case payloadRead =>
    obtain ⟨_, -, wrote⟩ := effect
    exact ⟨absurd wrote.cursor, fun _ => .inl rfl, by simp⟩
  case headerDerived =>
    obtain ⟨hcursor, hsink, -⟩ := effect
    exact ⟨absurd hcursor, absurd hsink, fun _ => hsink⟩
  case payloadTransformed => exact ⟨absurd effect.cursor, fun _ => .inr rfl, by simp⟩
  case written =>
    obtain ⟨hcursor, hsink, -⟩ := effect
    exact ⟨absurd hcursor, absurd hsink, fun _ => hsink⟩

/-- Settles O49: the errors among the effects of the six steps; the invariant rules out one before the step, and the
half element that the codec step would fail on. -/
theorem conversionFailureTable : Obligations.ConversionFailureTable := by
  intro i kind s t e hc ⟨hinv, hb, hd⟩ h he
  have effect := convCommand_effect (exec_of_conv hc s ▸ h)
  have staged := hinv.staged hb hd
  rw [hc] at staged
  have raised : t.err ≠ s.err := by simp [he, hinv.busy_err hb]
  have failedWrite {bs : List Byte} (wrote : Wrote bs s t) : e = .writeFailure :=
    Option.some.inj (he.symm.trans (wrote.err.resolve_left raised))
  refine ⟨fun hst => ?_, fun hst => ?_, fun hst => ?_, fun hst => ?_, fun hst => ?_, fun hst => ?_⟩ <;>
    simp only [ConvEffect, Staged, hst] at effect staged
  · obtain ⟨hsink, herr⟩ := effect
    rcases herr.resolve_left raised with hshort | ⟨hbad, hcursor⟩
    · exact ⟨hsink, .inl (Option.some.inj (he.symm.trans hshort))⟩
    · exact ⟨hsink, .inr ⟨Option.some.inj (he.symm.trans hbad), by cases kind <;> exact hcursor⟩⟩
  · obtain ⟨hsink, herr⟩ := effect
    rcases herr.resolve_left raised with ⟨e', hv, invalid, hcursor⟩ | hshort
    · cases he.symm.trans hv
      exact ⟨hsink, .inl ⟨invalid, hcursor⟩⟩
    · exact ⟨hsink, .inr (Option.some.inj (he.symm.trans hshort))⟩
  · obtain ⟨bs, himage, wrote⟩ := effect
    refine ⟨failedWrite wrote, wrote.cursor, ?_, ?_⟩
    · rintro r law rfl hr
      exact himage.eq_serCmp staged.1 hr ▸ wrote.sink
    · rintro r rfl hr
      exact himage.eq_serLin hr ▸ wrote.sink
  · obtain ⟨-, -, herr⟩ := effect
    obtain ⟨hlen, heven⟩ := staged.2
    obtain ⟨hdir, hodd⟩ := herr.resolve_left raised
    exact hodd (hlen ▸ heven hdir)
  · exact ⟨failedWrite effect, effect.cursor, effect.sink⟩
  · exact raised effect.2.2

/-! ### The sink under every step -/

section
variable {s t : State}

theorem bufferFirstStep_sink {law : Law} {dir : Dir} (h : bufferFirstStep law dir s = .next t) :
    t.sink = s.sink := by
  rcases bufferFirstStep_cases law dir s with ⟨-, -, e⟩ | ⟨-, -, e⟩ | ⟨-, -, e⟩ <;> rw [e] at h
  · cases h
    rfl
  · cases h
    rfl
  · exact (readPayload_effect h rfl rfl).1

theorem bufferCommand_sink_grows {law : Law} {dir : Dir} (h : bufferCommand law dir s = .next t) :
    s.sink <+: t.sink := by
  unfold bufferCommand at h
  cases hst : s.seqState <;> simp only [hst] at h
  case idle =>
    split at h
    · exact sink_grows_of_eq (bufferFirstStep_sink h)
    · cases h
  case payloadRead => exact sink_grows_of_eq (transformStep_effect h).2.1
  case payloadTransformed => exact (emit_wrote h rfl rfl rfl).sink_grows
  case written =>
    cases h
    exact List.prefix_rfl
  all_goals cases h

theorem ConvEffect.sink_grows {kind : ConvKind} (effect : ConvEffect kind s t) : s.sink <+: t.sink := by
  cases hst : s.seqState <;> simp only [ConvEffect, hst] at effect
  case idle => exact sink_grows_of_eq effect.1
  case headerRead => exact sink_grows_of_eq effect.1
  case payloadRead =>
    obtain ⟨_, -, wrote⟩ := effect
    exact wrote.sink_grows
  case headerDerived => exact sink_grows_of_eq effect.2.1
  case payloadTransformed => exact effect.sink_grows
  case written => exact sink_grows_of_eq effect.2.1

/-- A step of any command, a failing one included. -/
theorem exec_sink_grows {i : Instr} (h : exec i s = .next t) : s.sink <+: t.sink := by
  cases hc : commandClass i with
  | lut =>
    obtain ⟨f, hf⟩ := exec_of_lut hc
    obtain ⟨-, rfl⟩ := lutStep_next ((hf s).symm.trans h)
    exact List.prefix_rfl
  | buffer law dir => exact bufferCommand_sink_grows (exec_of_buffer hc s ▸ h)
  | conv kind => exact (convCommand_effect (exec_of_conv hc s ▸ h)).sink_grows

/-- The sequencer's turn. -/
theorem sequencerTurn_sink_grows (h : sequencerTurn s = .next t) : s.sink <+: t.sink := by
  cases hb : s.busy with
  | false =>
    cases (sequencerTurn_quiet hb).symm.trans h
    exact List.prefix_rfl
  | true =>
    cases hd : decode s.acmd with
    | ok i => exact exec_sink_grows ((sequencerTurn_busy hb hd).symm.trans h)
    | error e => simp [sequencerTurn, sequencerStep, hb, hd] at h

/-- No register access reaches the sink. -/
theorem State.portWrite_sink (s : State) (off : Nat) (v : Word) : (s.portWrite off v).sink = s.sink := by
  rcases s.portWrite_cases off v with e | ⟨-, -, -, e⟩ | ⟨-, -, e⟩ | ⟨-, -, e⟩ <;> rw [e] <;> rfl

theorem State.portRead_sink (s : State) (off : Nat) : (s.portRead off).sink = s.sink := by
  rcases s.portRead_cases off with ⟨r, -, e⟩ | ⟨-, e⟩
  · rw [e]
  · rw [e]
    rfl

/-- Each action of the host, reset among them (R271). -/
theorem hostAction_sink_grows {a : HostAction} (h : hostAction a s = .next t) : s.sink <+: t.sink := by
  cases a with
  | wait =>
    cases hb : s.busy with
    | true =>
      exact sequencerTurn_sink_grows (s := { s with script := .wait :: s.script })
        ((hostAction_wait_busy hb).symm.trans h)
    | false =>
      cases (hostAction_wait_quiet hb).symm.trans h
      exact List.prefix_rfl
  | letStep => exact sequencerTurn_sink_grows h
  | write off v =>
    cases h
    exact sink_grows_of_eq (s.portWrite_sink off v)
  | read off =>
    cases h
    exact sink_grows_of_eq (s.portRead_sink off)
  | source | seek | answer | holdReads | inspectSink | reset =>
    cases h
    exact List.prefix_rfl

end

/-- Settles O55: the sequencer's turn and the host's actions. -/
theorem sinkOnlyGrows : Obligations.SinkOnlyGrows := by
  intro s t _ h
  cases hs : s.script with
  | nil => exact sequencerTurn_sink_grows ((step_sequencer hs).symm.trans h)
  | cons a rest => exact hostAction_sink_grows (s := { s with script := rest }) ((step_host hs).symm.trans h)

end Sys2Proof.Machine
end

section
/-! PROOFS. What a step of a command does to the refusal mark (R252): one lemma per stage, and the payload beyond the
capacity as the one refusal. With the invariant and the frame it gives the failure entry (R246). -/

namespace Sys2Proof.Machine

open Statements

/-! ### The refusal mark in a step of a command -/

section
variable {s s' t : State}

theorem readPayload_mark {n : Nat} (h : readPayload n s s' = .next t) (hm : s'.refusalMark = s.refusalMark) :
    t.refusalMark = s.refusalMark := by
  rcases readPayload_cases n s s' with ⟨-, e⟩ | ⟨-, -, e⟩ | ⟨-, -, e⟩ <;> cases e.symm.trans h
  · rfl
  · exact hm
  · exact hm

theorem emit_mark {bs : List Byte} {onOk : SeqState} (h : emit bs onOk s s' = .next t)
    (hm : s'.refusalMark = s.refusalMark) : t.refusalMark = s.refusalMark := by
  rcases emit_cases bs onOk s s' with ⟨-, e⟩ | ⟨rest, -, e⟩ | ⟨k, rest, -, e⟩ <;> cases e.symm.trans h
  · rfl
  · exact hm
  · exact hm

/-- No codec step goes out of bounds, so none is refused (R252 e). -/
theorem transformStep_mark {law : Law} {dir : Dir} (h : transformStep law dir s = .next t) :
    t.refusalMark = s.refusalMark := by
  rcases transformStep_cases law dir s with ⟨O, -, e⟩ | ⟨-, -, e⟩ <;> cases e.symm.trans h <;> rfl

theorem convReadHeader_mark {kind : ConvKind} (h : convReadHeader kind s = .next t) :
    t.refusalMark = s.refusalMark := by
  cases kind with
  | l2c law =>
    rcases convReadHeader_l2c_cases law s with ⟨-, e⟩ | ⟨-, -, e⟩ | ⟨-, -, -, e⟩ | ⟨-, -, -, e⟩ <;>
      cases e.symm.trans h <;> rfl
  | c2l =>
    rcases convReadHeader_c2l_cases s with ⟨-, e⟩ | ⟨-, -, e⟩ | ⟨-, -, -, e⟩ | ⟨-, -, -, e⟩ <;>
      cases e.symm.trans h <;> rfl

theorem convEmitHeader_mark {kind : ConvKind} (h : convEmitHeader kind s = .next t) :
    t.refusalMark = s.refusalMark := by
  cases kind with
  | l2c _ =>
    cases hr : s.srcLin with
    | none => simp [convEmitHeader, hr] at h
    | some r =>
      cases hl : s.law with
      | none => simp [convEmitHeader, hr, hl] at h
      | some law => exact emit_mark ((convEmitHeader_l2c hr hl).symm.trans h) rfl
  | c2l =>
    cases hr : s.srcCmp with
    | none => simp [convEmitHeader, hr] at h
    | some r => exact emit_mark ((convEmitHeader_c2l hr).symm.trans h) rfl

theorem convTransform_mark {kind : ConvKind} (h : convTransform kind s = .next t) :
    t.refusalMark = s.refusalMark := by
  cases hl : s.law with
  | none => simp [convTransform, hl] at h
  | some law => exact transformStep_mark ((convTransform_eq hl).symm.trans h)

/-- Past the capacity check nothing is refused (R58, R204). -/
theorem convPayload_mark {law : Option Law} {n : Nat} (h : convPayload law n s = .next t) :
    t.refusalMark = s.refusalMark ∨ (s.maxPayloadBytes.val < n ∧ t = s.refuse) := by
  rcases convPayload_cases law n s with ⟨hcap, e⟩ | ⟨-, e⟩
  · cases e.symm.trans h
    exact .inr ⟨hcap, rfl⟩
  · exact .inl (readPayload_mark (e.symm.trans h) rfl)

variable {i : Instr}

theorem bufferFirstStep_mark {law : Law} {dir : Dir} (hc : commandClass i = .buffer law dir)
    (hst : s.seqState = .idle) (h : bufferFirstStep law dir s = .next t) :
    t.refusalMark = s.refusalMark ∨ (BeyondCapacity i s ∧ t = s.refuse) := by
  rcases bufferFirstStep_cases law dir s with ⟨-, -, e⟩ | ⟨heven, hcap, e⟩ | ⟨-, -, e⟩
  · cases e.symm.trans h
    exact .inl rfl
  · cases e.symm.trans h
    exact .inr ⟨⟨_, .inl ⟨law, dir, hc, hst, rfl, heven⟩, hcap⟩, rfl⟩
  · exact .inl (readPayload_mark (e.symm.trans h) rfl)

theorem convReadPayload_mark {kind : ConvKind} (hc : commandClass i = .conv kind)
    (hst : s.seqState = .headerRead) (h : convReadPayload kind s = .next t) :
    t.refusalMark = s.refusalMark ∨ (BeyondCapacity i s ∧ t = s.refuse) := by
  cases kind with
  | l2c law =>
    cases hr : s.srcLin with
    | none => simp [convReadPayload, hr] at h
    | some r =>
      rw [convReadPayload_l2c hr] at h
      split at h
      · cases h
        exact .inl rfl
      · next L hv =>
        exact (convPayload_mark h).imp_right
          (And.imp_left fun hcap => ⟨L, .inr (.inl ⟨law, r, hc, hst, hr, hv⟩), hcap⟩)
  | c2l =>
    cases hr : s.srcCmp with
    | none => simp [convReadPayload, hr] at h
    | some r =>
      rw [convReadPayload_c2l hr] at h
      split at h
      · cases h
        exact .inl rfl
      · next law M hv =>
        exact (convPayload_mark h).imp_right
          (And.imp_left fun hcap => ⟨M, .inr (.inr ⟨r, law, hc, hst, hr, hv⟩), hcap⟩)

theorem bufferCommand_mark {law : Law} {dir : Dir} (hc : commandClass i = .buffer law dir)
    (h : bufferCommand law dir s = .next t) :
    t.refusalMark = s.refusalMark ∨ (BeyondCapacity i s ∧ t = s.refuse) := by
  unfold bufferCommand at h
  cases hst : s.seqState <;> simp only [hst] at h
  case idle =>
    split at h
    · exact bufferFirstStep_mark hc hst h
    · cases h
  case payloadRead => exact .inl (transformStep_mark h)
  case payloadTransformed => exact .inl (emit_mark h rfl)
  case written =>
    cases h
    exact .inl rfl
  all_goals cases h

theorem convCommand_mark {kind : ConvKind} (hc : commandClass i = .conv kind)
    (h : convCommand kind s = .next t) :
    t.refusalMark = s.refusalMark ∨ (BeyondCapacity i s ∧ t = s.refuse) := by
  unfold convCommand at h
  cases hst : s.seqState <;> simp only [hst] at h
  case idle =>
    split at h
    · exact .inl (convReadHeader_mark h)
    · cases h
  case headerRead => exact convReadPayload_mark hc hst h
  case payloadRead => exact .inl (convEmitHeader_mark h)
  case headerDerived => exact .inl (convTransform_mark h)
  case payloadTransformed => exact .inl (emit_mark h rfl)
  case written =>
    cases h
    exact .inl rfl
  all_goals cases h

/-- An answered step of a LUT command is its completion (R110). -/
theorem exec_lut_next (hc : commandClass i = .lut) (h : exec i s = .next t) :
    ∃ r, t = { s with pending := false, dout := r, seqState := .done } := by
  obtain ⟨f, hf⟩ := exec_of_lut hc
  exact ⟨f s.din, (lutStep_next ((hf s).symm.trans h)).2⟩

/-- A step of a command leaves the mark as it was, or is the refusal of a payload beyond the capacity (R252 d). -/
theorem exec_mark (h : exec i s = .next t) :
    t.refusalMark = s.refusalMark ∨ (BeyondCapacity i s ∧ t = s.refuse) := by
  cases hc : commandClass i with
  | lut =>
    obtain ⟨r, rfl⟩ := exec_lut_next hc h
    exact .inl rfl
  | buffer law dir => exact bufferCommand_mark hc (exec_of_buffer hc s ▸ h)
  | conv kind => exact convCommand_mark hc (exec_of_conv hc s ▸ h)

end

/-! ### The failure entry -/

/-- `STATUS` after a failure: the error's code, `BUSY` 0 and `Failed` (R23, R246). -/
theorem State.raise_statusWord {s : State} (e : ErrKind) (hp : s.pending = false) :
    (s.raise e).statusWord = (e.code.setWidth 32 <<< 4) ||| 7 := by
  rw [State.statusWord, State.raise_busy, State.raise_err, State.raise_seqState, hp]
  cases e <;> decide

/-- A state with `STATE` and `ERR` of a failure is the failure entry of itself. -/
theorem State.raise_eq_self {s : State} {e : ErrKind} (hs : s.seqState = .failed) (he : s.err = some e) :
    s.raise e = s := by
  rw [State.raise, ← hs, ← he]

/-- Settles O50: the entry itself; and a running command that fails has gone through it, since `Failed` carries an
error and is never pending, and the step of a LUT command does not fail. -/
theorem failureEntry : Obligations.FailureEntry := by
  refine ⟨fun _ _ => rfl, fun s e hp => ?_, fun _ _ _ => rfl, fun i s t hrun h hfail => ?_⟩
  · have quiet : (s.raise e).busy = false := (s.raise_busy e).trans hp
    exact ⟨State.raise_statusWord e hp, quiet, sequencerTurn_quiet quiet⟩
  · obtain ⟨hinv, hb, hd⟩ := hrun
    obtain ⟨t', ht', tinv⟩ := exec_keeps hinv hb hd
    cases h.symm.trans ht'
    obtain ⟨e, he⟩ := Option.isSome_iff_exists.mp (tinv.err_failed.mpr hfail)
    have hlut : commandClass i ≠ .lut := fun hc => by
      obtain ⟨r, rfl⟩ := exec_lut_next hc h
      cases hfail
    have hmark : t.refusalMark = s.refusalMark := (exec_mark h).resolve_right fun ⟨_, hrefused⟩ =>
      (hinv.staged hb hd).not_failed ((congrArg State.seqState hrefused).symm.trans hfail)
    have hself := State.raise_eq_self hfail he
    exact ⟨tinv.not_pending (by simp [hfail]), e, hself ▸ exec_failsWith hlut (hself.symm ▸ h) hmark⟩

end Sys2Proof.Machine
end

section
/-! PROOFS. The errors of the checks (R244, R245): which headers fail a validation and how, and which steps raise such
an error. -/

namespace Sys2Proof.Machine

open Statements

/-! ### The headers that fail -/

/-- The linear headers with half a sample in their payload (R165, R244). -/
theorem validateLin_eq_malformed_iff {h : LinearHeader} : validateLin h = .error .malformedPayload ↔
    h.formatTag = 1 ∧ h.frameBytes ≠ 0 ∧ h.dataLen.toNat % 2 = 1 := by
  rcases validateLin_cases h with ⟨-, -, heven, e⟩ | ⟨hbad, e⟩ | ⟨htag, hframe, hodd, e⟩ <;> rw [e]
  · exact ⟨nofun, fun ⟨_, _, hodd⟩ => by omega⟩
  · exact ⟨nofun, fun ⟨htag, hframe, _⟩ => (hbad.elim (absurd htag) hframe).elim⟩
  · exact ⟨fun _ => ⟨htag, hframe, by omega⟩, fun _ => rfl⟩

/-- The linear headers of another encoding (R165, R245). -/
theorem validateLin_eq_unsupported_iff {h : LinearHeader} : validateLin h = .error .unsupportedEncoding ↔
    h.formatTag ≠ 1 ∨ h.frameBytes = 0 := by
  rcases validateLin_cases h with ⟨htag, hframe, -, e⟩ | ⟨hbad, e⟩ | ⟨htag, hframe, -, e⟩ <;> rw [e]
  · exact ⟨nofun, fun hbad => (hbad.elim (absurd htag) hframe).elim⟩
  · exact ⟨fun _ => hbad, fun _ => rfl⟩
  · exact ⟨nofun, fun hbad => (hbad.elim (absurd htag) hframe).elim⟩

/-- The format tags without a law (R79, R167). -/
theorem lawOfFmt_eq_none_iff {tag : BitVec 16} : lawOfFmt tag = none ↔ tag ≠ 6 ∧ tag ≠ 7 := by
  rcases lawOfFmt_cases tag with ⟨rfl, e⟩ | ⟨rfl, e⟩ | ⟨hA, hU, e⟩ <;> rw [e]
  · exact ⟨nofun, fun ⟨hA, _⟩ => absurd rfl hA⟩
  · exact ⟨nofun, fun ⟨_, hU⟩ => absurd rfl hU⟩
  · exact ⟨fun _ => ⟨hA, hU⟩, fun _ => rfl⟩

/-- The companded headers of another encoding (R166, R245). -/
theorem validateCmp_eq_unsupported_iff {h : CompandedHeader} : validateCmp h = .error .unsupportedEncoding ↔
    h.formatTag ≠ 6 ∧ h.formatTag ≠ 7 := by
  rw [← lawOfFmt_eq_none_iff]
  rcases validateCmp_cases h with ⟨law, hl, -, -, -, e⟩ | ⟨hl, e⟩ | ⟨⟨law, hl⟩, -, e⟩ <;> simp [e, hl]

/-- The companded headers whose lengths do not agree or do not fit (R166, R244). -/
theorem validateCmp_eq_malformed_iff {h : CompandedHeader} : validateCmp h = .error .malformedPayload ↔
    (h.formatTag = 6 ∨ h.formatTag = 7) ∧
      (h.fileSize.toNat ≠ 58 + h.payloadLength ∨ h.sampleLength ≠ h.payloadLength ∨
        44 + 2 * h.payloadLength > 2 ^ 32 - 1) := by
  have law_iff : (h.formatTag = 6 ∨ h.formatTag = 7) ↔ lawOfFmt h.formatTag ≠ none := by
    rw [Ne, lawOfFmt_eq_none_iff]
    tauto
  rw [law_iff]
  rcases validateCmp_cases h with ⟨law, hl, hsize, hsample, hfit, e⟩ | ⟨hl, e⟩ | ⟨⟨law, hl⟩, hbad, e⟩ <;> rw [e]
  · exact ⟨nofun, fun ⟨_, hbad⟩ => by omega⟩
  · exact ⟨nofun, fun ⟨hlaw, _⟩ => absurd hl hlaw⟩
  · exact ⟨fun _ => ⟨by simp [hl], hbad⟩, fun _ => rfl⟩

/-! ### The steps that raise -/

/-- Command `i` is an encode of a buffer with half a sample, at its first step (R146). -/
def OddEncode (i : Instr) (s : State) : Prop :=
  ∃ law, commandClass i = .buffer law .enc ∧ s.seqState = .idle ∧ s.len.toNat % 2 = 1

/-- Command `i` is a conversion about to validate a linear header, which fails with `e` (R204). -/
def RejectsLin (e : ErrKind) (i : Instr) (s : State) : Prop :=
  ∃ law h, commandClass i = .conv (.l2c law) ∧ s.seqState = .headerRead ∧ s.srcLin = some h ∧
    validateLin h = .error e

/-- Command `i` is the conversion about to validate a companded header, which fails with `e` (R204). -/
def RejectsCmp (e : ErrKind) (i : Instr) (s : State) : Prop :=
  ∃ h, commandClass i = .conv .c2l ∧ s.seqState = .headerRead ∧ s.srcCmp = some h ∧ validateCmp h = .error e

section
variable {i : Instr} {s t : State} {e : ErrKind}

/-- An error of a validation is not the one another check could raise. -/
theorem ValidationError.not_raised {k : ErrKind} (hv : ValidationError e) (he : t.err = some e)
    (herr : t.err = s.err ∨ t.err = some k) (hk : k ≠ .unsupportedEncoding ∧ k ≠ .malformedPayload) :
    t.err = s.err := by
  refine herr.resolve_right fun hother => ?_
  cases he.symm.trans hother
  exact hv.elim hk.1 hk.2

/-- Of those errors a buffer command raises `MalformedPayload` alone, at its first step and for an odd length: the
codec step, at its turn, has an even one (R146, R202). -/
theorem bufferCommand_raises {law : Law} {dir : Dir} (hs : Staged (.buffer law dir) s)
    (h : bufferCommand law dir s = .next t) (hv : ValidationError e) (he : t.err = some e)
    (raised : t.err ≠ s.err) :
    e = .malformedPayload ∧ dir = .enc ∧ s.seqState = .idle ∧ s.len.toNat % 2 = 1 := by
  unfold bufferCommand at h
  cases hst : s.seqState <;> simp only [Staged, hst] at h hs
  case idle =>
    split at h
    · rcases bufferFirstStep_cases law dir s with ⟨hd, hodd, e'⟩ | ⟨-, -, e'⟩ | ⟨-, -, e'⟩
      · cases e'.symm.trans h
        exact ⟨(Option.some.inj he).symm, hd, rfl, by omega⟩
      · cases e'.symm.trans h
        exact absurd rfl raised
      · have herr := (readPayload_effect (e'.symm.trans h) rfl rfl).2
        exact absurd (hv.not_raised he herr (by decide)) raised
    · cases h
  case payloadRead =>
    obtain ⟨-, hlen, heven⟩ := hs
    obtain ⟨hd, hodd⟩ := (transformStep_effect h).2.2.resolve_left raised
    exact absurd (hlen ▸ heven hd) hodd
  case payloadTransformed =>
    have herr := (emit_wrote h rfl rfl rfl).err
    exact absurd (hv.not_raised he herr (by decide)) raised
  case written =>
    cases h
    exact absurd rfl raised

/-- A conversion raises them for its header alone, in the step that leaves `HeaderRead` (R204). -/
theorem exec_conv_raises {kind : ConvKind} (hc : commandClass i = .conv kind) (hs : Staged (.conv kind) s)
    (h : exec i s = .next t) (hv : ValidationError e) (he : t.err = some e) (raised : t.err ≠ s.err) :
    RejectsLin e i s ∨ RejectsCmp e i s := by
  have effect := convCommand_effect (exec_of_conv hc s ▸ h)
  cases hst : s.seqState <;> simp only [Staged, ConvEffect, hst] at hs effect
  case idle =>
    rcases effect.2.resolve_left raised with herr | ⟨herr, -⟩ <;>
      exact absurd (hv.not_raised he (.inr herr) (by decide)) raised
  case headerRead =>
    cases kind with
    | l2c law =>
      obtain ⟨-, r, hr, -⟩ := hs
      cases hval : validateLin r with
      | error e' =>
        cases (exec_conv_invalidLin hc hst hr hval).symm.trans h
        cases he
        exact .inl ⟨law, r, hc, hst, hr, hval⟩
      | ok L =>
        have herr := (convPayload_effect ((exec_conv_validLin hc hst hr hval).symm.trans h)).2
        exact absurd (hv.not_raised he herr (by decide)) raised
    | c2l =>
      obtain ⟨r, hr, -⟩ := hs
      cases hval : validateCmp r with
      | error e' =>
        cases (exec_conv_invalidCmp hc hst hr hval).symm.trans h
        cases he
        exact .inr ⟨r, hc, hst, hr, hval⟩
      | ok p =>
        have herr := (convPayload_effect ((exec_conv_validCmp hc hst hr hval).symm.trans h)).2
        exact absurd (hv.not_raised he herr (by decide)) raised
  case payloadRead =>
    obtain ⟨_, -, wrote⟩ := effect
    exact absurd (hv.not_raised he wrote.err (by decide)) raised
  case headerDerived =>
    obtain ⟨-, hlen, heven⟩ := hs
    obtain ⟨hd, hodd⟩ := effect.2.2.resolve_left raised
    exact absurd (hlen ▸ heven hd) hodd
  case payloadTransformed => exact absurd (hv.not_raised he effect.err (by decide)) raised
  case written => exact absurd effect.2.2 raised

/-- A running command raises `MalformedPayload` or `UnsupportedEncoding` in its first checks alone: the parity of an
encode's length, and the validation of a conversion's header (R244, R245). -/
theorem exec_raises_iff (hrun : Running i s) (hv : ValidationError e) :
    (∃ t, exec i s = .next t ∧ t.err = some e) ↔
      (e = .malformedPayload ∧ OddEncode i s) ∨ RejectsLin e i s ∨ RejectsCmp e i s := by
  obtain ⟨hinv, hb, hd⟩ := hrun
  constructor
  · rintro ⟨t, h, he⟩
    have staged := hinv.staged hb hd
    have raised : t.err ≠ s.err := by simp [he, hinv.busy_err hb]
    cases hc : commandClass i with
    | lut =>
      obtain ⟨r, rfl⟩ := exec_lut_next hc h
      exact absurd rfl raised
    | buffer law dir =>
      obtain ⟨rfl, rfl, hst, hodd⟩ := bufferCommand_raises (hc ▸ staged) (exec_of_buffer hc s ▸ h) hv he raised
      exact .inl ⟨rfl, law, hc, hst, hodd⟩
    | conv kind => exact .inr (exec_conv_raises hc (hc ▸ staged) h hv he raised)
  · rintro (⟨rfl, law, hc, hst, hodd⟩ | ⟨law, r, hc, hst, hr, hval⟩ | ⟨r, hc, hst, hr, hval⟩)
    · exact ⟨_, (exec_buffer_atStart hc ⟨hst, pending_of_busy hb hst⟩).trans (bufferFirstStep_odd rfl (by omega)), rfl⟩
    · exact ⟨_, exec_conv_invalidLin hc hst hr hval, rfl⟩
    · exact ⟨_, exec_conv_invalidCmp hc hst hr hval, rfl⟩

end

/-- Settles O51: the checks of the first steps, and which headers fail a validation with this error. -/
theorem malformedPayloadCases : Obligations.MalformedPayloadCases := by
  intro i s hrun
  rw [exec_raises_iff hrun (.inr rfl)]
  simp only [true_and, OddEncode, RejectsLin, RejectsCmp, validateLin_eq_malformed_iff, validateCmp_eq_malformed_iff]

/-- Settles O52: likewise; the parity check raises another error. -/
theorem unsupportedEncodingCases : Obligations.UnsupportedEncodingCases := by
  intro i s hrun
  rw [exec_raises_iff hrun (.inl rfl)]
  simp only [reduceCtorEq, false_and, false_or, RejectsLin, RejectsCmp, validateLin_eq_unsupported_iff,
    validateCmp_eq_unsupported_iff]

end Sys2Proof.Machine
end

section
/-! PROOFS. The refusals of every step (R252): the requests at the port, and the sequencer's payload beyond the
capacity. -/

namespace Sys2Proof.Machine

open Statements

/-! ### The refusals of the port -/

section
variable {s : State} {off : Nat} {v : Word}

/-- A write R252 lists is refused. -/
theorem State.portWrite_refused (h : RefusedRequest s (.write off v)) : s.portWrite off v = s.refuse := by
  rcases h with hoff | hb | ⟨rfl, hd⟩
  · exact s.portWrite_not_writable v hoff
  · exact s.portWrite_busy off v hb
  · exact State.portWrite_cmd_reserved hd

/-- A write R252 does not list leaves the mark alone. -/
theorem State.portWrite_mark (h : ¬ RefusedRequest s (.write off v)) :
    (s.portWrite off v).refusalMark = s.refusalMark := by
  simp only [RefusedRequest, not_or, not_and, not_forall, not_not, Bool.not_eq_true] at h
  obtain ⟨hoff, hb, hcode⟩ := h
  simp only [List.mem_cons, List.not_mem_nil, or_false] at hoff
  rcases hoff with rfl | rfl | rfl
  · obtain ⟨i, hd⟩ := hcode rfl
    rw [State.portWrite_cmd hb hd, State.accept_refusalMark]
  · rw [State.portWrite_din hb]
  · rw [State.portWrite_len hb]

/-- A read is refused exactly where R252 lists it. -/
theorem State.portRead_mark_iff (hm : s.refusalMark = false) :
    (s.portRead off).refusalMark = true ↔ RefusedRequest s (.read off) := by
  rcases s.portRead_cases off with ⟨r, hr, e⟩ | ⟨hr, e⟩ <;> rw [e]
  · obtain rfl := Reg.ofOffset_eq_some.mp hr
    have listed : r.offset ∈ [0x00, 0x04, 0x08, 0x0C, 0x10] := by cases r <;> decide
    exact ⟨fun h => by simp [hm] at h, fun h => absurd listed h⟩
  · have registers : ∀ o ∈ [0x00, 0x04, 0x08, 0x0C, 0x10], Reg.ofOffset o ≠ none := by decide
    exact ⟨fun _ hmem => registers off hmem hr, fun _ => rfl⟩

end

/-! ### The refusals of a step -/

/-- The sequencer cannot take the payload of the command it runs (R252 d). -/
def CapacityExceeded (s : State) : Prop := s.busy = true ∧ ∃ i, decode s.acmd = .ok i ∧ BeyondCapacity i s

/-- The host program is no part of what the sequencer is refused for. -/
theorem capacityExceeded_withScript {s : State} {r : List HostAction} :
    CapacityExceeded { s with script := r } ↔ CapacityExceeded s := Iff.rfl

/-- The host program is no part of what a request is refused for. -/
theorem refusedRequest_withScript {s : State} {r : List HostAction} {a : HostAction} :
    RefusedRequest { s with script := r } a ↔ RefusedRequest s a := by
  cases a <;> exact Iff.rfl

section
variable {i : Instr} {s t : State}

/-- A payload beyond the capacity is refused (R58, R252 d). -/
theorem exec_oversize (hb : s.busy = true) (h : BeyondCapacity i s) : exec i s = .next s.refuse := by
  obtain ⟨n, ⟨law, dir, hc, hst, rfl, heven⟩ | ⟨law, h, hc, hst, hr, hv⟩ | ⟨h, law, hc, hst, hr, hv⟩, hcap⟩ := h
  · exact (exec_buffer_atStart hc ⟨hst, pending_of_busy hb hst⟩).trans (bufferFirstStep_oversize heven hcap)
  · exact (exec_conv_validLin hc hst hr hv).trans (convPayload_oversize hcap)
  · exact (exec_conv_validCmp hc hst hr hv).trans (convPayload_oversize hcap)

/-- The sequencer's turn sets the mark exactly where the payload is beyond the capacity. -/
theorem sequencerTurn_mark (h : sequencerTurn s = .next t) :
    (s.refusalMark = true → t.refusalMark = true) ∧
    (s.refusalMark = false → (t.refusalMark = true ↔ CapacityExceeded s)) := by
  cases hb : s.busy with
  | false =>
    cases (sequencerTurn_quiet hb).symm.trans h
    exact ⟨id, fun hm => by simp [hm, CapacityExceeded, hb]⟩
  | true =>
    cases hd : decode s.acmd with
    | error e => simp [sequencerTurn, sequencerStep, hb, hd] at h
    | ok i =>
      have hx : exec i s = .next t := (sequencerTurn_busy hb hd).symm.trans h
      refine ⟨(exec_frame hx).1.refusalMark, fun hm => ⟨fun ht => ?_, ?_⟩⟩
      · have changed : t.refusalMark ≠ s.refusalMark := by simp [ht, hm]
        exact ⟨hb, i, hd, ((exec_mark hx).resolve_left changed).1⟩
      · rintro ⟨-, j, hj, hcap⟩
        cases hd.symm.trans hj
        cases (exec_oversize hb hcap).symm.trans hx
        rfl

/-- The refusals of a host action: its own, and where it gives the sequencer the turn, the sequencer's. -/
theorem hostAction_mark {a : HostAction} (h : hostAction a s = .next t) :
    (s.refusalMark = true → t.refusalMark = true) ∧
    (s.refusalMark = false → (t.refusalMark = true ↔
      RefusedRequest s a ∨ ((a = .wait ∨ a = .letStep) ∧ CapacityExceeded s))) := by
  cases a with
  | write off v =>
    cases h
    by_cases hreq : RefusedRequest s (.write off v)
    · rw [State.portWrite_refused hreq]
      exact ⟨fun _ => rfl, fun _ => ⟨fun _ => .inl hreq, fun _ => rfl⟩⟩
    · rw [State.portWrite_mark hreq]
      exact ⟨id, fun hm => by simp [hm, hreq]⟩
  | read off =>
    cases h
    refine ⟨fun hm => ?_, fun hm => by simpa using State.portRead_mark_iff hm⟩
    rcases s.portRead_cases off with ⟨r, -, e⟩ | ⟨-, e⟩ <;> rw [e]
    · exact hm
    · rfl
  | wait =>
    cases hb : s.busy with
    | false =>
      cases (hostAction_wait_quiet hb).symm.trans h
      exact ⟨id, fun hm => by simp [hm, CapacityExceeded, RefusedRequest, hb]⟩
    | true =>
      have turn := sequencerTurn_mark ((hostAction_wait_busy hb).symm.trans h)
      rw [capacityExceeded_withScript] at turn
      exact ⟨turn.1, fun hm => by simpa [RefusedRequest] using turn.2 hm⟩
  | letStep =>
    have turn := sequencerTurn_mark h
    exact ⟨turn.1, fun hm => by simpa [RefusedRequest] using turn.2 hm⟩
  | source | seek | answer | holdReads | inspectSink | reset =>
    cases h
    exact ⟨id, fun hm => by simp [hm, RefusedRequest]⟩

/-- The refusals of a step: the host's listed requests, and a payload beyond the capacity where the sequencer moves. -/
theorem step_mark (h : step s = .next t) :
    (s.refusalMark = true → t.refusalMark = true) ∧
    (s.refusalMark = false → (t.refusalMark = true ↔
      (∃ a rest, s.script = a :: rest ∧ RefusedRequest s a) ∨
      (SequencerMoves s ∧ ∃ i, decode s.acmd = .ok i ∧ BeyondCapacity i s))) := by
  cases hs : s.script with
  | nil =>
    have turn := sequencerTurn_mark ((step_sequencer hs).symm.trans h)
    exact ⟨turn.1, fun hm => by simpa [SequencerMoves, hs, CapacityExceeded] using turn.2 hm⟩
  | cons a rest =>
    have action := hostAction_mark ((step_host hs).symm.trans h)
    rw [refusedRequest_withScript, capacityExceeded_withScript] at action
    refine ⟨action.1, fun hm => (action.2 hm).trans ?_⟩
    simp [SequencerMoves, hs, CapacityExceeded, and_assoc, and_left_comm]

end

/-- Settles O58: the refusals of a step, which need nothing of the invariant. -/
theorem refusalsAreExactlyTheListed : Obligations.RefusalsAreExactlyTheListed :=
  ⟨fun _ _ h => (step_mark h).1, fun _ _ _ hm h => (step_mark h).2 hm⟩

end Sys2Proof.Machine
end

section
/-! PROOFS. The wait for a request the host does not answer (R253, R283). -/

namespace Sys2Proof.Machine

open Statements

section
variable {i : Instr} {s : State}

/-- A payload within the capacity waits where the host withholds its reads (R146, R204, R253). -/
theorem exec_payload_held {n : Nat} (hb : s.busy = true) (h : PayloadDue i s n) (hcap : n ≤ s.maxPayloadBytes.val)
    (hh : s.sourceHeld = true) : exec i s = .next s := by
  rcases h with ⟨law, dir, hc, hst, rfl, heven⟩ | ⟨law, h, hc, hst, hr, hv⟩ | ⟨h, law, hc, hst, hr, hv⟩
  · exact (exec_buffer_atStart hc ⟨hst, pending_of_busy hb hst⟩).trans
      ((bufferFirstStep_read heven hcap).trans (readPayload_held hh))
  · exact (exec_conv_validLin hc hst hr hv).trans ((convPayload_read hcap).trans (readPayload_held hh))
  · exact (exec_conv_validCmp hc hst hr hv).trans ((convPayload_read hcap).trans (readPayload_held hh))

/-- A header write without an answer takes no step (R205, R283). -/
theorem exec_conv_headerWrite_waiting {kind : ConvKind} (hc : commandClass i = .conv kind)
    (hs : s.seqState = .payloadRead) (hv : Validated kind s) (ha : s.answers = []) : exec i s = .next s := by
  cases kind with
  | l2c law =>
    obtain ⟨hl, r, hr, -⟩ := hv
    exact (exec_conv_emitCmp hc hs hr hl).trans (emit_waiting ha)
  | c2l =>
    obtain ⟨r, -, hr, -⟩ := hv
    exact (exec_conv_emitLin hc hs hr).trans (emit_waiting ha)

/-- A running command whose next request has no answer takes no step (R253, R283). -/
theorem exec_waiting (hrun : Running i s) (hw : AwaitsHost i s) : exec i s = .next s := by
  obtain ⟨hinv, hb, hd⟩ := hrun
  rcases hw with ⟨⟨kind, hc, hst⟩ | ⟨n, hdue, hcap⟩, hh⟩ | ⟨⟨kind, hc, hst⟩ | ⟨hc, hst⟩, ha⟩
  · exact (exec_conv_atStart hc ⟨hst, pending_of_busy hb hst⟩).trans (convReadHeader_held hh)
  · exact exec_payload_held hb hdue hcap hh
  · have staged := hinv.staged hb hd
    simp only [hc, Staged, hst] at staged
    exact exec_conv_headerWrite_waiting hc hst staged.1 ha
  · exact (exec_payloadTransformed hc hst).trans (emit_waiting ha)

/-- The sequencer waits in `s`: it has a command to run, whose next request has no answer. -/
def Waiting (i : Instr) (s : State) : Prop := Running i s ∧ AwaitsHost i s

/-- The sequencer's turn leaves a waiting block as it is. -/
theorem Waiting.sequencerTurn_eq (h : Waiting i s) : sequencerTurn s = .next s := by
  obtain ⟨hrun, hw⟩ := h
  exact (sequencerTurn_busy hrun.2.1 hrun.2.2).trans (exec_waiting hrun hw)

/-- The host program is no part of the wait. -/
theorem Waiting.withScript (h : Waiting i s) (r : List HostAction) : Waiting i { s with script := r } :=
  ⟨⟨h.1.1.withScript r, h.1.2⟩, h.2⟩

/-- With the host program over the block stays in a state in which it waits. -/
theorem Waiting.runsTo_self (h : Waiting i s) (hs : s.script = []) (k : Nat) : runsTo k s s := by
  induction k with
  | zero => rfl
  | succ k ih => exact (run_succ ((step_sequencer hs).trans h.sequencerTurn_eq)).trans ih

/-- No action but an answer, a change of `holdReads` or a reset ends the wait: the block still waits, and `STATUS`
reads as before. -/
theorem Waiting.after_hostAction (h : Waiting i s) {a : HostAction} (hreset : a ≠ .reset)
    (hanswer : ∀ w, a ≠ .answer w) (hholds : ∀ held, a ≠ .holdReads held) :
    ∃ t, hostAction a s = .next t ∧ Waiting i t ∧ t.statusWord = s.statusWord := by
  obtain ⟨hrun, hw⟩ := h
  obtain ⟨t, e, tinv⟩ := hostAction_keeps hrun.1 a
  refine ⟨t, e, ?_⟩
  cases a with
  | write off v =>
    rw [hostAction, s.portWrite_busy off v hrun.2.1] at e
    cases e
    exact ⟨⟨⟨tinv, hrun.2⟩, hw⟩, rfl⟩
  | read off =>
    rcases s.portRead_cases off with ⟨r, -, er⟩ | ⟨-, er⟩ <;> rw [hostAction, er] at e <;> cases e <;>
      exact ⟨⟨⟨tinv, hrun.2⟩, hw⟩, rfl⟩
  | wait =>
    have waits : Waiting i { s with script := .wait :: s.script } := Waiting.withScript ⟨hrun, hw⟩ _
    cases ((hostAction_wait_busy hrun.2.1).trans waits.sequencerTurn_eq).symm.trans e
    exact ⟨waits, rfl⟩
  | letStep =>
    cases (Waiting.sequencerTurn_eq ⟨hrun, hw⟩).symm.trans e
    exact ⟨⟨hrun, hw⟩, rfl⟩
  | source | seek | inspectSink =>
    cases e
    exact ⟨⟨⟨tinv, hrun.2⟩, hw⟩, rfl⟩
  | answer w => exact absurd rfl (hanswer w)
  | holdReads held => exact absurd rfl (hholds held)
  | reset => exact absurd rfl hreset

end

/-- Settles O60: the wait itself, and the actions that do not end it. -/
theorem unansweredRequestsWait : Obligations.UnansweredRequestsWait := by
  intro i s hrun hw _
  have waits : Waiting i s := ⟨hrun, hw⟩
  refine ⟨exec_waiting hrun hw, (s.statusWord_getLsbD 3).trans hrun.2.1, waits.runsTo_self, fun hact => ?_⟩
  cases hs : s.script with
  | nil => exact ⟨s, (step_sequencer hs).trans waits.sequencerTurn_eq, hrun, hw, rfl⟩
  | cons a rest =>
    obtain ⟨hreset, hanswer, hholds⟩ := hact a (by rw [hs]; rfl)
    obtain ⟨t, e, ⟨trun, tw⟩, hstatus⟩ := (waits.withScript rest).after_hostAction hreset hanswer hholds
    exact ⟨t, (step_host hs).trans e, trun, tw, hstatus⟩

end Sys2Proof.Machine
end

section
/-! PROOFS. Reset as a step (R270 to R272), and the operands while the block is busy (R280, R281). -/

namespace Sys2Proof.Machine

/-- Settles O4: the step of a reset is `State.resetBlock`, and its laws are the clauses. -/
theorem hostResetSetsTheBlockAndNothingElse : Obligations.HostResetSetsTheBlockAndNothingElse := by
  intro s rest hs
  refine ⟨({ s with script := rest } : State).resetBlock, step_host hs, ?_⟩
  simp

/-- `t` has the operands of `s`, and the command they are for (R281). -/
def SameOperands (s t : State) : Prop := t.din = s.din ∧ t.len = s.len ∧ t.acmd = s.acmd

section
variable {s t : State}

/-- The sequencer's turn changes no operand. -/
theorem sequencerTurn_sameOperands (hb : s.busy = true) (h : sequencerTurn s = .next t) : SameOperands s t := by
  cases hd : decode s.acmd with
  | ok i =>
    have f := (exec_frame ((sequencerTurn_busy hb hd).symm.trans h)).1
    exact ⟨f.din, f.len, f.acmd⟩
  | error e => simp [sequencerTurn, sequencerStep, hb, hd] at h

/-- Nor does an action of the host but a reset, while the block is busy: every write is refused (R281). -/
theorem hostAction_sameOperands {a : HostAction} (hb : s.busy = true) (ha : a ≠ .reset)
    (h : hostAction a s = .next t) : SameOperands s t := by
  cases a with
  | write off v =>
    rw [hostAction, s.portWrite_busy off v hb] at h
    cases h
    exact ⟨rfl, rfl, rfl⟩
  | read off =>
    rcases s.portRead_cases off with ⟨r, -, e⟩ | ⟨-, e⟩ <;> rw [hostAction, e] at h <;> cases h <;>
      exact ⟨rfl, rfl, rfl⟩
  | wait =>
    exact sequencerTurn_sameOperands (s := { s with script := .wait :: s.script }) hb
      ((hostAction_wait_busy hb).symm.trans h)
  | letStep => exact sequencerTurn_sameOperands hb h
  | source | seek | answer | holdReads | inspectSink =>
    cases h
    exact ⟨rfl, rfl, rfl⟩
  | reset => exact absurd rfl ha

end

/-- Settles O56: the sequencer's turn, and the host's actions but a reset. -/
theorem operandsAreStableWhileBusy : Obligations.OperandsAreStableWhileBusy := by
  intro s t _ hb hreset h
  cases hs : s.script with
  | nil => exact sequencerTurn_sameOperands hb ((step_sequencer hs).symm.trans h)
  | cons a rest =>
    have ha : a ≠ .reset := by rintro rfl; exact hreset (by rw [hs]; rfl)
    exact hostAction_sameOperands (s := { s with script := rest }) hb ha ((step_host hs).symm.trans h)

end Sys2Proof.Machine
end

section
/-! PROOFS. The bound on a command's steps (R285): while the host answers, a step that neither fails nor is refused
enters the next state of the command's path, of which there are as many as the class's bound. -/

namespace Sys2Proof.Machine

open Statements

/-! ### What is left of a command -/

/-- The steps a command of the class still takes from a state of its path (R110, R146, R200). -/
def CommandClass.stepsLeft : CommandClass → SeqState → Nat
  | c, .idle => stepBound c
  | _, .headerRead => 5
  | .conv _, .payloadRead => 4
  | _, .payloadRead | _, .headerDerived => 3
  | _, .payloadTransformed => 2
  | _, .written => 1
  | _, .done | _, .failed => 0

/-- The most `WriteAll` answers a command still takes: two until the header is written, one until the payload is
(R205, R206). -/
def SeqState.writesLeft : SeqState → Nat
  | .idle | .headerRead | .payloadRead => 2
  | .headerDerived | .payloadTransformed => 1
  | .written | .done | .failed => 0

/-! ### The states a step enters -/

/-- A step from `s` to `t` that fails, is refused, or enters `st` with `used` answers to `WriteAll` taken. -/
def Enters (st : SeqState) (used : Nat) (s t : State) : Prop :=
  t.seqState = .failed ∨ t = s.refuse ∨ (t.seqState = st ∧ t.answers.length + used = s.answers.length)

section
variable {s s' t : State}

/-- A payload read the host answers enters `PayloadRead` (R146, R204). -/
theorem readPayload_enters {n : Nat} (h : readPayload n s s' = .next t) (hheld : s'.sourceHeld = false)
    (ha : s'.answers = s.answers) : Enters .payloadRead 0 s t := by
  rcases readPayload_cases n s s' with ⟨hh, -⟩ | ⟨-, -, e⟩ | ⟨-, -, e⟩
  · simp [hheld] at hh
  · cases e.symm.trans h
    exact .inr (.inr ⟨rfl, congrArg List.length ha⟩)
  · cases e.symm.trans h
    exact .inl rfl

/-- A write the host answers takes one answer (R56). -/
theorem emit_enters {bs : List Byte} {onOk : SeqState} (h : emit bs onOk s s' = .next t)
    (hanswered : 0 < s.answers.length) (ha : s'.answers = s.answers) : Enters onOk 1 s t := by
  rw [← ha] at hanswered
  rcases emit_cases bs onOk s s' with ⟨hn, -⟩ | ⟨rest, hr, e⟩ | ⟨k, rest, -, e⟩
  · simp [hn] at hanswered
  · cases e.symm.trans h
    exact .inr (.inr ⟨rfl, by rw [← ha, hr]; rfl⟩)
  · cases e.symm.trans h
    exact .inl rfl

/-- The codec step enters `PayloadTransformed` (R146, R206). -/
theorem transformStep_enters {law : Law} {dir : Dir} (h : transformStep law dir s = .next t) :
    Enters .payloadTransformed 0 s t := by
  rcases transformStep_cases law dir s with ⟨O, -, e⟩ | ⟨-, -, e⟩ <;> cases e.symm.trans h
  · exact .inr (.inr ⟨rfl, rfl⟩)
  · exact .inl rfl

/-- The first step of a buffer command enters `PayloadRead` (R146). -/
theorem bufferFirstStep_enters {law : Law} {dir : Dir} (h : bufferFirstStep law dir s = .next t)
    (hheld : s.sourceHeld = false) : Enters .payloadRead 0 s t := by
  rcases bufferFirstStep_cases law dir s with ⟨-, -, e⟩ | ⟨-, -, e⟩ | ⟨-, -, e⟩
  · cases e.symm.trans h
    exact .inl rfl
  · cases e.symm.trans h
    exact .inr (.inl rfl)
  · exact readPayload_enters (e.symm.trans h) hheld rfl

/-- A header read the host answers enters `HeaderRead` (R203). -/
theorem convReadHeader_enters {kind : ConvKind} (h : convReadHeader kind s = .next t)
    (hheld : s.sourceHeld = false) : Enters .headerRead 0 s t := by
  cases kind with
  | l2c law =>
    rcases convReadHeader_l2c_cases law s with ⟨hh, -⟩ | ⟨-, -, e⟩ | ⟨-, -, -, e⟩ | ⟨-, -, -, e⟩
    · simp [hheld] at hh
    all_goals cases e.symm.trans h
    · exact .inl rfl
    · exact .inl rfl
    · exact .inr (.inr ⟨rfl, rfl⟩)
  | c2l =>
    rcases convReadHeader_c2l_cases s with ⟨hh, -⟩ | ⟨-, -, e⟩ | ⟨-, -, -, e⟩ | ⟨-, -, -, e⟩
    · simp [hheld] at hh
    all_goals cases e.symm.trans h
    · exact .inl rfl
    · exact .inl rfl
    · exact .inr (.inr ⟨rfl, rfl⟩)

/-- Past validation the payload step enters `PayloadRead` (R204). -/
theorem convPayload_enters {law : Option Law} {n : Nat} (h : convPayload law n s = .next t)
    (hheld : s.sourceHeld = false) : Enters .payloadRead 0 s t := by
  rcases convPayload_cases law n s with ⟨-, e⟩ | ⟨-, e⟩
  · cases e.symm.trans h
    exact .inr (.inl rfl)
  · exact readPayload_enters (e.symm.trans h) hheld rfl

/-- The payload step of a conversion enters `PayloadRead` (R204). -/
theorem convReadPayload_enters {kind : ConvKind} (h : convReadPayload kind s = .next t)
    (hheld : s.sourceHeld = false) : Enters .payloadRead 0 s t := by
  cases kind with
  | l2c law =>
    cases hr : s.srcLin with
    | none => simp [convReadPayload, hr] at h
    | some r =>
      rw [convReadPayload_l2c hr] at h
      split at h
      · cases h
        exact .inl rfl
      · exact convPayload_enters h hheld
  | c2l =>
    cases hr : s.srcCmp with
    | none => simp [convReadPayload, hr] at h
    | some r =>
      rw [convReadPayload_c2l hr] at h
      split at h
      · cases h
        exact .inl rfl
      · exact convPayload_enters h hheld

/-- The header write of a conversion enters `HeaderDerived` (R205). -/
theorem convEmitHeader_enters {kind : ConvKind} (h : convEmitHeader kind s = .next t)
    (hanswered : 0 < s.answers.length) : Enters .headerDerived 1 s t := by
  cases kind with
  | l2c _ =>
    cases hr : s.srcLin with
    | none => simp [convEmitHeader, hr] at h
    | some r =>
      cases hl : s.law with
      | none => simp [convEmitHeader, hr, hl] at h
      | some law => exact emit_enters ((convEmitHeader_l2c hr hl).symm.trans h) hanswered rfl
  | c2l =>
    cases hr : s.srcCmp with
    | none => simp [convEmitHeader, hr] at h
    | some r => exact emit_enters ((convEmitHeader_c2l hr).symm.trans h) hanswered rfl

/-- The codec step of a conversion (R206). -/
theorem convTransform_enters {kind : ConvKind} (h : convTransform kind s = .next t) :
    Enters .payloadTransformed 0 s t := by
  cases hl : s.law with
  | none => simp [convTransform, hl] at h
  | some law => exact transformStep_enters ((convTransform_eq hl).symm.trans h)

/-- The completion enters `Done` (R146, R206). -/
theorem finishStep_enters (h : finishStep s = .next t) : Enters .done 0 s t := by
  cases h
  exact .inr (.inr ⟨rfl, rfl⟩)

/-- The one step of a LUT command enters `Done` (R110). -/
theorem lutStep_enters {r : Sample} (h : lutStep r s = .next t) : Enters .done 0 s t := by
  obtain ⟨-, rfl⟩ := lutStep_next h
  exact .inr (.inr ⟨rfl, rfl⟩)

/-! ### One step nearer the end -/

/-- A step that fails, is refused, or leaves a command of the class one step fewer, with answers enough. -/
def Advances (c : CommandClass) (s t : State) : Prop :=
  t.seqState = .failed ∨ t = s.refuse ∨
    (t.seqState ≠ .idle ∧ c.stepsLeft s.seqState = c.stepsLeft t.seqState + 1 ∧
      t.seqState.writesLeft ≤ t.answers.length)

/-- Entering the next state of the path is such a step. -/
theorem Enters.advances {c : CommandClass} {cur st : SeqState} {used : Nat} (h : Enters st used s t)
    (hcur : s.seqState = cur) (hw : cur.writesLeft ≤ s.answers.length)
    (hsteps : c.stepsLeft cur = c.stepsLeft st + 1) (hnext : st ≠ .idle ∧ st.writesLeft + used ≤ cur.writesLeft) :
    Advances c s t := by
  rcases h with hfail | hrefuse | ⟨rfl, hused⟩
  · exact .inl hfail
  · exact .inr (.inl hrefuse)
  · exact .inr (.inr ⟨hnext.1, hcur ▸ hsteps, by omega⟩)

theorem bufferCommand_advances {law : Law} {dir : Dir} (h : bufferCommand law dir s = .next t)
    (hheld : s.sourceHeld = false) (hw : s.seqState.writesLeft ≤ s.answers.length) :
    Advances (.buffer law dir) s t := by
  unfold bufferCommand at h
  cases hst : s.seqState <;> simp only [hst] at h <;> rw [hst] at hw
  case idle =>
    split at h
    · exact (bufferFirstStep_enters h hheld).advances hst hw rfl (by decide)
    · cases h
  case payloadRead => exact (transformStep_enters h).advances hst hw rfl (by decide)
  case payloadTransformed => exact (emit_enters h hw rfl).advances hst hw rfl (by decide)
  case written => exact (finishStep_enters h).advances hst hw rfl (by decide)
  all_goals cases h

theorem convCommand_advances {kind : ConvKind} (h : convCommand kind s = .next t)
    (hheld : s.sourceHeld = false) (hw : s.seqState.writesLeft ≤ s.answers.length) :
    Advances (.conv kind) s t := by
  unfold convCommand at h
  cases hst : s.seqState <;> simp only [hst] at h <;> rw [hst] at hw
  case idle =>
    split at h
    · exact (convReadHeader_enters h hheld).advances hst hw rfl (by decide)
    · cases h
  case headerRead => exact (convReadPayload_enters h hheld).advances hst hw rfl (by decide)
  case payloadRead => exact (convEmitHeader_enters h (Nat.le_of_succ_le hw)).advances hst hw rfl (by decide)
  case headerDerived => exact (convTransform_enters h).advances hst hw rfl (by decide)
  case payloadTransformed => exact (emit_enters h hw rfl).advances hst hw rfl (by decide)
  case written => exact (finishStep_enters h).advances hst hw rfl (by decide)
  all_goals cases h

variable {i : Instr}

/-- While the host answers, every step of a command advances it. -/
theorem exec_advances (h : exec i s = .next t) (hheld : s.sourceHeld = false)
    (hw : s.seqState.writesLeft ≤ s.answers.length) : Advances (commandClass i) s t := by
  cases hc : commandClass i with
  | lut =>
    obtain ⟨f, hf⟩ := exec_of_lut hc
    have hlut := (hf s).symm.trans h
    obtain ⟨⟨hst, -⟩, -⟩ := lutStep_next hlut
    exact (lutStep_enters hlut).advances hst (hst ▸ hw) rfl (by decide)
  | buffer law dir => exact bufferCommand_advances (exec_of_buffer hc s ▸ h) hheld hw
  | conv kind => exact convCommand_advances (exec_of_conv hc s ▸ h) hheld hw

/-! ### The run to the end -/

/-- The command has ended, or its payload's length has been refused and the block is stuck (R252, R285). -/
def Stopped (t : State) : Prop :=
  t.seqState = .done ∨ t.seqState = .failed ∨ (t.refusalMark = true ∧ t.busy = true)

/-- The block runs `i` with every turn the sequencer's, and the host has an answer to each request to come. -/
structure Served (i : Instr) (s : State) : Prop where
  running : Running i s
  alone : SequencerAlone i s
  reads : s.sourceHeld = false
  writes : s.seqState.writesLeft ≤ s.answers.length

/-- A state other than `Idle` that is no end of a command is a running one (R26). -/
theorem SeqState.running_of_midway {st : SeqState} (hidle : st ≠ .idle) (hdone : st ≠ .done)
    (hfailed : st ≠ .failed) : st.running = true := by
  cases st with
  | idle => exact absurd rfl hidle
  | done => exact absurd rfl hdone
  | failed => exact absurd rfl hfailed
  | headerRead | payloadRead | headerDerived | payloadTransformed | written => rfl

/-- Each step of a served command stops it, or leaves it served with one step fewer to go. -/
theorem Served.step_advances (h : Served i s) : ∃ t, step s = .next t ∧
    (Stopped t ∨ (Served i t ∧
      (commandClass i).stepsLeft s.seqState = (commandClass i).stepsLeft t.seqState + 1)) := by
  obtain ⟨⟨hinv, hb, hd⟩, hrun, hheld, hw⟩ := h
  obtain ⟨t, e, tinv⟩ := exec_keeps hinv hb hd
  refine ⟨t, (step_sequencerAlone hrun hb).trans e, ?_⟩
  rcases exec_advances e hheld hw with hfail | rfl | ⟨hidle, hsteps, hwrites⟩
  · exact .inl (.inr (.inl hfail))
  · exact .inl (.inr (.inr ⟨rfl, hb⟩))
  · by_cases hstop : Stopped t
    · exact .inl hstop
    · simp only [Stopped, not_or, not_and', Bool.not_eq_true] at hstop
      obtain ⟨hdone, hfailed, hmark⟩ := hstop
      have tb : t.busy = true := busy_of_running (SeqState.running_of_midway hidle hdone hfailed)
      have f := (exec_frame e).1
      have td : decode t.acmd = .ok i := f.acmd ▸ hd
      have ⟨_, hscript, _⟩ := hrun
      have alone : SequencerAlone i t := ⟨hmark tb, f.script.trans hscript, td⟩
      exact .inr ⟨⟨⟨tinv, tb, td⟩, alone, f.sourceHeld.trans hheld, hwrites⟩, hsteps⟩

/-- Only at an end of a command are no steps left. -/
theorem stopped_of_stepsLeft {c : CommandClass} (h : c.stepsLeft s.seqState = 0) : Stopped s := by
  cases hst : s.seqState <;> rw [hst] at h
  case done => exact .inl hst
  case failed => exact .inr (.inl hst)
  all_goals cases c <;> cases h

/-- A served command stops within the steps it has left. -/
theorem Served.stops {n : Nat} (h : Served i s) (hn : (commandClass i).stepsLeft s.seqState ≤ n) :
    ∃ k t, k ≤ n ∧ runsTo k s t ∧ Stopped t := by
  induction n generalizing s with
  | zero => exact ⟨0, s, le_rfl, rfl, stopped_of_stepsLeft (Nat.le_zero.mp hn)⟩
  | succ n ih =>
    obtain ⟨t, e, hstop | ⟨served, hsteps⟩⟩ := h.step_advances
    · exact ⟨1, t, Nat.le_add_left 1 n, run_succ e, hstop⟩
    · obtain ⟨k, u, hk, hrun, hstop⟩ := ih served (by omega)
      exact ⟨k + 1, u, Nat.succ_le_succ hk, (run_succ e).trans hrun, hstop⟩

end

/-- Settles O59: at its start a command has as many steps left as its bound, and at most two writes. -/
theorem everyCommandEndsWithinItsBound : Obligations.EveryCommandEndsWithinItsBound := by
  intro i s hinv hrun hs hheld hw
  obtain ⟨hidle, hpending⟩ := hs
  have ⟨_, _, hd⟩ := hrun
  have served : Served i s := ⟨⟨hinv, by simp [State.busy, hpending], hd⟩, hrun, hheld, by rw [hidle]; exact hw⟩
  exact served.stops (by rw [hidle]; rfl)

end Sys2Proof.Machine
end
